-- ==== Sys2Proof/Word.lean ====
section
/-! DEFINITION. The word types of the machine: bytes, linear addresses and vector registers (spec/10_state.md R30, R36, R39). -/

namespace Sys2Proof

/-- A byte of memory or of an instruction, 8 bits (R39). -/
abbrev Byte := BitVec 8

/-- A 64-bit linear address, and the width of a general register and of `pc` (R35, R36, R39). -/
abbrev Addr := BitVec 64

/-- The whole of one vector register: `MAXVL = 512` bits (R30). -/
abbrev VecWord := BitVec 512

end Sys2Proof
end

