-- ==== Sys2Proof/Config.lean ====
section
/-! DEFINITION. The parameters of the machine, which no instruction changes (spec/00_scope.md R6, spec/10_state.md R38,
spec/70_reset_and_hazards.md R240). They are plain data held in the state, so that a statement quantifies over them
(notes/assumptions/1.md, DESIGN CHOICE). -/

namespace Sys2Proof

/-- The kind of a memory access (R6: `kind = load` or `kind = store`). -/
inductive AccessKind where
  | load
  | store
deriving DecidableEq, Repr

/-- A range of addresses with the accesses it allows. The predicate `Accessible` of R6 is a list of these: an address is
accessible unless a range that holds it denies the access (notes/assumptions/6.md, DESIGN CHOICE). -/
structure Region where
  /-- first address of the range -/
  base : Nat
  /-- number of bytes -/
  size : Nat
  /-- the bytes may be read -/
  load : Bool
  /-- the bytes may be written -/
  store : Bool
deriving DecidableEq, Repr

/-- `KW`, the width of an opmask register: 16 or 64 (R6, R33). -/
inductive OpmaskWidth where
  | w16
  | w64
deriving DecidableEq, Repr

/-- `KW` in bits. -/
def OpmaskWidth.bits : OpmaskWidth → Nat
  | .w16 => 16
  | .w64 => 64

/-- The parameters of R6, R38 and R240. -/
structure Config where
  /-- CPUID flag `SSE2` -/
  hasSse2 : Bool
  /-- CPUID flag `AVX` -/
  hasAvx : Bool
  /-- CPUID flag `AVX512F` -/
  hasAvx512f : Bool
  /-- CPUID flag `AVX512VL` -/
  hasAvx512vl : Bool
  /-- CR0 bit 2 -/
  cr0Em : Bool
  /-- CR0 bit 3 -/
  cr0Ts : Bool
  /-- CR4 bit 9 -/
  cr4Osfxsr : Bool
  /-- CR4 bit 18 -/
  cr4Osxsave : Bool
  /-- `XCR0[2:1]`: AVX state and SSE state -/
  xcr0AvxSse : BitVec 2
  /-- `XCR0[7:5]`: Hi16_ZMM, ZMM_Hi256 and opmask state -/
  xcr0Evex : BitVec 3
  /-- `KW` -/
  kw : OpmaskWidth
  /-- `LINEAR_BITS`: significant bits of a linear address -/
  linearBits : Nat
  /-- `Accessible`, as the ranges that restrict it -/
  regions : List Region
  /-- `TEXT_BASE` -/
  textBase : Addr
  /-- `TEXT_LEN` -/
  textLen : Nat
  /-- `MASK_FAULT_SUPPRESSION` -/
  maskFaultSuppression : Bool
deriving DecidableEq, Repr

/-- The defaults of R6 and R38. The spec gives no default for `Accessible`, `TEXT_BASE` and `TEXT_LEN`: here nothing is
restricted, the text starts at `0x400000` and has one byte, the fewest that R240 allows (notes/assumptions/2.md and 6.md, DESIGN
CHOICE). -/
def Config.default : Config where
  hasSse2 := true
  hasAvx := true
  hasAvx512f := true
  hasAvx512vl := true
  cr0Em := false
  cr0Ts := false
  cr4Osfxsr := true
  cr4Osxsave := true
  xcr0AvxSse := 0b11#2
  xcr0Evex := 0b111#3
  kw := .w64
  linearBits := 48
  regions := []
  textBase := 0x400000#64
  textLen := 1
  maskFaultSuppression := false

end Sys2Proof
end

