-- ==== Sys2Proof/Syntax.lean ====
section
/-! DEFINITION. The instructions: one constructor of `Instr` for each of the 36 rows of spec/opcode_table.json
(spec/30_encoding.md R91, R110), with the operands the decoder finds. -/

namespace Sys2Proof

/-- A vector register named with 4 bits, `v[0]` to `v[15]`: legacy SSE and VEX encodings (R32, R98). -/
abbrev VReg16 := BitVec 4

/-- A vector register named with 5 bits, `v[0]` to `v[31]`: EVEX encodings (R32, R98). -/
abbrev VReg32 := BitVec 5

/-- A general register `x[0]` to `x[15]` (R35). -/
abbrev Gpr := BitVec 4

/-- The EVEX field `aaa`: 0 is no writemask, 1 to 7 select `k[aaa]` (R34, R107). -/
abbrev OpmaskSel := BitVec 3

/-- The vector length `VL` (R106). -/
inductive VecLen where
  | l128
  | l256
  | l512
deriving DecidableEq, Repr

/-- `VL` in bits. -/
def VecLen.bits : VecLen → Nat
  | .l128 => 128
  | .l256 => 256
  | .l512 => 512

/-- The size in bytes of a memory operand of this length (R60). -/
def VecLen.bytes : VecLen → Nat
  | .l128 => 16
  | .l256 => 32
  | .l512 => 64

/-- The element size `ES` of an EVEX form (R12): doublewords for `W0`, quadwords for `W1` (R105). -/
inductive ElemSize where
  | dword
  | qword
deriving DecidableEq, Repr

/-- `ES` in bits. -/
def ElemSize.bits : ElemSize → Nat
  | .dword => 32
  | .qword => 64

/-- `ES` in bytes. -/
def ElemSize.bytes : ElemSize → Nat
  | .dword => 4
  | .qword => 8

/-- `KL`, the number of elements (R6): `VL / ES`. -/
def elemCount (vl : VecLen) (es : ElemSize) : Nat := vl.bits / es.bits

/-- The displacement of a memory operand, as encoded (R99): absent, one byte (scaled in EVEX encodings, R101), or four
bytes. -/
inductive Disp where
  | none
  | disp8 (b : BitVec 8)
  | disp32 (d : BitVec 32)
deriving DecidableEq, Repr

/-- How the address of a memory operand is formed (R99). An index register number of 4 means "no index". -/
inductive AddrForm where
  /-- a base register and no SIB byte -/
  | base (b : Gpr) (disp : Disp)
  /-- a SIB byte with a base register: `x[b] + (x[index] << scale) + disp` -/
  | sib (b index : Gpr) (scale : BitVec 2) (disp : Disp)
  /-- a SIB byte with no base (`SIB[2:0] = 101b`, `mod = 00b`) -/
  | sibNoBase (index : Gpr) (scale : BitVec 2) (disp : BitVec 32)
  /-- RIP-relative (`rm = 101b`, `mod = 00b`) -/
  | ripRel (disp : BitVec 32)
deriving DecidableEq, Repr

/-- A memory operand: its address form, and whether a `67` byte makes the address 32 bits wide (R99, R100). -/
structure MemOperand where
  addr32 : Bool
  form : AddrForm
deriving DecidableEq, Repr

/-- The masking fields of an EVEX form that may zero: `aaa` and `z` (R107). -/
structure Masking where
  aaa : OpmaskSel
  /-- 0 merges, 1 zeroes -/
  z : Bool
deriving DecidableEq, Repr

/-- The instructions. `Rm` in a name is opcode `6F` (the destination is `ModRM:reg`), `Mr` is opcode `7F` (the destination
is `ModRM:r/m`) (R92). Every constructor ends with `len`, the length of the instruction in bytes (R115): the spec's
`Instr(rule, fields, len)` of R109. -/
inductive Instr where
  /-- R140 `MOVDQA xmm1, xmm2` (`6F`) -/
  | movdqaXmmCopyRm (dst src : VReg16) (len : Nat)
  /-- R141 `MOVDQA xmm1, m128` -/
  | movdqaXmmLoad (dst : VReg16) (m : MemOperand) (len : Nat)
  /-- R142 `MOVDQA xmm2, xmm1` (`7F`) -/
  | movdqaXmmCopyMr (dst src : VReg16) (len : Nat)
  /-- R143 `MOVDQA m128, xmm1` -/
  | movdqaXmmStore (m : MemOperand) (src : VReg16) (len : Nat)
  /-- R150 `VMOVDQA xmm1, xmm2` (`6F`) -/
  | vmovdqaXmmCopyRm (dst src : VReg16) (len : Nat)
  /-- R151 `VMOVDQA xmm1, m128` -/
  | vmovdqaXmmLoad (dst : VReg16) (m : MemOperand) (len : Nat)
  /-- R152 `VMOVDQA xmm2, xmm1` (`7F`) -/
  | vmovdqaXmmCopyMr (dst src : VReg16) (len : Nat)
  /-- R153 `VMOVDQA m128, xmm1` -/
  | vmovdqaXmmStore (m : MemOperand) (src : VReg16) (len : Nat)
  /-- R154 `VMOVDQA ymm1, ymm2` (`6F`) -/
  | vmovdqaYmmCopyRm (dst src : VReg16) (len : Nat)
  /-- R155 `VMOVDQA ymm1, m256` -/
  | vmovdqaYmmLoad (dst : VReg16) (m : MemOperand) (len : Nat)
  /-- R156 `VMOVDQA ymm2, ymm1` (`7F`) -/
  | vmovdqaYmmCopyMr (dst src : VReg16) (len : Nat)
  /-- R157 `VMOVDQA m256, ymm1` -/
  | vmovdqaYmmStore (m : MemOperand) (src : VReg16) (len : Nat)
  /-- R160 `VMOVDQA32 xmm1 {k1}{z}, xmm2` (`6F`) -/
  | vmovdqa32XmmCopyRm (dst src : VReg32) (mask : Masking) (len : Nat)
  /-- R161 `VMOVDQA32 xmm1 {k1}{z}, m128` -/
  | vmovdqa32XmmLoad (dst : VReg32) (mask : Masking) (m : MemOperand) (len : Nat)
  /-- R162 `VMOVDQA32 ymm1 {k1}{z}, ymm2` (`6F`) -/
  | vmovdqa32YmmCopyRm (dst src : VReg32) (mask : Masking) (len : Nat)
  /-- R163 `VMOVDQA32 ymm1 {k1}{z}, m256` -/
  | vmovdqa32YmmLoad (dst : VReg32) (mask : Masking) (m : MemOperand) (len : Nat)
  /-- R164 `VMOVDQA32 zmm1 {k1}{z}, zmm2` (`6F`) -/
  | vmovdqa32ZmmCopyRm (dst src : VReg32) (mask : Masking) (len : Nat)
  /-- R165 `VMOVDQA32 zmm1 {k1}{z}, m512` -/
  | vmovdqa32ZmmLoad (dst : VReg32) (mask : Masking) (m : MemOperand) (len : Nat)
  /-- R166 `VMOVDQA32 xmm2 {k1}{z}, xmm1` (`7F`) -/
  | vmovdqa32XmmCopyMr (dst src : VReg32) (mask : Masking) (len : Nat)
  /-- R167 `VMOVDQA32 m128 {k1}, xmm1`: merging only, so no `z` -/
  | vmovdqa32XmmStore (m : MemOperand) (aaa : OpmaskSel) (src : VReg32) (len : Nat)
  /-- R168 `VMOVDQA32 ymm2 {k1}{z}, ymm1` (`7F`) -/
  | vmovdqa32YmmCopyMr (dst src : VReg32) (mask : Masking) (len : Nat)
  /-- R169 `VMOVDQA32 m256 {k1}, ymm1`: merging only, so no `z` -/
  | vmovdqa32YmmStore (m : MemOperand) (aaa : OpmaskSel) (src : VReg32) (len : Nat)
  /-- R170 `VMOVDQA32 zmm2 {k1}{z}, zmm1` (`7F`) -/
  | vmovdqa32ZmmCopyMr (dst src : VReg32) (mask : Masking) (len : Nat)
  /-- R171 `VMOVDQA32 m512 {k1}, zmm1`: merging only, so no `z` -/
  | vmovdqa32ZmmStore (m : MemOperand) (aaa : OpmaskSel) (src : VReg32) (len : Nat)
  /-- R180 `VMOVDQA64 xmm1 {k1}{z}, xmm2` (`6F`) -/
  | vmovdqa64XmmCopyRm (dst src : VReg32) (mask : Masking) (len : Nat)
  /-- R181 `VMOVDQA64 xmm1 {k1}{z}, m128` -/
  | vmovdqa64XmmLoad (dst : VReg32) (mask : Masking) (m : MemOperand) (len : Nat)
  /-- R182 `VMOVDQA64 ymm1 {k1}{z}, ymm2` (`6F`) -/
  | vmovdqa64YmmCopyRm (dst src : VReg32) (mask : Masking) (len : Nat)
  /-- R183 `VMOVDQA64 ymm1 {k1}{z}, m256` -/
  | vmovdqa64YmmLoad (dst : VReg32) (mask : Masking) (m : MemOperand) (len : Nat)
  /-- R184 `VMOVDQA64 zmm1 {k1}{z}, zmm2` (`6F`) -/
  | vmovdqa64ZmmCopyRm (dst src : VReg32) (mask : Masking) (len : Nat)
  /-- R185 `VMOVDQA64 zmm1 {k1}{z}, m512` -/
  | vmovdqa64ZmmLoad (dst : VReg32) (mask : Masking) (m : MemOperand) (len : Nat)
  /-- R186 `VMOVDQA64 xmm2 {k1}{z}, xmm1` (`7F`) -/
  | vmovdqa64XmmCopyMr (dst src : VReg32) (mask : Masking) (len : Nat)
  /-- R187 `VMOVDQA64 m128 {k1}, xmm1`: merging only, so no `z` -/
  | vmovdqa64XmmStore (m : MemOperand) (aaa : OpmaskSel) (src : VReg32) (len : Nat)
  /-- R188 `VMOVDQA64 ymm2 {k1}{z}, ymm1` (`7F`) -/
  | vmovdqa64YmmCopyMr (dst src : VReg32) (mask : Masking) (len : Nat)
  /-- R189 `VMOVDQA64 m256 {k1}, ymm1`: merging only, so no `z` -/
  | vmovdqa64YmmStore (m : MemOperand) (aaa : OpmaskSel) (src : VReg32) (len : Nat)
  /-- R190 `VMOVDQA64 zmm2 {k1}{z}, zmm1` (`7F`) -/
  | vmovdqa64ZmmCopyMr (dst src : VReg32) (mask : Masking) (len : Nat)
  /-- R191 `VMOVDQA64 m512 {k1}, zmm1`: merging only, so no `z` -/
  | vmovdqa64ZmmStore (m : MemOperand) (aaa : OpmaskSel) (src : VReg32) (len : Nat)
deriving DecidableEq, Repr

/-- Why bytes are outside the spec: the reasons `Decode` gives for `NotInScope` (R109). -/
inductive ScopeReason where
  /-- a segment-override byte stands before the instruction: "segment override" -/
  | segmentOverride
  /-- another opcode, opcode map or implied operand-size field: "opcode" -/
  | opcode
  /-- `0F 6F` or `0F 7F` with `F2` or `F3` or without `66`: "other mandatory prefix" -/
  | otherMandatoryPrefix
deriving DecidableEq, Repr

end Sys2Proof
end

