-- ==== Sys2Proof/Machine/State.lean ====
section
/-! DEFINITION. The state of the machine (spec/10_state.md, the tuple at its head; spec/60_exceptions.md R200, R209) and its
value at reset (R42, R240). -/

namespace Sys2Proof.Machine

/-- The exceptions an instruction in scope can raise (R200). -/
inductive Exc where
  /-- `#UD`, invalid opcode -/
  | ud
  /-- `#NM`, device not available -/
  | nm
  /-- `#SS`, stack-segment fault -/
  | ss
  /-- `#GP`, general protection -/
  | gp
  /-- `#PF`, page fault -/
  | pf
deriving DecidableEq, Repr

/-- The error code an exception records (R200): `none`, `0` or `unmodelled`. -/
inductive ErrorCode where
  | none
  | zero
  /-- the `#PF` code, which the spec does not model (D25) -/
  | unmodelled
deriving DecidableEq, Repr

/-- The reasons of a `Refused` outcome (R41). -/
inductive RefusedReason where
  /-- the decoder's `NotInScope` (R109) -/
  | notInScope (r : ScopeReason)
  /-- "store to program text" (R77) -/
  | storeToProgramText
  /-- "pc outside program text" (R242) -/
  | pcOutsideProgramText
  /-- "instruction runs past the program text" (R242) -/
  | pastProgramText
deriving DecidableEq, Repr

/-- How the run stands (R41). -/
inductive RunOutcome where
  | running
  | ended
  | fault (vector : Nat) (code : ErrorCode)
  | refused (reason : RefusedReason)
deriving DecidableEq, Repr

/-- The state: the tuple of 10_state.md, and the parameters of the run, which no instruction writes
(notes/assumptions/1.md). -/
structure State where
  /-- the parameters of R6, R38 and R240 -/
  cfg : Config
  /-- the vector registers `v[0]` to `v[31]` (R30) -/
  v : Vector (BitVec 512) 32
  /-- the opmask registers `k[0]` to `k[7]`; the low `KW` bits are the register (R33, notes/assumptions/15.md) -/
  k : Vector (BitVec 64) 8
  /-- the general registers `x[0]` to `x[15]` (R35) -/
  x : Vector (BitVec 64) 16
  /-- the instruction pointer (R36) -/
  pc : BitVec 64
  /-- memory: the bytes that differ from 0, by rising address (R39, notes/assumptions/4.md) -/
  mem : List Host.Cell
  /-- `outcome` (R41) -/
  outcome : RunOutcome
deriving DecidableEq, Repr

/-- How a step of the model can stop without a next state. No meaning of an instruction answers one. -/
inductive Fault where
  /-- Raised by `step` in a state whose `outcome` is not `Running`: no step is defined from it (R41, R242). Safe: the run of
  the spec is over there (notes/assumptions/7.md). -/
  | notRunning
deriving DecidableEq, Repr

/-- Why a step can be refused by the model. Every instruction has a meaning, and the refusals of the spec are values of
`outcome`, so nothing answers one. -/
inductive Refusal where
  /-- An instruction that has no meaning in the model; raised by no arm of `exec`. Safe. -/
  | notModelled (mnemonic : String)
deriving DecidableEq, Repr

/-- The launch state of R240 with the default parameters and no program loaded: the text is one byte of memory as it is at
launch. The registers the spec leaves open hold 0 (notes/assumptions/3.md, DESIGN CHOICE); how a program comes to run is
notes/assumptions/2.md. -/
def State.reset : State where
  cfg := Config.default
  v := Vector.replicate 32 0#512
  k := Vector.replicate 8 0#64
  x := Vector.replicate 16 0#64
  pc := Config.default.textBase
  mem := []
  outcome := .running

end Sys2Proof.Machine
end

