-- ==== Sys2Proof/Machine/Ops.lean ====
section
/-! DEFINITION. The shared operations: memory bytes and words (spec/20_memory.md R61, R62), registers (spec/10_state.md R30 to
R36), accessibility and canonical form (R69, R70), the data movements (spec/00_scope.md R8, R12), and TAKING AN EXCEPTION
(spec/60_exceptions.md R212). The spec has no return from an exception (R213). -/

namespace Sys2Proof.Machine

/-! ## Memory bytes (R39, R68) -/

/-- What a byte that is not listed reads as (notes/assumptions/4.md, DESIGN CHOICE). -/
def unlistedByte : Byte := 0#8

/-- The canonical form of memory: addresses strictly rising, below 2^64, and no byte equal to an unlisted one. -/
abbrev memWf (m : List Host.Cell) : Prop :=
  m.Pairwise (fun c d => c.1 < d.1) ∧ ∀ c ∈ m, c.2 ≠ unlistedByte ∧ c.1 < 2 ^ 64

/-- The byte listed at a cell key, or the unlisted byte. -/
def lookupCell : List Host.Cell → Nat → Byte
  | [], _ => unlistedByte
  | c :: m, a => if c.1 = a then c.2 else lookupCell m a

/-- The byte at an address (R68). -/
def readByte (m : List Host.Cell) (a : Addr) : Byte := lookupCell m a.toNat

/-- Insert a cell before the first one with a greater key. -/
def insertCell (a : Nat) (b : Byte) : List Host.Cell → List Host.Cell
  | [] => [(a, b)]
  | c :: m => if a < c.1 then (a, b) :: c :: m else c :: insertCell a b m

/-- Write one byte (R68); a byte equal to an unlisted one is not listed. -/
def writeByte (m : List Host.Cell) (a : Addr) (b : Byte) : List Host.Cell :=
  let rest := m.filter (fun c => c.1 != a.toNat)
  if b = unlistedByte then rest else insertCell a.toNat b rest

/-! ## Memory words, little-endian (R61, R62) -/

/-- The address `b` bytes above `a`. -/
def byteAddr (a : Addr) (b : Nat) : Addr := a + BitVec.ofNat 64 b

/-- Keep the low `w` bits and clear the others: a `w`-bit value held in 512 bits. -/
def lowBits (w : Nat) (e : VecWord) : VecWord := (e.setWidth w).setWidth 512

/-- Byte `b` of a value: its bits `8b+7:8b`. -/
def byteOf (e : VecWord) (b : Nat) : Byte := e.extractLsb' (8 * b) 8

/-- `MemRead(a, n)` of R62, the `8n`-bit value held in 512 bits: byte `b` of it is the byte at `a + b`. -/
def memRead (m : List Host.Cell) (a : Addr) : Nat → VecWord
  | 0 => 0#512
  | n + 1 => memRead m a n ||| ((readByte m (byteAddr a n)).setWidth 512 <<< (8 * n))

/-- `MemWrite(a, n, e)` of R62. -/
def memWrite (m : List Host.Cell) (a : Addr) (e : VecWord) : Nat → List Host.Cell
  | 0 => m
  | n + 1 => writeByte (memWrite m a e n) (byteAddr a n) (byteOf e n)

/-- Element `j` of a value of `es`-size elements: its bits `j*ES+ES-1 : j*ES` (R12). -/
def elemOf (es : ElemSize) (e : VecWord) (j : Nat) : VecWord := lowBits es.bits (e >>> (j * es.bits))

/-- Element `j` of a memory operand, `MemRead(a + j*ES/8, ES/8)`: what `MemReadMasked` of R62 answers where the element is
selected. An element that is not selected is never read, because `maskedMove` does not ask for it. -/
def memElem (m : List Host.Cell) (a : Addr) (es : ElemSize) (j : Nat) : VecWord :=
  memRead m (byteAddr a (j * es.bytes)) es.bytes

/-- `MemWriteMasked(a, ES, KL, sel, e)` of R62: no byte of an unselected element is touched. -/
def memWriteMasked (m : List Host.Cell) (a : Addr) (es : ElemSize) (sel : Nat → Bool) (e : VecWord) :
    Nat → List Host.Cell
  | 0 => m
  | j + 1 =>
    let done := memWriteMasked m a es sel e j
    if sel j then memWrite done (byteAddr a (j * es.bytes)) (elemOf es e j) es.bytes else done

/-! ## Data movement (R8, R12) -/

/-- `MaskedMove` of R12 on the first `kl` elements: `src j` is asked for only where element `j` is selected. `z = 0` keeps the
old element, `z = 1` clears it. Bits above the elements are 0. -/
def maskedMove (es : ElemSize) (old : VecWord) (src : Nat → VecWord) (sel : Nat → Bool) (z : Bool) : Nat → VecWord
  | 0 => 0#512
  | j + 1 =>
    let e := if sel j then src j else if z then 0#512 else elemOf es old j
    maskedMove es old src sel z j ||| (lowBits es.bits e <<< (j * es.bits))

/-- Write bits `w-1:0` and leave the bits above as they were (R8): the legacy SSE register destination. -/
def writeLow (w : Nat) (old new : VecWord) : VecWord := (old >>> w) <<< w ||| lowBits w new

/-! ## Registers (R30 to R36) -/

/-- `v[n]`. -/
def State.vec (s : State) (n : VReg32) : VecWord := s.v.get n.toFin

/-- `v[n] <- e`. -/
def State.setVec (s : State) (n : VReg32) (e : VecWord) : State := { s with v := s.v.set n.toNat e n.isLt }

/-- The register a 4-bit number names: `v[0]` to `v[15]` (R32). -/
def vreg (n : VReg16) : VReg32 := n.setWidth 5

/-- `k[n]`: its low `KW` bits (R33, notes/assumptions/15.md). -/
def State.opmask (s : State) (n : OpmaskSel) : BitVec 64 := ((s.k.get n.toFin).setWidth s.cfg.kw.bits).setWidth 64

/-- `x[n]` (R35). -/
def State.gpr (s : State) (n : Gpr) : BitVec 64 := s.x.get n.toFin

/-- `pc <- pc + len`: an instruction that completes (R36). -/
def State.advance (s : State) (len : Nat) : State := { s with pc := s.pc + BitVec.ofNat 64 len }

/-! ## Exceptions and refusals (R41, R200, R212) -/

/-- The vector number of an exception (R200). -/
def Exc.vector : Exc → Nat
  | .ud => 6
  | .nm => 7
  | .ss => 12
  | .gp => 13
  | .pf => 14

/-- The error code an exception records (R200). -/
def Exc.code : Exc → ErrorCode
  | .ud => .none
  | .nm => .none
  | .ss => .zero
  | .gp => .zero
  | .pf => .unmodelled

/-- TAKING AN EXCEPTION (R212): the outcome records vector and code, and nothing else changes. -/
def State.raise (s : State) (e : Exc) : State := { s with outcome := .fault e.vector e.code }

/-- `outcome <- Refused(reason)` (R41). -/
def State.refuse (s : State) (r : RefusedReason) : State := { s with outcome := .refused r }

/-- What can stop an instruction before it has any effect (R211). -/
inductive Stop where
  | exc (e : Exc)
  | refuse (r : RefusedReason)
deriving DecidableEq, Repr

/-- The state after a stop. -/
def State.stop (s : State) : Stop → State
  | .exc e => s.raise e
  | .refuse r => s.refuse r

/-- The next state of an instruction: the stop its tests found, or its effect. -/
def attempt (check : Option Stop) (s effect : State) : Host.Outcome State Fault Refusal :=
  .next (match check with
    | some st => s.stop st
    | none => effect)

/-! ## The tests before an access (R69 to R71) -/

/-- Canonical form: bits `63:LINEAR_BITS-1` are all equal (R69). -/
def canonical (linearBits : Nat) (a : Addr) : Bool :=
  let top := a.toNat >>> (linearBits - 1)
  top == 0 || top == 2 ^ (64 - (linearBits - 1)) - 1

/-- The range holds the address. -/
def inRegion (r : Region) (a : Addr) : Bool := decide (r.base ≤ a.toNat ∧ a.toNat < r.base + r.size)

/-- The range allows the access. -/
def regionAllows (r : Region) : AccessKind → Bool
  | .load => r.load
  | .store => r.store

/-- `Accessible(a, 1, kind)` (R6, notes/assumptions/6.md). -/
def accessibleByte (c : Config) (kind : AccessKind) (a : Addr) : Bool :=
  c.regions.all (fun r => !inRegion r a || regionAllows r kind)

/-- `Accessible(a, n, kind)`: every one of the `n` bytes is accessible. -/
def accessible (c : Config) (kind : AccessKind) (a : Addr) (n : Nat) : Bool :=
  (List.range n).all (fun b => accessibleByte c kind (byteAddr a b))

/-- The address lies in the program text `[TEXT_BASE, TEXT_BASE + TEXT_LEN)` (R242). -/
def inText (c : Config) (a : Addr) : Bool :=
  decide (c.textBase.toNat ≤ a.toNat ∧ a.toNat < c.textBase.toNat + c.textLen)

/-- `[a, a + n)` meets the program text (R70 step 3). -/
def meetsText (c : Config) (a : Addr) (n : Nat) : Bool := (List.range n).any (fun b => inText c (byteAddr a b))

/-- Which elements a form touches, and how large they are, for `Accessible` under `MASK_FAULT_SUPPRESSION` (R70 step 4). -/
structure ElemSel where
  /-- bytes of one element -/
  bytes : Nat
  /-- number of elements -/
  count : Nat
  sel : Nat → Bool

/-- A legacy SSE or VEX operand: one element, selected. -/
def ElemSel.whole (n : Nat) : ElemSel := ⟨n, 1, fun _ => true⟩

/-- R70 step 4: the whole operand is accessible, or, with `MASK_FAULT_SUPPRESSION`, every selected element is. -/
def operandAccessible (c : Config) (kind : AccessKind) (a : Addr) (n : Nat) (es : ElemSel) : Bool :=
  if c.maskFaultSuppression then
    (List.range es.count).all (fun j => !es.sel j || accessible c kind (byteAddr a (j * es.bytes)) es.bytes)
  else accessible c kind a n

/-- `CheckMem` of R70 on an operand of `n` bytes at `a`; `stack` says that its segment is SS (R102). -/
def checkMem (c : Config) (stack : Bool) (kind : AccessKind) (a : Addr) (n : Nat) (es : ElemSel) : Option Stop :=
  if !canonical c.linearBits a then some (.exc (if stack then .ss else .gp))
  else if a.toNat % n ≠ 0 then some (.exc .gp)
  else if kind = .store ∧ meetsText c a n then some (.refuse .storeToProgramText)
  else if !operandAccessible c kind a n es then some (.exc .pf)
  else none

end Sys2Proof.Machine
end

