-- ==== Sys2Proof/Machine/Operands.lean ====
section
/-! DEFINITION. The operands: the effective address and its segment (spec/30_encoding.md R99 to R102) and the writemask
(R107). -/

namespace Sys2Proof.Machine

/-- The number of an index field that means "no index" (R99). -/
def noIndex : Gpr := 4#4

/-- The value of a displacement in `w` bits: `disp8` is scaled by `n` (R101), `disp32` is not; both are sign-extended. -/
def dispValue (w n : Nat) : Disp → BitVec w
  | .none => 0#w
  | .disp8 b => b.signExtend w * BitVec.ofNat w n
  | .disp32 d => d.signExtend w

/-- The value of a general register as an address part of `w` bits: all of it, or its low 32 bits (R99, R100). -/
def State.addrReg (s : State) (w : Nat) (r : Gpr) : BitVec w := (s.gpr r).setWidth w

/-- The scaled index (R99). -/
def State.indexValue (s : State) (w : Nat) (i : Gpr) (scale : BitVec 2) : BitVec w :=
  if i = noIndex then 0#w else s.addrReg w i <<< scale.toNat

/-- The sum of R99, modulo `2^w`. `n` scales a `disp8`; `len` is the length of the instruction, so that `pc + len` is the
address of the next one. -/
def State.addrSum (s : State) (w n len : Nat) : AddrForm → BitVec w
  | .base b d => s.addrReg w b + dispValue w n d
  | .sib b i sc d => s.addrReg w b + s.indexValue w i sc + dispValue w n d
  | .sibNoBase i sc d => s.indexValue w i sc + d.signExtend w
  | .ripRel d => (s.pc + BitVec.ofNat 64 len).setWidth w + d.signExtend w

/-- `EA` (R99, R100): with 32-bit addressing the sum is taken modulo `2^32` and zero-extended. -/
def State.effAddr (s : State) (m : MemOperand) (n len : Nat) : Addr :=
  if m.addr32 then (s.addrSum 32 n len m.form).setWidth 64 else s.addrSum 64 n len m.form

/-- The base registers whose segment is the stack segment, `RSP` and `RBP` (R102). -/
def isStackBase (b : Gpr) : Bool := b == 4#4 || b == 5#4

/-- The operand's segment is SS: the address has a base register and it is `RSP` or `RBP` (R102). -/
def stackSegment : AddrForm → Bool
  | .base b _ => isStackBase b
  | .sib b _ _ _ => isStackBase b
  | .sibNoBase _ _ _ => false
  | .ripRel _ => false

/-- Element `j` is selected: there is no writemask, or bit `j` of the writemask is 1 (R62, R107). -/
def State.selected (s : State) (aaa : OpmaskSel) (j : Nat) : Bool := aaa == 0#3 || (s.opmask aaa).getLsbD j

/-- The elements of an EVEX memory operand. -/
def State.evexElems (s : State) (vl : VecLen) (es : ElemSize) (aaa : OpmaskSel) : ElemSel :=
  ⟨es.bytes, elemCount vl es, s.selected aaa⟩

end Sys2Proof.Machine
end

