-- ==== Sys2Proof/Machine/Flags.lean ====
section
/-! DEFINITION. No instruction in scope reads or writes a status flag (spec/10_state.md R37), so there is no flag
computation. The flags that decide whether an instruction executes are the CPUID feature flags and the enables of R38: the
three gates of spec/60_exceptions.md R201 and R202 stand here. -/

namespace Sys2Proof.Machine

/-- The second line of every gate: `#NM` when `CR0_TS = 1` (R202). -/
def gateNm (c : Config) : Option Stop := if c.cr0Ts then some (.exc .nm) else none

/-- `GateSSE` (R201, R202). -/
def gateSse (c : Config) : Option Stop :=
  if !c.hasSse2 || c.cr0Em || !c.cr4Osfxsr then some (.exc .ud) else gateNm c

/-- `GateVEX` (R201, R202). -/
def gateVex (c : Config) : Option Stop :=
  if !c.hasAvx || !c.cr4Osxsave || c.xcr0AvxSse != 0b11#2 then some (.exc .ud) else gateNm c

/-- `GateEVEX(VL)` (R201, R202). -/
def gateEvex (vl : VecLen) (c : Config) : Option Stop :=
  if !c.hasAvx512f || (vl != .l512 && !c.hasAvx512vl) || !c.cr4Osxsave || c.xcr0AvxSse != 0b11#2
      || c.xcr0Evex != 0b111#3 then some (.exc .ud)
  else gateNm c

end Sys2Proof.Machine
end

