-- ==== Sys2Proof/Machine/Moves.lean ====
section
/-! DEFINITION. The nine operations the 36 meanings are made of: register copy, load and store of the legacy SSE, VEX and EVEX
families (spec/40_movdqa_sse.md, 41_vmovdqa_vex.md, 42_vmovdqa32_evex.md, 43_vmovdqa64_evex.md). Each runs its gate, then
`CheckMem` if it has a memory operand, then moves the data and advances `pc`. -/

namespace Sys2Proof.Machine

/-! ## Legacy SSE: bits 511:128 of a register destination are kept -/

/-- `v[d][127:0] <- v[s][127:0]` (R140, R142). -/
def legacyCopy (dst src : VReg16) (len : Nat) (s : State) : Host.Outcome State Fault Refusal :=
  attempt (gateSse s.cfg) s
    ((s.setVec (vreg dst) (writeLow 128 (s.vec (vreg dst)) (s.vec (vreg src)))).advance len)

/-- `v[d][127:0] <- MemRead(EA, 16)` (R141). -/
def legacyLoad (dst : VReg16) (m : MemOperand) (len : Nat) (s : State) : Host.Outcome State Fault Refusal :=
  let ea := s.effAddr m 1 len
  attempt ((gateSse s.cfg).or (checkMem s.cfg (stackSegment m.form) .load ea 16 (.whole 16))) s
    ((s.setVec (vreg dst) (writeLow 128 (s.vec (vreg dst)) (memRead s.mem ea 16))).advance len)

/-- `MemWrite(EA, 16, v[s][127:0])` (R143). -/
def legacyStore (m : MemOperand) (src : VReg16) (len : Nat) (s : State) : Host.Outcome State Fault Refusal :=
  let ea := s.effAddr m 1 len
  attempt ((gateSse s.cfg).or (checkMem s.cfg (stackSegment m.form) .store ea 16 (.whole 16))) s
    (State.advance { s with mem := memWrite s.mem ea (s.vec (vreg src)) 16 } len)

/-! ## VEX: bits above `VL` of a register destination are zeroed -/

/-- `v[d] <- zext(v[s][VL-1:0])` (R150, R152, R154, R156). -/
def vexCopy (vl : VecLen) (dst src : VReg16) (len : Nat) (s : State) : Host.Outcome State Fault Refusal :=
  attempt (gateVex s.cfg) s ((s.setVec (vreg dst) (lowBits vl.bits (s.vec (vreg src)))).advance len)

/-- `v[d] <- zext(MemRead(EA, VL/8))` (R151, R155). -/
def vexLoad (vl : VecLen) (dst : VReg16) (m : MemOperand) (len : Nat) (s : State) : Host.Outcome State Fault Refusal :=
  let ea := s.effAddr m 1 len
  attempt ((gateVex s.cfg).or (checkMem s.cfg (stackSegment m.form) .load ea vl.bytes (.whole vl.bytes))) s
    ((s.setVec (vreg dst) (lowBits vl.bits (memRead s.mem ea vl.bytes))).advance len)

/-- `MemWrite(EA, VL/8, v[s][VL-1:0])` (R153, R157). -/
def vexStore (vl : VecLen) (m : MemOperand) (src : VReg16) (len : Nat) (s : State) : Host.Outcome State Fault Refusal :=
  let ea := s.effAddr m 1 len
  attempt ((gateVex s.cfg).or (checkMem s.cfg (stackSegment m.form) .store ea vl.bytes (.whole vl.bytes))) s
    (State.advance { s with mem := memWrite s.mem ea (s.vec (vreg src)) vl.bytes } len)

/-! ## EVEX: elements move under the writemask; bits above `VL` of a register destination are zeroed -/

/-- `v[d][VL-1:0] <- MaskedMove(v[d], v[s], ES, KL, m, z)`, `v[d][511:VL] <- 0` (R160, R166, R180, R186 and their wider
forms). -/
def evexCopy (es : ElemSize) (vl : VecLen) (dst src : VReg32) (mask : Masking) (len : Nat) (s : State) :
    Host.Outcome State Fault Refusal :=
  let r := maskedMove es (s.vec dst) (elemOf es (s.vec src)) (s.selected mask.aaa) mask.z (elemCount vl es)
  attempt (gateEvex vl s.cfg) s ((s.setVec dst (lowBits vl.bits r)).advance len)

/-- The same with the elements read from memory, the selected ones only (R161, R181 and their wider forms). -/
def evexLoad (es : ElemSize) (vl : VecLen) (dst : VReg32) (mask : Masking) (m : MemOperand) (len : Nat) (s : State) :
    Host.Outcome State Fault Refusal :=
  let ea := s.effAddr m vl.bytes len
  let r := maskedMove es (s.vec dst) (memElem s.mem ea es) (s.selected mask.aaa) mask.z (elemCount vl es)
  attempt ((gateEvex vl s.cfg).or
      (checkMem s.cfg (stackSegment m.form) .load ea vl.bytes (s.evexElems vl es mask.aaa))) s
    ((s.setVec dst (lowBits vl.bits r)).advance len)

/-- `MemWriteMasked(EA, ES, KL, sel, v[s][VL-1:0])` (R167, R187 and their wider forms). -/
def evexStore (es : ElemSize) (vl : VecLen) (m : MemOperand) (aaa : OpmaskSel) (src : VReg32) (len : Nat) (s : State) :
    Host.Outcome State Fault Refusal :=
  let ea := s.effAddr m vl.bytes len
  attempt ((gateEvex vl s.cfg).or
      (checkMem s.cfg (stackSegment m.form) .store ea vl.bytes (s.evexElems vl es aaa))) s
    (State.advance { s with mem := memWriteMasked s.mem ea es (s.selected aaa) (s.vec src) (elemCount vl es) } len)

end Sys2Proof.Machine
end

