-- ==== Sys2Proof/Machine/Movdqa.lean ====
section
/-! DEFINITION. `MOVDQA`, the legacy SSE encodings (spec/40_movdqa_sse.md R140 to R143). -/

namespace Sys2Proof.Machine

/-- R140 `MOVDQA xmm1, xmm2`. -/
def execMovdqaXmmCopyRm (dst : VReg16) (src : VReg16) (len : Nat) (s : State) :
    Host.Outcome State Fault Refusal :=
  legacyCopy dst src len s

/-- R141 `MOVDQA xmm1, m128`. -/
def execMovdqaXmmLoad (dst : VReg16) (m : MemOperand) (len : Nat) (s : State) :
    Host.Outcome State Fault Refusal :=
  legacyLoad dst m len s

/-- R142 `MOVDQA xmm2, xmm1`. -/
def execMovdqaXmmCopyMr (dst : VReg16) (src : VReg16) (len : Nat) (s : State) :
    Host.Outcome State Fault Refusal :=
  legacyCopy dst src len s

/-- R143 `MOVDQA m128, xmm1`. -/
def execMovdqaXmmStore (m : MemOperand) (src : VReg16) (len : Nat) (s : State) :
    Host.Outcome State Fault Refusal :=
  legacyStore m src len s

end Sys2Proof.Machine
end

