-- ==== Sys2Proof/Machine/Vmovdqa.lean ====
section
/-! DEFINITION. `VMOVDQA`, the VEX.128 and VEX.256 encodings (spec/41_vmovdqa_vex.md R150 to R157). -/

namespace Sys2Proof.Machine

/-- R150 `VMOVDQA xmm1, xmm2`. -/
def execVmovdqaXmmCopyRm (dst : VReg16) (src : VReg16) (len : Nat) (s : State) :
    Host.Outcome State Fault Refusal :=
  vexCopy .l128 dst src len s

/-- R151 `VMOVDQA xmm1, m128`. -/
def execVmovdqaXmmLoad (dst : VReg16) (m : MemOperand) (len : Nat) (s : State) :
    Host.Outcome State Fault Refusal :=
  vexLoad .l128 dst m len s

/-- R152 `VMOVDQA xmm2, xmm1`. -/
def execVmovdqaXmmCopyMr (dst : VReg16) (src : VReg16) (len : Nat) (s : State) :
    Host.Outcome State Fault Refusal :=
  vexCopy .l128 dst src len s

/-- R153 `VMOVDQA m128, xmm1`. -/
def execVmovdqaXmmStore (m : MemOperand) (src : VReg16) (len : Nat) (s : State) :
    Host.Outcome State Fault Refusal :=
  vexStore .l128 m src len s

/-- R154 `VMOVDQA ymm1, ymm2`. -/
def execVmovdqaYmmCopyRm (dst : VReg16) (src : VReg16) (len : Nat) (s : State) :
    Host.Outcome State Fault Refusal :=
  vexCopy .l256 dst src len s

/-- R155 `VMOVDQA ymm1, m256`. -/
def execVmovdqaYmmLoad (dst : VReg16) (m : MemOperand) (len : Nat) (s : State) :
    Host.Outcome State Fault Refusal :=
  vexLoad .l256 dst m len s

/-- R156 `VMOVDQA ymm2, ymm1`. -/
def execVmovdqaYmmCopyMr (dst : VReg16) (src : VReg16) (len : Nat) (s : State) :
    Host.Outcome State Fault Refusal :=
  vexCopy .l256 dst src len s

/-- R157 `VMOVDQA m256, ymm1`. -/
def execVmovdqaYmmStore (m : MemOperand) (src : VReg16) (len : Nat) (s : State) :
    Host.Outcome State Fault Refusal :=
  vexStore .l256 m src len s

end Sys2Proof.Machine
end

