-- ==== Sys2Proof/Machine/Vmovdqa32.lean ====
section
/-! DEFINITION. `VMOVDQA32`, the EVEX encodings with doubleword elements (spec/42_vmovdqa32_evex.md R160 to R171). -/

namespace Sys2Proof.Machine

/-- R160 `VMOVDQA32 xmm1 {k1}{z}, xmm2`. -/
def execVmovdqa32XmmCopyRm (dst : VReg32) (src : VReg32) (mask : Masking) (len : Nat) (s : State) :
    Host.Outcome State Fault Refusal :=
  evexCopy .dword .l128 dst src mask len s

/-- R161 `VMOVDQA32 xmm1 {k1}{z}, m128`. -/
def execVmovdqa32XmmLoad (dst : VReg32) (mask : Masking) (m : MemOperand) (len : Nat) (s : State) :
    Host.Outcome State Fault Refusal :=
  evexLoad .dword .l128 dst mask m len s

/-- R162 `VMOVDQA32 ymm1 {k1}{z}, ymm2`. -/
def execVmovdqa32YmmCopyRm (dst : VReg32) (src : VReg32) (mask : Masking) (len : Nat) (s : State) :
    Host.Outcome State Fault Refusal :=
  evexCopy .dword .l256 dst src mask len s

/-- R163 `VMOVDQA32 ymm1 {k1}{z}, m256`. -/
def execVmovdqa32YmmLoad (dst : VReg32) (mask : Masking) (m : MemOperand) (len : Nat) (s : State) :
    Host.Outcome State Fault Refusal :=
  evexLoad .dword .l256 dst mask m len s

/-- R164 `VMOVDQA32 zmm1 {k1}{z}, zmm2`. -/
def execVmovdqa32ZmmCopyRm (dst : VReg32) (src : VReg32) (mask : Masking) (len : Nat) (s : State) :
    Host.Outcome State Fault Refusal :=
  evexCopy .dword .l512 dst src mask len s

/-- R165 `VMOVDQA32 zmm1 {k1}{z}, m512`. -/
def execVmovdqa32ZmmLoad (dst : VReg32) (mask : Masking) (m : MemOperand) (len : Nat) (s : State) :
    Host.Outcome State Fault Refusal :=
  evexLoad .dword .l512 dst mask m len s

/-- R166 `VMOVDQA32 xmm2 {k1}{z}, xmm1`. -/
def execVmovdqa32XmmCopyMr (dst : VReg32) (src : VReg32) (mask : Masking) (len : Nat) (s : State) :
    Host.Outcome State Fault Refusal :=
  evexCopy .dword .l128 dst src mask len s

/-- R167 `VMOVDQA32 m128 {k1}, xmm1`. -/
def execVmovdqa32XmmStore (m : MemOperand) (aaa : OpmaskSel) (src : VReg32) (len : Nat) (s : State) :
    Host.Outcome State Fault Refusal :=
  evexStore .dword .l128 m aaa src len s

/-- R168 `VMOVDQA32 ymm2 {k1}{z}, ymm1`. -/
def execVmovdqa32YmmCopyMr (dst : VReg32) (src : VReg32) (mask : Masking) (len : Nat) (s : State) :
    Host.Outcome State Fault Refusal :=
  evexCopy .dword .l256 dst src mask len s

/-- R169 `VMOVDQA32 m256 {k1}, ymm1`. -/
def execVmovdqa32YmmStore (m : MemOperand) (aaa : OpmaskSel) (src : VReg32) (len : Nat) (s : State) :
    Host.Outcome State Fault Refusal :=
  evexStore .dword .l256 m aaa src len s

/-- R170 `VMOVDQA32 zmm2 {k1}{z}, zmm1`. -/
def execVmovdqa32ZmmCopyMr (dst : VReg32) (src : VReg32) (mask : Masking) (len : Nat) (s : State) :
    Host.Outcome State Fault Refusal :=
  evexCopy .dword .l512 dst src mask len s

/-- R171 `VMOVDQA32 m512 {k1}, zmm1`. -/
def execVmovdqa32ZmmStore (m : MemOperand) (aaa : OpmaskSel) (src : VReg32) (len : Nat) (s : State) :
    Host.Outcome State Fault Refusal :=
  evexStore .dword .l512 m aaa src len s

end Sys2Proof.Machine
end

