-- ==== Sys2Proof/Machine/Vmovdqa64.lean ====
section
/-! DEFINITION. `VMOVDQA64`, the EVEX encodings with quadword elements (spec/43_vmovdqa64_evex.md R180 to R191). -/

namespace Sys2Proof.Machine

/-- R180 `VMOVDQA64 xmm1 {k1}{z}, xmm2`. -/
def execVmovdqa64XmmCopyRm (dst : VReg32) (src : VReg32) (mask : Masking) (len : Nat) (s : State) :
    Host.Outcome State Fault Refusal :=
  evexCopy .qword .l128 dst src mask len s

/-- R181 `VMOVDQA64 xmm1 {k1}{z}, m128`. -/
def execVmovdqa64XmmLoad (dst : VReg32) (mask : Masking) (m : MemOperand) (len : Nat) (s : State) :
    Host.Outcome State Fault Refusal :=
  evexLoad .qword .l128 dst mask m len s

/-- R182 `VMOVDQA64 ymm1 {k1}{z}, ymm2`. -/
def execVmovdqa64YmmCopyRm (dst : VReg32) (src : VReg32) (mask : Masking) (len : Nat) (s : State) :
    Host.Outcome State Fault Refusal :=
  evexCopy .qword .l256 dst src mask len s

/-- R183 `VMOVDQA64 ymm1 {k1}{z}, m256`. -/
def execVmovdqa64YmmLoad (dst : VReg32) (mask : Masking) (m : MemOperand) (len : Nat) (s : State) :
    Host.Outcome State Fault Refusal :=
  evexLoad .qword .l256 dst mask m len s

/-- R184 `VMOVDQA64 zmm1 {k1}{z}, zmm2`. -/
def execVmovdqa64ZmmCopyRm (dst : VReg32) (src : VReg32) (mask : Masking) (len : Nat) (s : State) :
    Host.Outcome State Fault Refusal :=
  evexCopy .qword .l512 dst src mask len s

/-- R185 `VMOVDQA64 zmm1 {k1}{z}, m512`. -/
def execVmovdqa64ZmmLoad (dst : VReg32) (mask : Masking) (m : MemOperand) (len : Nat) (s : State) :
    Host.Outcome State Fault Refusal :=
  evexLoad .qword .l512 dst mask m len s

/-- R186 `VMOVDQA64 xmm2 {k1}{z}, xmm1`. -/
def execVmovdqa64XmmCopyMr (dst : VReg32) (src : VReg32) (mask : Masking) (len : Nat) (s : State) :
    Host.Outcome State Fault Refusal :=
  evexCopy .qword .l128 dst src mask len s

/-- R187 `VMOVDQA64 m128 {k1}, xmm1`. -/
def execVmovdqa64XmmStore (m : MemOperand) (aaa : OpmaskSel) (src : VReg32) (len : Nat) (s : State) :
    Host.Outcome State Fault Refusal :=
  evexStore .qword .l128 m aaa src len s

/-- R188 `VMOVDQA64 ymm2 {k1}{z}, ymm1`. -/
def execVmovdqa64YmmCopyMr (dst : VReg32) (src : VReg32) (mask : Masking) (len : Nat) (s : State) :
    Host.Outcome State Fault Refusal :=
  evexCopy .qword .l256 dst src mask len s

/-- R189 `VMOVDQA64 m256 {k1}, ymm1`. -/
def execVmovdqa64YmmStore (m : MemOperand) (aaa : OpmaskSel) (src : VReg32) (len : Nat) (s : State) :
    Host.Outcome State Fault Refusal :=
  evexStore .qword .l256 m aaa src len s

/-- R190 `VMOVDQA64 zmm2 {k1}{z}, zmm1`. -/
def execVmovdqa64ZmmCopyMr (dst : VReg32) (src : VReg32) (mask : Masking) (len : Nat) (s : State) :
    Host.Outcome State Fault Refusal :=
  evexCopy .qword .l512 dst src mask len s

/-- R191 `VMOVDQA64 m512 {k1}, zmm1`. -/
def execVmovdqa64ZmmStore (m : MemOperand) (aaa : OpmaskSel) (src : VReg32) (len : Nat) (s : State) :
    Host.Outcome State Fault Refusal :=
  evexStore .qword .l512 m aaa src len s

end Sys2Proof.Machine
end

