-- ==== Sys2Proof/Machine/Dispatch.lean ====
section
/-! DEFINITION. Which meaning each instruction has: one arm per constructor of `Instr` (spec/30_encoding.md R110). -/

namespace Sys2Proof.Machine

def exec (i : Instr) (s : State) : Host.Outcome State Fault Refusal :=
  match i with
  | .movdqaXmmCopyRm dst src len => Sys2Proof.Machine.execMovdqaXmmCopyRm dst src len s
  | .movdqaXmmLoad dst m len => Sys2Proof.Machine.execMovdqaXmmLoad dst m len s
  | .movdqaXmmCopyMr dst src len => Sys2Proof.Machine.execMovdqaXmmCopyMr dst src len s
  | .movdqaXmmStore m src len => Sys2Proof.Machine.execMovdqaXmmStore m src len s
  | .vmovdqaXmmCopyRm dst src len => Sys2Proof.Machine.execVmovdqaXmmCopyRm dst src len s
  | .vmovdqaXmmLoad dst m len => Sys2Proof.Machine.execVmovdqaXmmLoad dst m len s
  | .vmovdqaXmmCopyMr dst src len => Sys2Proof.Machine.execVmovdqaXmmCopyMr dst src len s
  | .vmovdqaXmmStore m src len => Sys2Proof.Machine.execVmovdqaXmmStore m src len s
  | .vmovdqaYmmCopyRm dst src len => Sys2Proof.Machine.execVmovdqaYmmCopyRm dst src len s
  | .vmovdqaYmmLoad dst m len => Sys2Proof.Machine.execVmovdqaYmmLoad dst m len s
  | .vmovdqaYmmCopyMr dst src len => Sys2Proof.Machine.execVmovdqaYmmCopyMr dst src len s
  | .vmovdqaYmmStore m src len => Sys2Proof.Machine.execVmovdqaYmmStore m src len s
  | .vmovdqa32XmmCopyRm dst src mask len => Sys2Proof.Machine.execVmovdqa32XmmCopyRm dst src mask len s
  | .vmovdqa32XmmLoad dst mask m len => Sys2Proof.Machine.execVmovdqa32XmmLoad dst mask m len s
  | .vmovdqa32YmmCopyRm dst src mask len => Sys2Proof.Machine.execVmovdqa32YmmCopyRm dst src mask len s
  | .vmovdqa32YmmLoad dst mask m len => Sys2Proof.Machine.execVmovdqa32YmmLoad dst mask m len s
  | .vmovdqa32ZmmCopyRm dst src mask len => Sys2Proof.Machine.execVmovdqa32ZmmCopyRm dst src mask len s
  | .vmovdqa32ZmmLoad dst mask m len => Sys2Proof.Machine.execVmovdqa32ZmmLoad dst mask m len s
  | .vmovdqa32XmmCopyMr dst src mask len => Sys2Proof.Machine.execVmovdqa32XmmCopyMr dst src mask len s
  | .vmovdqa32XmmStore m aaa src len => Sys2Proof.Machine.execVmovdqa32XmmStore m aaa src len s
  | .vmovdqa32YmmCopyMr dst src mask len => Sys2Proof.Machine.execVmovdqa32YmmCopyMr dst src mask len s
  | .vmovdqa32YmmStore m aaa src len => Sys2Proof.Machine.execVmovdqa32YmmStore m aaa src len s
  | .vmovdqa32ZmmCopyMr dst src mask len => Sys2Proof.Machine.execVmovdqa32ZmmCopyMr dst src mask len s
  | .vmovdqa32ZmmStore m aaa src len => Sys2Proof.Machine.execVmovdqa32ZmmStore m aaa src len s
  | .vmovdqa64XmmCopyRm dst src mask len => Sys2Proof.Machine.execVmovdqa64XmmCopyRm dst src mask len s
  | .vmovdqa64XmmLoad dst mask m len => Sys2Proof.Machine.execVmovdqa64XmmLoad dst mask m len s
  | .vmovdqa64YmmCopyRm dst src mask len => Sys2Proof.Machine.execVmovdqa64YmmCopyRm dst src mask len s
  | .vmovdqa64YmmLoad dst mask m len => Sys2Proof.Machine.execVmovdqa64YmmLoad dst mask m len s
  | .vmovdqa64ZmmCopyRm dst src mask len => Sys2Proof.Machine.execVmovdqa64ZmmCopyRm dst src mask len s
  | .vmovdqa64ZmmLoad dst mask m len => Sys2Proof.Machine.execVmovdqa64ZmmLoad dst mask m len s
  | .vmovdqa64XmmCopyMr dst src mask len => Sys2Proof.Machine.execVmovdqa64XmmCopyMr dst src mask len s
  | .vmovdqa64XmmStore m aaa src len => Sys2Proof.Machine.execVmovdqa64XmmStore m aaa src len s
  | .vmovdqa64YmmCopyMr dst src mask len => Sys2Proof.Machine.execVmovdqa64YmmCopyMr dst src mask len s
  | .vmovdqa64YmmStore m aaa src len => Sys2Proof.Machine.execVmovdqa64YmmStore m aaa src len s
  | .vmovdqa64ZmmCopyMr dst src mask len => Sys2Proof.Machine.execVmovdqa64ZmmCopyMr dst src mask len s
  | .vmovdqa64ZmmStore m aaa src len => Sys2Proof.Machine.execVmovdqa64ZmmStore m aaa src len s

end Sys2Proof.Machine
end

