-- ==== Sys2Proof/WellFormed.lean ====
section
/-! DEFINITION. Which terms of `Instr` stand for an instruction of the spec: the conditions that the encodings of
spec/30_encoding.md put on operands and on the length (R90, R93 to R101, R104, R115). -/

namespace Sys2Proof

/-- The low three bits of a register number: the part that a ModRM or SIB field holds (R98, R99). -/
def low3 {w : Nat} (r : BitVec w) : BitVec 3 := r.extractLsb' 0 3

/-- The number of displacement bytes (R99). -/
def Disp.size : Disp → Nat
  | .none => 0
  | .disp8 _ => 1
  | .disp32 _ => 4

/-- The base registers each address form can name (R99): without a SIB byte `rm = 100b` is not a base; with `mod = 00b` the
low bits `101b` mean "no base" (SIB) or RIP-relative (no SIB). -/
def AddrForm.wf : AddrForm → Bool
  | .base b d => low3 b != 4#3 && (d != .none || low3 b != 5#3)
  | .sib b _ _ d => d != .none || low3 b != 5#3
  | .sibNoBase _ _ _ => true
  | .ripRel _ => true

/-- The bytes of ModRM, SIB and displacement (R115). -/
def AddrForm.tailSize : AddrForm → Nat
  | .base _ d => 1 + d.size
  | .sib _ _ _ d => 2 + d.size
  | .sibNoBase _ _ _ => 6
  | .ripRel _ => 5

/-- The extension bit `X` an address form needs: bit 3 of the index number (R94 to R97). -/
def AddrForm.xBit : AddrForm → Bool
  | .base _ _ => false
  | .sib _ i _ _ => i.getLsbD 3
  | .sibNoBase i _ _ => i.getLsbD 3
  | .ripRel _ => false

/-- The extension bit `B` an address form needs: bit 3 of the base number (R94 to R97). -/
def AddrForm.bBit : AddrForm → Bool
  | .base b _ => b.getLsbD 3
  | .sib b _ _ _ => b.getLsbD 3
  | .sibNoBase _ _ _ => false
  | .ripRel _ => false

/-- The length of a legacy SSE register form: `66`, a REX byte when a register number needs one, `0F`, opcode, ModRM, and
any number of further `66` bytes up to 15 bytes in all (R93, R94, R115). -/
def legacyCopyLenOk (dst src : VReg16) (len : Nat) : Bool :=
  decide (4 + (dst.getLsbD 3 || src.getLsbD 3).toNat ≤ len ∧ len ≤ 15)

/-- The same for a memory form, with a `67` byte when the address is 32 bits wide (R100). -/
def legacyMemLenOk (r : VReg16) (m : MemOperand) (len : Nat) : Bool :=
  decide (3 + m.addr32.toNat + (r.getLsbD 3 || m.form.xBit || m.form.bBit).toNat + m.form.tailSize ≤ len ∧ len ≤ 15)

/-- The length of a VEX register form: a 2-byte prefix, or a 3-byte prefix when `ModRM:r/m` needs `B`; `67` bytes may stand
before it (R95, R96, R108). `rm` is the operand in `ModRM:r/m`. -/
def vexCopyLenOk (rm : VReg16) (len : Nat) : Bool :=
  decide (4 + (rm.getLsbD 3).toNat ≤ len ∧ len ≤ 15)

/-- The length of a VEX memory form: with 64-bit addressing no byte is redundant, so only the choice between the 2-byte and
the 3-byte prefix is left; a 32-bit address has one or more `67` bytes. -/
def vexMemLenOk (m : MemOperand) (len : Nat) : Bool :=
  let need3 := m.form.xBit || m.form.bBit
  if m.addr32 then decide (4 + need3.toNat + m.form.tailSize ≤ len ∧ len ≤ 15)
  else len == 4 + m.form.tailSize || (!need3 && len == 3 + m.form.tailSize)

/-- The length of an EVEX register form, after any number of `67` bytes (R97, R108). -/
def evexCopyLenOk (len : Nat) : Bool := decide (6 ≤ len ∧ len ≤ 15)

/-- The length of an EVEX memory form. -/
def evexMemLenOk (m : MemOperand) (len : Nat) : Bool :=
  if m.addr32 then decide (6 + m.form.tailSize ≤ len ∧ len ≤ 15)
  else len == 5 + m.form.tailSize

/-- Zeroing needs a writemask (R104). -/
def Masking.wf (k : Masking) : Bool := !k.z || k.aaa != 0#3

/-- The instruction is one that some bytes encode. -/
def Instr.wf : Instr → Bool
  | .movdqaXmmCopyRm dst src len => legacyCopyLenOk dst src len
  | .movdqaXmmLoad dst m len => m.form.wf && legacyMemLenOk dst m len
  | .movdqaXmmCopyMr dst src len => legacyCopyLenOk dst src len
  | .movdqaXmmStore m src len => m.form.wf && legacyMemLenOk src m len
  | .vmovdqaXmmCopyRm _ src len => vexCopyLenOk src len
  | .vmovdqaXmmLoad _ m len => m.form.wf && vexMemLenOk m len
  | .vmovdqaXmmCopyMr dst _ len => vexCopyLenOk dst len
  | .vmovdqaXmmStore m _ len => m.form.wf && vexMemLenOk m len
  | .vmovdqaYmmCopyRm _ src len => vexCopyLenOk src len
  | .vmovdqaYmmLoad _ m len => m.form.wf && vexMemLenOk m len
  | .vmovdqaYmmCopyMr dst _ len => vexCopyLenOk dst len
  | .vmovdqaYmmStore m _ len => m.form.wf && vexMemLenOk m len
  | .vmovdqa32XmmCopyRm _ _ mask len => mask.wf && evexCopyLenOk len
  | .vmovdqa32XmmLoad _ mask m len => mask.wf && m.form.wf && evexMemLenOk m len
  | .vmovdqa32YmmCopyRm _ _ mask len => mask.wf && evexCopyLenOk len
  | .vmovdqa32YmmLoad _ mask m len => mask.wf && m.form.wf && evexMemLenOk m len
  | .vmovdqa32ZmmCopyRm _ _ mask len => mask.wf && evexCopyLenOk len
  | .vmovdqa32ZmmLoad _ mask m len => mask.wf && m.form.wf && evexMemLenOk m len
  | .vmovdqa32XmmCopyMr _ _ mask len => mask.wf && evexCopyLenOk len
  | .vmovdqa32XmmStore m _ _ len => m.form.wf && evexMemLenOk m len
  | .vmovdqa32YmmCopyMr _ _ mask len => mask.wf && evexCopyLenOk len
  | .vmovdqa32YmmStore m _ _ len => m.form.wf && evexMemLenOk m len
  | .vmovdqa32ZmmCopyMr _ _ mask len => mask.wf && evexCopyLenOk len
  | .vmovdqa32ZmmStore m _ _ len => m.form.wf && evexMemLenOk m len
  | .vmovdqa64XmmCopyRm _ _ mask len => mask.wf && evexCopyLenOk len
  | .vmovdqa64XmmLoad _ mask m len => mask.wf && m.form.wf && evexMemLenOk m len
  | .vmovdqa64YmmCopyRm _ _ mask len => mask.wf && evexCopyLenOk len
  | .vmovdqa64YmmLoad _ mask m len => mask.wf && m.form.wf && evexMemLenOk m len
  | .vmovdqa64ZmmCopyRm _ _ mask len => mask.wf && evexCopyLenOk len
  | .vmovdqa64ZmmLoad _ mask m len => mask.wf && m.form.wf && evexMemLenOk m len
  | .vmovdqa64XmmCopyMr _ _ mask len => mask.wf && evexCopyLenOk len
  | .vmovdqa64XmmStore m _ _ len => m.form.wf && evexMemLenOk m len
  | .vmovdqa64YmmCopyMr _ _ mask len => mask.wf && evexCopyLenOk len
  | .vmovdqa64YmmStore m _ _ len => m.form.wf && evexMemLenOk m len
  | .vmovdqa64ZmmCopyMr _ _ mask len => mask.wf && evexCopyLenOk len
  | .vmovdqa64ZmmStore m _ _ len => m.form.wf && evexMemLenOk m len

/-- The length of an instruction in bytes (R115). -/
def Instr.len : Instr → Nat
  | .movdqaXmmCopyRm _ _ len => len
  | .movdqaXmmLoad _ _ len => len
  | .movdqaXmmCopyMr _ _ len => len
  | .movdqaXmmStore _ _ len => len
  | .vmovdqaXmmCopyRm _ _ len => len
  | .vmovdqaXmmLoad _ _ len => len
  | .vmovdqaXmmCopyMr _ _ len => len
  | .vmovdqaXmmStore _ _ len => len
  | .vmovdqaYmmCopyRm _ _ len => len
  | .vmovdqaYmmLoad _ _ len => len
  | .vmovdqaYmmCopyMr _ _ len => len
  | .vmovdqaYmmStore _ _ len => len
  | .vmovdqa32XmmCopyRm _ _ _ len => len
  | .vmovdqa32XmmLoad _ _ _ len => len
  | .vmovdqa32YmmCopyRm _ _ _ len => len
  | .vmovdqa32YmmLoad _ _ _ len => len
  | .vmovdqa32ZmmCopyRm _ _ _ len => len
  | .vmovdqa32ZmmLoad _ _ _ len => len
  | .vmovdqa32XmmCopyMr _ _ _ len => len
  | .vmovdqa32XmmStore _ _ _ len => len
  | .vmovdqa32YmmCopyMr _ _ _ len => len
  | .vmovdqa32YmmStore _ _ _ len => len
  | .vmovdqa32ZmmCopyMr _ _ _ len => len
  | .vmovdqa32ZmmStore _ _ _ len => len
  | .vmovdqa64XmmCopyRm _ _ _ len => len
  | .vmovdqa64XmmLoad _ _ _ len => len
  | .vmovdqa64YmmCopyRm _ _ _ len => len
  | .vmovdqa64YmmLoad _ _ _ len => len
  | .vmovdqa64ZmmCopyRm _ _ _ len => len
  | .vmovdqa64ZmmLoad _ _ _ len => len
  | .vmovdqa64XmmCopyMr _ _ _ len => len
  | .vmovdqa64XmmStore _ _ _ len => len
  | .vmovdqa64YmmCopyMr _ _ _ len => len
  | .vmovdqa64YmmStore _ _ _ len => len
  | .vmovdqa64ZmmCopyMr _ _ _ len => len
  | .vmovdqa64ZmmStore _ _ _ len => len

end Sys2Proof
end

