-- ==== Sys2Proof/Decode.lean ====
section
/-! DEFINITION. The decoder, total on any bytes (spec/30_encoding.md R109, with R93 to R101, R103, R104, R108, R115), and
after it the encoder, written from the same layouts. The decoder reads its bytes strictly in address order and only as far as
R109 needs them. -/

namespace Sys2Proof

/-- What `Decode` answers when it does not answer an instruction (R109). -/
inductive Reject where
  /-- the bytes given end before the procedure has read all it needs; the fetch decides what that means (R211 step 1, R242) -/
  | truncated
  /-- longer than 15 bytes: `#GP(0)` (R115) -/
  | gp
  /-- one of the eighteen encodings with an illegal field: `#UD` (R103, R104, R108) -/
  | ud
  /-- not one of the eighteen encodings -/
  | notInScope (r : ScopeReason)
deriving DecidableEq, Repr

/-! ## Prefix bytes (R93, R109 steps 1 and 2) -/

/-- The set `seen` of R109 step 1. -/
structure Prefixes where
  /-- `66` -/
  opsize : Bool
  /-- `67` -/
  addrsize : Bool
  /-- `F0` -/
  lock : Bool
  /-- `F2` -/
  repne : Bool
  /-- `F3` -/
  rep : Bool
  /-- one of `2E`, `36`, `3E`, `26`, `64`, `65` -/
  segment : Bool
deriving DecidableEq, Repr

/-- No byte seen. -/
def Prefixes.empty : Prefixes := ⟨false, false, false, false, false, false⟩

/-- The six segment-override bytes (R93). -/
def isSegmentByte (b : Byte) : Bool :=
  b == 0x2E#8 || b == 0x36#8 || b == 0x3E#8 || b == 0x26#8 || b == 0x64#8 || b == 0x65#8

/-- Add a byte to the set, or `none` when the byte is no legacy prefix (R93). -/
def Prefixes.add (p : Prefixes) (b : Byte) : Option Prefixes :=
  if b = 0x66#8 then some { p with opsize := true }
  else if b = 0x67#8 then some { p with addrsize := true }
  else if b = 0xF0#8 then some { p with lock := true }
  else if b = 0xF2#8 then some { p with repne := true }
  else if b = 0xF3#8 then some { p with rep := true }
  else if isSegmentByte b then some { p with segment := true }
  else none

/-- A byte `66`, `F2`, `F3` or `F0` was seen: illegal before a VEX or EVEX prefix (R108). -/
def Prefixes.illegalBeforeVex (p : Prefixes) : Bool := p.opsize || p.repne || p.rep || p.lock

/-- R109 step 1: the legacy prefix bytes, how many there are, and the bytes after them; `gp` once fifteen were read. -/
def scanPrefixes : List Byte → Nat → Prefixes → Except Reject (Prefixes × Nat × List Byte)
  | [], i, _ => if i = 15 then .error .gp else .error .truncated
  | b :: bs, i, p =>
    if i = 15 then .error .gp
    else match p.add b with
      | some p' => scanPrefixes bs (i + 1) p'
      | none => .ok (p, i, b :: bs)

/-- R109 step 2: a REX byte (`40` to `4F`), if the next byte is one. -/
def takeRex : List Byte → Except Reject (Option Byte × List Byte)
  | [] => .error .truncated
  | b :: bs => if b.extractLsb' 4 4 = 4#4 then .ok (some b, bs) else .ok (none, b :: bs)

/-- Bit `i` of the REX byte; all four bits are 0 with no REX byte (R94). -/
def rexBit (rex : Option Byte) (i : Nat) : Bool :=
  match rex with
  | some b => b.getLsbD i
  | none => false

/-! ## The three families (R93 to R97, R109 step 4) -/

/-- What identifies the instruction apart from opcode and ModRM (the key of R110), with the masking fields of EVEX. -/
inductive HeadKind where
  | legacy
  /-- `VL` is 128 or 256 by the bit `L` -/
  | vex (l256 : Bool)
  /-- element size by `W`, `VL` by `L'L`, and the masking fields -/
  | evex (es : ElemSize) (vl : VecLen) (mask : Masking)
deriving DecidableEq, Repr

/-- What the bytes up to and with the opcode say. -/
structure Head where
  kind : HeadKind
  /-- the opcode is `7F`: the destination is `ModRM:r/m` (R92) -/
  op7F : Bool
  /-- the true value of `R'` (EVEX), else 0 -/
  rHi : Bool
  r : Bool
  x : Bool
  b : Bool
  /-- the flag `bad` of R109 -/
  bad : Bool
deriving DecidableEq, Repr

/-- The opcode byte is `6F` or `7F`. -/
def isMoveOpcode (op : Byte) : Bool := op == 0x6F#8 || op == 0x7F#8

/-- Legacy SSE after the byte `0F` (R93, R94). -/
def legacyHead (p : Prefixes) (rex : Option Byte) : List Byte → Except Reject (Head × Nat × List Byte)
  | op :: bs =>
    if !isMoveOpcode op then .error (.notInScope .opcode)
    else if p.repne || p.rep || !p.opsize then .error (.notInScope .otherMandatoryPrefix)
    else .ok (⟨.legacy, op == 0x7F#8, false, rexBit rex 2, rexBit rex 1, rexBit rex 0, p.lock⟩, 2, bs)
  | _ => .error .truncated

/-- The part that the two VEX prefixes share: `pay` is the byte that holds `W` or `~R`, `vvvv`, `L` and `pp` (R95, R96). -/
def vexHead (p : Prefixes) (rex : Option Byte) (r x b : Bool) (map : BitVec 5) (pay op : Byte) : Except Reject Head :=
  if map != 0b00001#5 || pay.extractLsb' 0 2 != 0b01#2 || !isMoveOpcode op then .error (.notInScope .opcode)
  else .ok ⟨.vex (pay.getLsbD 2), op == 0x7F#8, false, r, x, b,
    rex.isSome || p.illegalBeforeVex || pay.extractLsb' 3 4 != 0b1111#4⟩

/-- The 2-byte VEX prefix after the byte `C5` (R95). -/
def vex2Head (p : Prefixes) (rex : Option Byte) : List Byte → Except Reject (Head × Nat × List Byte)
  | pay :: op :: bs => do
    let h ← vexHead p rex (!pay.getLsbD 7) false false 0b00001#5 pay op
    .ok (h, 3, bs)
  | _ => .error .truncated

/-- The 3-byte VEX prefix after the byte `C4` (R96). -/
def vex3Head (p : Prefixes) (rex : Option Byte) : List Byte → Except Reject (Head × Nat × List Byte)
  | b1 :: pay :: op :: bs => do
    let h ← vexHead p rex (!b1.getLsbD 7) (!b1.getLsbD 6) (!b1.getLsbD 5) (b1.extractLsb' 0 5) pay op
    .ok (h, 4, bs)
  | _ => .error .truncated

/-- The vector length that `L'L` names; the reserved value `11b` is `bad` and its length is never used (R104, R106). -/
def evexVecLen (ll : BitVec 2) : VecLen :=
  if ll = 0b00#2 then .l128 else if ll = 0b01#2 then .l256 else .l512

/-- The reserved values of the three payload bytes that make an EVEX encoding illegal whatever its operands (R103, R104). -/
def evexReserved (p0 p1 p2 : Byte) : Bool :=
  p0.extractLsb' 2 2 != 0b00#2 || !p1.getLsbD 2 || p1.extractLsb' 3 4 != 0b1111#4 || !p2.getLsbD 3
    || p2.extractLsb' 5 2 == 0b11#2 || p2.getLsbD 4 || (p2.getLsbD 7 && p2.extractLsb' 0 3 == 0b000#3)

/-- The EVEX prefix after the byte `62` (R97). -/
def evexHead (p : Prefixes) (rex : Option Byte) : List Byte → Except Reject (Head × Nat × List Byte)
  | p0 :: p1 :: p2 :: op :: bs =>
    if p0.extractLsb' 0 2 != 0b01#2 || p1.extractLsb' 0 2 != 0b01#2 || !isMoveOpcode op then .error (.notInScope .opcode)
    else
      .ok (⟨.evex (if p1.getLsbD 7 then .qword else .dword) (evexVecLen (p2.extractLsb' 5 2))
              ⟨p2.extractLsb' 0 3, p2.getLsbD 7⟩,
            op == 0x7F#8, !p0.getLsbD 4, !p0.getLsbD 7, !p0.getLsbD 6, !p0.getLsbD 5,
            rex.isSome || p.illegalBeforeVex || evexReserved p0 p1 p2⟩, 5, bs)
  | _ => .error .truncated

/-- R109 step 4: which family the next byte begins, its fields, and how many bytes they take. -/
def decodeHead (p : Prefixes) (rex : Option Byte) : List Byte → Except Reject (Head × Nat × List Byte)
  | b :: bs =>
    if b = 0x0F#8 then legacyHead p rex bs
    else if b = 0xC5#8 then vex2Head p rex bs
    else if b = 0xC4#8 then vex3Head p rex bs
    else if b = 0x62#8 then evexHead p rex bs
    else .error (.notInScope .opcode)
  | [] => .error .truncated

/-! ## ModRM, SIB and displacement (R98, R99, R109 step 5) -/

/-- A `disp8`. -/
def takeDisp8 : List Byte → Except Reject (BitVec 8)
  | b :: _ => .ok b
  | _ => .error .truncated

/-- A `disp32`, least significant byte first (R61, R99). -/
def takeDisp32 : List Byte → Except Reject (BitVec 32)
  | b0 :: b1 :: b2 :: b3 :: _ => .ok (b3 ++ b2 ++ b1 ++ b0)
  | _ => .error .truncated

/-- The displacement that `mod` asks for, in a form that has a base register (R99). -/
def takeDisp (mod : BitVec 2) (bs : List Byte) : Except Reject Disp :=
  if mod = 0b00#2 then .ok .none
  else if mod = 0b01#2 then do
    let d ← takeDisp8 bs
    .ok (.disp8 d)
  else do
    let d ← takeDisp32 bs
    .ok (.disp32 d)

/-- The operand in `ModRM:r/m`. -/
inductive RmOperand where
  /-- `mod = 11b`: a register -/
  | reg (rm : BitVec 3)
  | mem (a : AddrForm)
deriving DecidableEq, Repr

/-- The bytes an operand in `ModRM:r/m` takes, ModRM among them (R115). -/
def RmOperand.size : RmOperand → Nat
  | .reg _ => 1
  | .mem a => a.tailSize

/-- A 4-bit register number from its extension bit and its field (R98). -/
def num4 (hi : Bool) (lo : BitVec 3) : BitVec 4 := BitVec.ofBool hi ++ lo

/-- A 5-bit register number from its two extension bits and its field (R98). -/
def num5 (hi mid : Bool) (lo : BitVec 3) : BitVec 5 := BitVec.ofBool hi ++ BitVec.ofBool mid ++ lo

/-- The address form of a memory operand whose ModRM has `mod` and `rm`; `x` and `b` are the true extension bits (R99). -/
def decodeAddr (x b : Bool) (mod : BitVec 2) (rm : BitVec 3) (bs : List Byte) : Except Reject AddrForm :=
  if rm = 0b100#3 then
    match bs with
    | sib :: bs' =>
      if sib.extractLsb' 0 3 = 0b101#3 ∧ mod = 0b00#2 then do
        let d ← takeDisp32 bs'
        .ok (.sibNoBase (num4 x (sib.extractLsb' 3 3)) (sib.extractLsb' 6 2) d)
      else do
        let d ← takeDisp mod bs'
        .ok (.sib (num4 b (sib.extractLsb' 0 3)) (num4 x (sib.extractLsb' 3 3)) (sib.extractLsb' 6 2) d)
    | [] => .error .truncated
  else if rm = 0b101#3 ∧ mod = 0b00#2 then do
    let d ← takeDisp32 bs
    .ok (.ripRel d)
  else do
    let d ← takeDisp mod bs
    .ok (.base (num4 b rm) d)

/-- ModRM and what follows it: the field `reg`, and the operand in `r/m`. -/
def decodeModRm (x b : Bool) : List Byte → Except Reject (BitVec 3 × RmOperand)
  | m :: bs =>
    if m.extractLsb' 6 2 = 0b11#2 then .ok (m.extractLsb' 3 3, .reg (m.extractLsb' 0 3))
    else do
      let a ← decodeAddr x b (m.extractLsb' 6 2) (m.extractLsb' 0 3) bs
      .ok (m.extractLsb' 3 3, .mem a)
  | [] => .error .truncated

/-! ## The opcode map (R110) -/

/-- The EVEX row of the opcode map for one element size and vector length. `reg` and `rm` are the register numbers of
`ModRM:reg` and, in a register form, `ModRM:r/m`. -/
def evexInstr (es : ElemSize) (vl : VecLen) (op7F : Bool) (mask : Masking) (reg rm : VReg32) (mem : Option MemOperand)
    (len : Nat) : Instr :=
  match es, vl, op7F, mem with
  | .dword, .l128, false, none => .vmovdqa32XmmCopyRm reg rm mask len
  | .dword, .l128, false, some m => .vmovdqa32XmmLoad reg mask m len
  | .dword, .l128, true, none => .vmovdqa32XmmCopyMr rm reg mask len
  | .dword, .l128, true, some m => .vmovdqa32XmmStore m mask.aaa reg len
  | .dword, .l256, false, none => .vmovdqa32YmmCopyRm reg rm mask len
  | .dword, .l256, false, some m => .vmovdqa32YmmLoad reg mask m len
  | .dword, .l256, true, none => .vmovdqa32YmmCopyMr rm reg mask len
  | .dword, .l256, true, some m => .vmovdqa32YmmStore m mask.aaa reg len
  | .dword, .l512, false, none => .vmovdqa32ZmmCopyRm reg rm mask len
  | .dword, .l512, false, some m => .vmovdqa32ZmmLoad reg mask m len
  | .dword, .l512, true, none => .vmovdqa32ZmmCopyMr rm reg mask len
  | .dword, .l512, true, some m => .vmovdqa32ZmmStore m mask.aaa reg len
  | .qword, .l128, false, none => .vmovdqa64XmmCopyRm reg rm mask len
  | .qword, .l128, false, some m => .vmovdqa64XmmLoad reg mask m len
  | .qword, .l128, true, none => .vmovdqa64XmmCopyMr rm reg mask len
  | .qword, .l128, true, some m => .vmovdqa64XmmStore m mask.aaa reg len
  | .qword, .l256, false, none => .vmovdqa64YmmCopyRm reg rm mask len
  | .qword, .l256, false, some m => .vmovdqa64YmmLoad reg mask m len
  | .qword, .l256, true, none => .vmovdqa64YmmCopyMr rm reg mask len
  | .qword, .l256, true, some m => .vmovdqa64YmmStore m mask.aaa reg len
  | .qword, .l512, false, none => .vmovdqa64ZmmCopyRm reg rm mask len
  | .qword, .l512, false, some m => .vmovdqa64ZmmLoad reg mask m len
  | .qword, .l512, true, none => .vmovdqa64ZmmCopyMr rm reg mask len
  | .qword, .l512, true, some m => .vmovdqa64ZmmStore m mask.aaa reg len

/-- The VEX rows of the opcode map. -/
def vexInstr (l256 op7F : Bool) (reg rm : VReg16) (mem : Option MemOperand) (len : Nat) : Instr :=
  match l256, op7F, mem with
  | false, false, none => .vmovdqaXmmCopyRm reg rm len
  | false, false, some m => .vmovdqaXmmLoad reg m len
  | false, true, none => .vmovdqaXmmCopyMr rm reg len
  | false, true, some m => .vmovdqaXmmStore m reg len
  | true, false, none => .vmovdqaYmmCopyRm reg rm len
  | true, false, some m => .vmovdqaYmmLoad reg m len
  | true, true, none => .vmovdqaYmmCopyMr rm reg len
  | true, true, some m => .vmovdqaYmmStore m reg len

/-- The legacy SSE row of the opcode map. -/
def legacyInstr (op7F : Bool) (reg rm : VReg16) (mem : Option MemOperand) (len : Nat) : Instr :=
  match op7F, mem with
  | false, none => .movdqaXmmCopyRm reg rm len
  | false, some m => .movdqaXmmLoad reg m len
  | true, none => .movdqaXmmCopyMr rm reg len
  | true, some m => .movdqaXmmStore m reg len

/-- R109 step 8 with the register numbers of R98. In a register form the number of `ModRM:r/m` is `B ++ rm` (legacy, VEX) or
`X ++ B ++ rm` (EVEX). -/
def assemble (h : Head) (addr32 : Bool) (reg : BitVec 3) (rm : RmOperand) (len : Nat) : Instr :=
  let mem := match rm with
    | .reg _ => none
    | .mem a => some ⟨addr32, a⟩
  let rmNum := match rm with
    | .reg n => n
    | .mem _ => 0#3
  match h.kind with
  | .legacy => legacyInstr h.op7F (num4 h.r reg) (num4 h.b rmNum) mem len
  | .vex l256 => vexInstr l256 h.op7F (num4 h.r reg) (num4 h.b rmNum) mem len
  | .evex es vl mask => evexInstr es vl h.op7F mask (num5 h.rHi h.r reg) (num5 h.x h.b rmNum) mem len

/-- Zeroing with a memory destination, the part of `bad` that needs ModRM (R104, R109 step 5). -/
def zeroingStore (h : Head) (rm : RmOperand) : Bool :=
  match h.kind, rm with
  | .evex _ _ mask, .mem _ => mask.z && h.op7F
  | _, _ => false

/-- R109 steps 6 to 8: the length limit, then the illegal fields, then the instruction. -/
def judge (h : Head) (addr32 : Bool) (reg : BitVec 3) (rm : RmOperand) (len : Nat) : Except Reject Instr :=
  if 15 < len then .error .gp
  else if h.bad || zeroingStore h rm then .error .ud
  else .ok (assemble h addr32 reg rm len)

/-- `Decode` of R109 on the bytes from `pc` upward. -/
def decode (bytes : List Byte) : Except Reject Instr := do
  let (p, i, bs) ← scanPrefixes bytes 0 Prefixes.empty
  let (rex, bs) ← takeRex bs
  if p.segment then .error (.notInScope .segmentOverride)
  else do
    let (h, n, bs) ← decodeHead p rex bs
    let (reg, rm) ← decodeModRm h.x h.b bs
    judge h p.addrsize reg rm (i + rex.isSome.toNat + n + rm.size)

/-! ## The encoder

`encode i` is one byte sequence that encodes `i`: prefix bytes that change nothing (`66` for legacy SSE, `67` for a VEX or
EVEX register form or a 32-bit address) fill it up to the length of `i` (R93, R95 to R97, R115). -/

/-- ModRM (R98), and with the same layout SIB (R99). -/
def packByte (hi : BitVec 2) (mid lo : BitVec 3) : Byte := hi ++ mid ++ lo

/-- A byte from its bits, most significant first. -/
def bits8 (b7 b6 b5 b4 b3 b2 b1 b0 : Bool) : Byte :=
  BitVec.ofBool b7 ++ BitVec.ofBool b6 ++ BitVec.ofBool b5 ++ BitVec.ofBool b4 ++ BitVec.ofBool b3 ++ BitVec.ofBool b2
    ++ BitVec.ofBool b1 ++ BitVec.ofBool b0

/-- The four bytes of a `disp32`. -/
def disp32Bytes (d : BitVec 32) : List Byte :=
  [d.extractLsb' 0 8, d.extractLsb' 8 8, d.extractLsb' 16 8, d.extractLsb' 24 8]

/-- The field `mod` of a form with a base register (R99). -/
def Disp.modField : Disp → BitVec 2
  | .none => 0b00#2
  | .disp8 _ => 0b01#2
  | .disp32 _ => 0b10#2

/-- The displacement bytes. -/
def Disp.bytes : Disp → List Byte
  | .none => []
  | .disp8 b => [b]
  | .disp32 d => disp32Bytes d

/-- ModRM, SIB and displacement of a memory form. -/
def AddrForm.bytes (reg : BitVec 3) : AddrForm → List Byte
  | .base b d => packByte d.modField reg (low3 b) :: d.bytes
  | .sib b i s d => packByte d.modField reg 0b100#3 :: packByte s (low3 i) (low3 b) :: d.bytes
  | .sibNoBase i s d => packByte 0b00#2 reg 0b100#3 :: packByte s (low3 i) 0b101#3 :: disp32Bytes d
  | .ripRel d => packByte 0b00#2 reg 0b101#3 :: disp32Bytes d

/-- ModRM of a register form. -/
def regFormBytes (reg rm : BitVec 3) : List Byte := [packByte 0b11#2 reg rm]

/-- The opcode byte. -/
def opcodeByte (op7F : Bool) : Byte := if op7F then 0x7F#8 else 0x6F#8

/-- A legacy SSE encoding of `len` bytes (R93, R94). -/
def encodeLegacy (op7F r x b addr32 : Bool) (tail : List Byte) (len : Nat) : List Byte :=
  let body := (if r || x || b then [bits8 false true false false false r x b] else []) ++ 0x0F#8 :: opcodeByte op7F :: tail
  let front := if addr32 then [0x67#8] else []
  front ++ (List.replicate (len - (front.length + body.length)) 0x66#8 ++ body)

/-- A VEX encoding of `len` bytes: the 2-byte prefix unless `long` asks for the 3-byte prefix (R95, R96). -/
def encodeVex (l256 op7F r x b long : Bool) (tail : List Byte) (len : Nat) : List Byte :=
  let body :=
    if long then
      0xC4#8 :: bits8 (!r) (!x) (!b) false false false false true :: bits8 false true true true true l256 false true
        :: opcodeByte op7F :: tail
    else 0xC5#8 :: bits8 (!r) true true true true l256 false true :: opcodeByte op7F :: tail
  List.replicate (len - body.length) 0x67#8 ++ body

/-- An EVEX encoding of `len` bytes (R97). -/
def encodeEvex (es : ElemSize) (vl : VecLen) (op7F rHi r x b : Bool) (mask : Masking) (tail : List Byte) (len : Nat) :
    List Byte :=
  let p0 := bits8 (!r) (!x) (!b) (!rHi) false false false true
  let p1 := bits8 (es == .qword) true true true true true false true
  let p2 := bits8 mask.z (vl == .l512) (vl == .l256) false true (mask.aaa.getLsbD 2) (mask.aaa.getLsbD 1) (mask.aaa.getLsbD 0)
  let body := 0x62#8 :: p0 :: p1 :: p2 :: opcodeByte op7F :: tail
  List.replicate (len - body.length) 0x67#8 ++ body

/-- A legacy SSE register form; `reg` and `rm` are the registers of the two ModRM fields. -/
def encodeLegacyCopy (op7F : Bool) (reg rm : VReg16) (len : Nat) : List Byte :=
  encodeLegacy op7F (reg.getLsbD 3) false (rm.getLsbD 3) false (regFormBytes (low3 reg) (low3 rm)) len

/-- A legacy SSE memory form. -/
def encodeLegacyMem (op7F : Bool) (reg : VReg16) (m : MemOperand) (len : Nat) : List Byte :=
  encodeLegacy op7F (reg.getLsbD 3) m.form.xBit m.form.bBit m.addr32 (m.form.bytes (low3 reg)) len

/-- A VEX register form. -/
def encodeVexCopy (l256 op7F : Bool) (reg rm : VReg16) (len : Nat) : List Byte :=
  encodeVex l256 op7F (reg.getLsbD 3) false (rm.getLsbD 3) (rm.getLsbD 3) (regFormBytes (low3 reg) (low3 rm)) len

/-- A VEX memory form. With 64-bit addressing the length says which of the two prefixes it is. -/
def encodeVexMem (l256 op7F : Bool) (reg : VReg16) (m : MemOperand) (len : Nat) : List Byte :=
  encodeVex l256 op7F (reg.getLsbD 3) m.form.xBit m.form.bBit
    (m.form.xBit || m.form.bBit || (!m.addr32 && len == 4 + m.form.tailSize)) (m.form.bytes (low3 reg)) len

/-- An EVEX register form. -/
def encodeEvexCopy (es : ElemSize) (vl : VecLen) (op7F : Bool) (mask : Masking) (reg rm : VReg32) (len : Nat) : List Byte :=
  encodeEvex es vl op7F (reg.getLsbD 4) (reg.getLsbD 3) (rm.getLsbD 4) (rm.getLsbD 3) mask
    (regFormBytes (low3 reg) (low3 rm)) len

/-- An EVEX memory form. -/
def encodeEvexMem (es : ElemSize) (vl : VecLen) (op7F : Bool) (mask : Masking) (reg : VReg32) (m : MemOperand) (len : Nat) :
    List Byte :=
  encodeEvex es vl op7F (reg.getLsbD 4) (reg.getLsbD 3) m.form.xBit m.form.bBit mask (m.form.bytes (low3 reg)) len

/-- Bytes that encode an instruction. -/
def encode : Instr → List Byte
  | .movdqaXmmCopyRm dst src len => encodeLegacyCopy false dst src len
  | .movdqaXmmLoad dst m len => encodeLegacyMem false dst m len
  | .movdqaXmmCopyMr dst src len => encodeLegacyCopy true src dst len
  | .movdqaXmmStore m src len => encodeLegacyMem true src m len
  | .vmovdqaXmmCopyRm dst src len => encodeVexCopy false false dst src len
  | .vmovdqaXmmLoad dst m len => encodeVexMem false false dst m len
  | .vmovdqaXmmCopyMr dst src len => encodeVexCopy false true src dst len
  | .vmovdqaXmmStore m src len => encodeVexMem false true src m len
  | .vmovdqaYmmCopyRm dst src len => encodeVexCopy true false dst src len
  | .vmovdqaYmmLoad dst m len => encodeVexMem true false dst m len
  | .vmovdqaYmmCopyMr dst src len => encodeVexCopy true true src dst len
  | .vmovdqaYmmStore m src len => encodeVexMem true true src m len
  | .vmovdqa32XmmCopyRm dst src mask len => encodeEvexCopy .dword .l128 false mask dst src len
  | .vmovdqa32XmmLoad dst mask m len => encodeEvexMem .dword .l128 false mask dst m len
  | .vmovdqa32YmmCopyRm dst src mask len => encodeEvexCopy .dword .l256 false mask dst src len
  | .vmovdqa32YmmLoad dst mask m len => encodeEvexMem .dword .l256 false mask dst m len
  | .vmovdqa32ZmmCopyRm dst src mask len => encodeEvexCopy .dword .l512 false mask dst src len
  | .vmovdqa32ZmmLoad dst mask m len => encodeEvexMem .dword .l512 false mask dst m len
  | .vmovdqa32XmmCopyMr dst src mask len => encodeEvexCopy .dword .l128 true mask src dst len
  | .vmovdqa32XmmStore m aaa src len => encodeEvexMem .dword .l128 true ⟨aaa, false⟩ src m len
  | .vmovdqa32YmmCopyMr dst src mask len => encodeEvexCopy .dword .l256 true mask src dst len
  | .vmovdqa32YmmStore m aaa src len => encodeEvexMem .dword .l256 true ⟨aaa, false⟩ src m len
  | .vmovdqa32ZmmCopyMr dst src mask len => encodeEvexCopy .dword .l512 true mask src dst len
  | .vmovdqa32ZmmStore m aaa src len => encodeEvexMem .dword .l512 true ⟨aaa, false⟩ src m len
  | .vmovdqa64XmmCopyRm dst src mask len => encodeEvexCopy .qword .l128 false mask dst src len
  | .vmovdqa64XmmLoad dst mask m len => encodeEvexMem .qword .l128 false mask dst m len
  | .vmovdqa64YmmCopyRm dst src mask len => encodeEvexCopy .qword .l256 false mask dst src len
  | .vmovdqa64YmmLoad dst mask m len => encodeEvexMem .qword .l256 false mask dst m len
  | .vmovdqa64ZmmCopyRm dst src mask len => encodeEvexCopy .qword .l512 false mask dst src len
  | .vmovdqa64ZmmLoad dst mask m len => encodeEvexMem .qword .l512 false mask dst m len
  | .vmovdqa64XmmCopyMr dst src mask len => encodeEvexCopy .qword .l128 true mask src dst len
  | .vmovdqa64XmmStore m aaa src len => encodeEvexMem .qword .l128 true ⟨aaa, false⟩ src m len
  | .vmovdqa64YmmCopyMr dst src mask len => encodeEvexCopy .qword .l256 true mask src dst len
  | .vmovdqa64YmmStore m aaa src len => encodeEvexMem .qword .l256 true ⟨aaa, false⟩ src m len
  | .vmovdqa64ZmmCopyMr dst src mask len => encodeEvexCopy .qword .l512 true mask src dst len
  | .vmovdqa64ZmmStore m aaa src len => encodeEvexMem .qword .l512 true ⟨aaa, false⟩ src m len

/-! ## Words of the opcode table -/

/-- The bytes of an `n`-byte number, the first byte in its most significant bits: how spec/opcode_table.json writes `match`
and `mask` ("first byte most significant"). -/
def bytesMsbFirst : Nat → Nat → List Byte
  | 0, _ => []
  | n + 1, w => BitVec.ofNat 8 (w >>> (8 * n)) :: bytesMsbFirst n w

/-- The bytes of an `n`-byte number, the first byte in its least significant bits. -/
def bytesLsbFirst : Nat → Nat → List Byte
  | 0, _ => []
  | n + 1, w => BitVec.ofNat 8 w :: bytesLsbFirst n (w >>> 8)

/-- How many bytes `Decode` can ask for: 14 legacy prefixes, REX, the 5 bytes of an EVEX encoding up to its opcode, ModRM,
SIB and 4 displacement bytes. -/
def windowSize : Nat := 26

/-- Extend with bytes of zeros to the size of the fetch window. -/
def padWindow (bs : List Byte) : List Byte := bs ++ List.replicate (windowSize - bs.length) 0#8

/-- The bytes of an instruction given as a number `w` of `nbits` bits, and zeros after them. The first byte is in the most
significant bits, as the table numbers them; only where the decoder finds no instruction there are the bytes taken in the
opposite order (notes/assumptions/11.md, DEDUCED). -/
def tableBytes (nbits w : Nat) : List Byte :=
  let msb := padWindow (bytesMsbFirst (nbits / 8) w)
  match decode msb with
  | .ok _ => msb
  | .error _ =>
    let lsb := padWindow (bytesLsbFirst (nbits / 8) w)
    match decode lsb with
    | .ok _ => lsb
    | .error _ => msb

/-- The instruction the decoder reads from a word of the opcode table. -/
def decodeTableWord (nbits w : Nat) : Option Instr := (decode (tableBytes nbits w)).toOption

end Sys2Proof
end

