-- ==== Sys2Proof/Machine/Fetch.lean ====
section
/-! DEFINITION. Fetching and decoding the instruction at `pc`, and the end of the run (spec/60_exceptions.md R211 steps 1 to 4,
spec/70_reset_and_hazards.md R242). -/

namespace Sys2Proof.Machine

/-- Why the instruction byte at an address cannot be fetched: the address is not canonical, or a load is not allowed there
(R69, R205, R211 step 1). -/
def fetchStop (s : State) (a : Addr) : Option Stop :=
  if !canonical s.cfg.linearBits a then some (.exc .gp)
  else if !accessibleByte s.cfg .load a then some (.exc .pf)
  else none

/-- Why the byte at an address is no byte of an instruction of the text: it lies outside the program text (R242), or it cannot
be fetched. -/
def textStop (s : State) (a : Addr) : Option Stop :=
  if !inText s.cfg a then some (.refuse .pastProgramText) else fetchStop s a

/-- The bytes from `a` upward, at most `n`, up to the first address that `stop` stops at, and why it does. -/
def fetchBytes (stop : Addr → Option Stop) (m : List Host.Cell) : Nat → Addr → List Byte × Option Stop
  | 0, _ => ([], none)
  | n + 1, a =>
    match stop a with
    | some st => ([], some st)
    | none =>
      let rest := fetchBytes stop m n (a + 1#64)
      (readByte m a :: rest.1, rest.2)

/-- What stops a step whose decoder needs more bytes than the text gives it: the fetch of one of the bytes it needs, inside the
text or past its end, raises the exception; when all of them can be fetched, the instruction runs past the text (R242: the
fetch faults stand in the line before that test; notes/assumptions/8.md, DEDUCED). No decoder wants more than `windowSize`
bytes; an instruction that did would be longer than 15 bytes (notes/assumptions/9.md, DEDUCED). -/
def truncatedStop (s : State) : Stop :=
  let w := fetchBytes (fetchStop s) s.mem windowSize s.pc
  match decode w.1 with
  | .error .truncated => w.2.getD (.exc .gp)
  | _ => .refuse .pastProgramText

/-- What becomes of a decoder answer that is no instruction (R211 steps 1 to 4, R242). -/
def rejectStop (s : State) : Reject → Stop
  | .truncated => truncatedStop s
  | .gp => .exc .gp
  | .ud => .exc .ud
  | .notInScope r => .refuse (.notInScope r)

/-- The instruction at `pc`, or what stops the step before any instruction runs (R242). -/
def nextInstr (s : State) : Except Stop Instr :=
  if !inText s.cfg s.pc then .error (.refuse .pcOutsideProgramText)
  else
    match decode (fetchBytes (textStop s) s.mem windowSize s.pc).1 with
    | .ok i => .ok i
    | .error r => .error (rejectStop s r)

/-- `pc` is the first address after the program text (R242). -/
def atTextEnd (s : State) : Bool := s.pc.toNat == s.cfg.textBase.toNat + s.cfg.textLen

/-- The last line of R242: a running state at the end of the text becomes `Ended`. -/
def settle (s : State) : State := if s.outcome = .running ∧ atTextEnd s then { s with outcome := .ended } else s

/-- Store bytes from `a` upward. -/
def storeBytes (m : List Host.Cell) (a : Addr) : List Byte → List Host.Cell
  | [] => m
  | b :: bs => storeBytes (writeByte m a b) (a + 1#64) bs

/-- The state in which the bytes `bs` are the program text at `pc` and the run stands at their first byte: what a host does to
load a program (R240, notes/assumptions/2.md). -/
def loadText (s : State) (bs : List Byte) : State :=
  { s with
    cfg := { s.cfg with textBase := s.pc, textLen := bs.length }
    mem := storeBytes s.mem s.pc bs
    outcome := .running }

/-- What R240 asks of a launch state: the run stands at the first byte of a text of at least one byte, every address from the
first of the text to the one after its last is a canonical address and the range does not wrap, and every byte of the text is
accessible for a load. The contents of memory and registers and the rest of the configuration are free. -/
abbrev isLaunch (s : State) : Prop :=
  s.outcome = .running ∧ s.pc = s.cfg.textBase ∧ 1 ≤ s.cfg.textLen
    ∧ s.cfg.textBase.toNat + s.cfg.textLen < 2 ^ 64
    ∧ (∀ b ≤ s.cfg.textLen, canonical s.cfg.linearBits (byteAddr s.cfg.textBase b) = true)
    ∧ ∀ b < s.cfg.textLen, accessibleByte s.cfg .load (byteAddr s.cfg.textBase b) = true

end Sys2Proof.Machine
end

