-- ==== Sys2Proof/Machine/Step.lean ====
section
/-! DEFINITION. One step of the machine (spec/70_reset_and_hazards.md R242), and the placing of an instruction word where it
fetches. -/

namespace Sys2Proof.Machine

/-- One step from a running state: fetch and decode, run the instruction, and see whether the text has ended. -/
def step (s : State) : Host.Outcome State Fault Refusal :=
  match s.outcome with
  | .running =>
    match nextInstr s with
    | .error st => .next (s.stop st)
    | .ok i =>
      match exec i s with
      | .next t => .next (settle t)
      | .fault f => .fault f
      | .refused r => .refused r
  | _ => .fault .notRunning

/-- The instruction `w` of `nbits` bits, with zeros above, loaded as the program text at `pc` (notes/assumptions/12.md). -/
def State.withFetchWord (s : State) (nbits w : Nat) : State := loadText s (tableBytes nbits w)

end Sys2Proof.Machine
end

