-- ==== Sys2Proof/Safety.lean ====
section
/-! DEFINITION. The terms in which claims are stated: when an instruction is enabled (spec/60_exceptions.md R201), what its
memory operand is (spec/20_memory.md R60, R63) and when the operand can be accessed (R69 to R71, R77), and what an instruction
leaves unchanged (spec/10_state.md R43). They are written from the spec's tables, not from the meanings. -/

namespace Sys2Proof.Machine

/-- The encoding family of an instruction, with the vector length where the feature flags depend on it (R91, R201). -/
inductive Encoding where
  | legacy
  | vex
  | evex (vl : VecLen)
deriving DecidableEq, Repr

/-- The family of each row of the opcode table (R91). -/
def encodingOf : Instr → Encoding
  | .movdqaXmmCopyRm _ _ _ => .legacy
  | .movdqaXmmLoad _ _ _ => .legacy
  | .movdqaXmmCopyMr _ _ _ => .legacy
  | .movdqaXmmStore _ _ _ => .legacy
  | .vmovdqaXmmCopyRm _ _ _ => .vex
  | .vmovdqaXmmLoad _ _ _ => .vex
  | .vmovdqaXmmCopyMr _ _ _ => .vex
  | .vmovdqaXmmStore _ _ _ => .vex
  | .vmovdqaYmmCopyRm _ _ _ => .vex
  | .vmovdqaYmmLoad _ _ _ => .vex
  | .vmovdqaYmmCopyMr _ _ _ => .vex
  | .vmovdqaYmmStore _ _ _ => .vex
  | .vmovdqa32XmmCopyRm _ _ _ _ => .evex .l128
  | .vmovdqa32XmmLoad _ _ _ _ => .evex .l128
  | .vmovdqa32YmmCopyRm _ _ _ _ => .evex .l256
  | .vmovdqa32YmmLoad _ _ _ _ => .evex .l256
  | .vmovdqa32ZmmCopyRm _ _ _ _ => .evex .l512
  | .vmovdqa32ZmmLoad _ _ _ _ => .evex .l512
  | .vmovdqa32XmmCopyMr _ _ _ _ => .evex .l128
  | .vmovdqa32XmmStore _ _ _ _ => .evex .l128
  | .vmovdqa32YmmCopyMr _ _ _ _ => .evex .l256
  | .vmovdqa32YmmStore _ _ _ _ => .evex .l256
  | .vmovdqa32ZmmCopyMr _ _ _ _ => .evex .l512
  | .vmovdqa32ZmmStore _ _ _ _ => .evex .l512
  | .vmovdqa64XmmCopyRm _ _ _ _ => .evex .l128
  | .vmovdqa64XmmLoad _ _ _ _ => .evex .l128
  | .vmovdqa64YmmCopyRm _ _ _ _ => .evex .l256
  | .vmovdqa64YmmLoad _ _ _ _ => .evex .l256
  | .vmovdqa64ZmmCopyRm _ _ _ _ => .evex .l512
  | .vmovdqa64ZmmLoad _ _ _ _ => .evex .l512
  | .vmovdqa64XmmCopyMr _ _ _ _ => .evex .l128
  | .vmovdqa64XmmStore _ _ _ _ => .evex .l128
  | .vmovdqa64YmmCopyMr _ _ _ _ => .evex .l256
  | .vmovdqa64YmmStore _ _ _ _ => .evex .l256
  | .vmovdqa64ZmmCopyMr _ _ _ _ => .evex .l512
  | .vmovdqa64ZmmStore _ _ _ _ => .evex .l512

/-- The feature flags and enables that a family needs are set: no cause (e), (f) or (g) of R201 holds. -/
abbrev enabled (c : Config) : Encoding → Prop
  | .legacy => c.hasSse2 = true ∧ c.cr0Em = false ∧ c.cr4Osfxsr = true
  | .vex => c.hasAvx = true ∧ c.cr4Osxsave = true ∧ c.xcr0AvxSse = 0b11#2
  | .evex vl =>
    c.hasAvx512f = true ∧ (vl = .l512 ∨ c.hasAvx512vl = true) ∧ c.cr4Osxsave = true ∧ c.xcr0AvxSse = 0b11#2
      ∧ c.xcr0Evex = 0b111#3

/-- The instruction passes its gate: it is enabled and `CR0_TS = 0` (R201, R202). -/
abbrev gateOpen (c : Config) (e : Encoding) : Prop := enabled c e ∧ c.cr0Ts = false

/-- A memory operand as the opcode table describes it. -/
structure Operand where
  m : MemOperand
  kind : AccessKind
  /-- its size in bytes, which is also its alignment (R60, R63) -/
  bytes : Nat
  /-- the factor `N` of a `disp8` (R101) -/
  scale : Nat
  /-- the length of the instruction -/
  len : Nat
  /-- bytes of one element; the whole operand in a legacy SSE or VEX form -/
  elemBytes : Nat
  /-- the writemask field; 0 in a legacy SSE or VEX form -/
  aaa : OpmaskSel
deriving DecidableEq, Repr

/-- The memory operand of each row of the opcode table, `none` for a register form. -/
def operandOf : Instr → Option Operand
  | .movdqaXmmCopyRm _ _ _ => none
  | .movdqaXmmLoad _ m len => some ⟨m, .load, 16, 1, len, 16, 0#3⟩
  | .movdqaXmmCopyMr _ _ _ => none
  | .movdqaXmmStore m _ len => some ⟨m, .store, 16, 1, len, 16, 0#3⟩
  | .vmovdqaXmmCopyRm _ _ _ => none
  | .vmovdqaXmmLoad _ m len => some ⟨m, .load, 16, 1, len, 16, 0#3⟩
  | .vmovdqaXmmCopyMr _ _ _ => none
  | .vmovdqaXmmStore m _ len => some ⟨m, .store, 16, 1, len, 16, 0#3⟩
  | .vmovdqaYmmCopyRm _ _ _ => none
  | .vmovdqaYmmLoad _ m len => some ⟨m, .load, 32, 1, len, 32, 0#3⟩
  | .vmovdqaYmmCopyMr _ _ _ => none
  | .vmovdqaYmmStore m _ len => some ⟨m, .store, 32, 1, len, 32, 0#3⟩
  | .vmovdqa32XmmCopyRm _ _ _ _ => none
  | .vmovdqa32XmmLoad _ mask m len => some ⟨m, .load, 16, 16, len, 4, mask.aaa⟩
  | .vmovdqa32YmmCopyRm _ _ _ _ => none
  | .vmovdqa32YmmLoad _ mask m len => some ⟨m, .load, 32, 32, len, 4, mask.aaa⟩
  | .vmovdqa32ZmmCopyRm _ _ _ _ => none
  | .vmovdqa32ZmmLoad _ mask m len => some ⟨m, .load, 64, 64, len, 4, mask.aaa⟩
  | .vmovdqa32XmmCopyMr _ _ _ _ => none
  | .vmovdqa32XmmStore m aaa _ len => some ⟨m, .store, 16, 16, len, 4, aaa⟩
  | .vmovdqa32YmmCopyMr _ _ _ _ => none
  | .vmovdqa32YmmStore m aaa _ len => some ⟨m, .store, 32, 32, len, 4, aaa⟩
  | .vmovdqa32ZmmCopyMr _ _ _ _ => none
  | .vmovdqa32ZmmStore m aaa _ len => some ⟨m, .store, 64, 64, len, 4, aaa⟩
  | .vmovdqa64XmmCopyRm _ _ _ _ => none
  | .vmovdqa64XmmLoad _ mask m len => some ⟨m, .load, 16, 16, len, 8, mask.aaa⟩
  | .vmovdqa64YmmCopyRm _ _ _ _ => none
  | .vmovdqa64YmmLoad _ mask m len => some ⟨m, .load, 32, 32, len, 8, mask.aaa⟩
  | .vmovdqa64ZmmCopyRm _ _ _ _ => none
  | .vmovdqa64ZmmLoad _ mask m len => some ⟨m, .load, 64, 64, len, 8, mask.aaa⟩
  | .vmovdqa64XmmCopyMr _ _ _ _ => none
  | .vmovdqa64XmmStore m aaa _ len => some ⟨m, .store, 16, 16, len, 8, aaa⟩
  | .vmovdqa64YmmCopyMr _ _ _ _ => none
  | .vmovdqa64YmmStore m aaa _ len => some ⟨m, .store, 32, 32, len, 8, aaa⟩
  | .vmovdqa64ZmmCopyMr _ _ _ _ => none
  | .vmovdqa64ZmmStore m aaa _ len => some ⟨m, .store, 64, 64, len, 8, aaa⟩

/-- The effective address of an operand, as the meanings compute it (R99 to R101). -/
def Operand.ea (o : Operand) (s : State) : Addr := s.effAddr o.m o.scale o.len

/-- The operand's effective address is canonical (R69). -/
abbrev Operand.canon (o : Operand) (s : State) : Prop := canonical s.cfg.linearBits (o.ea s) = true

/-- The operand is aligned to its size (R63). -/
abbrev Operand.aligned (o : Operand) (s : State) : Prop := (o.ea s).toNat % o.bytes = 0

/-- The operand is stored to and one of its bytes lies in the program text (R70 step 3, R77). -/
abbrev Operand.hitsText (o : Operand) (s : State) : Prop :=
  o.kind = .store ∧ ∃ b < o.bytes, inText s.cfg (byteAddr (o.ea s) b) = true

/-- Every byte that R70 step 4 asks about is accessible: the whole operand, or under `MASK_FAULT_SUPPRESSION` the bytes of the
selected elements (R71). That a range is accessible when each of its bytes is, is the model's choice
(notes/assumptions/6.md). -/
abbrev Operand.reachable (o : Operand) (s : State) : Prop :=
  ∀ b < o.bytes, s.cfg.maskFaultSuppression = false ∨ s.selected o.aaa (b / o.elemBytes) = true →
    accessibleByte s.cfg o.kind (byteAddr (o.ea s) b) = true

/-- The operand passes every test of `CheckMem` (R70). -/
abbrev Operand.ready (o : Operand) (s : State) : Prop := o.canon s ∧ o.aligned s ∧ ¬ o.hitsText s ∧ o.reachable s

/-- What an instruction that completes leaves as it was whatever it does: the parameters, the opmask and general registers and
the outcome; and `pc` has moved past it (R33, R35, R36, R41, R217). -/
abbrev completes (s t : State) (len : Nat) : Prop :=
  t.cfg = s.cfg ∧ t.k = s.k ∧ t.x = s.x ∧ t.outcome = s.outcome ∧ t.pc = s.pc + BitVec.ofNat 64 len

/-- The instruction completes and writes no state but the vector register `dst`. -/
abbrev completesWritingVec (s t : State) (dst : VReg32) (len : Nat) : Prop :=
  completes s t len ∧ (∀ n, n ≠ dst → t.vec n = s.vec n) ∧ ∀ a, readByte t.mem a = readByte s.mem a

/-- The instruction completes and writes no state but bytes among the `n` bytes at `ea`. -/
abbrev completesWritingMem (s t : State) (ea : Addr) (n len : Nat) : Prop :=
  completes s t len ∧ (∀ r, t.vec r = s.vec r)
    ∧ ∀ a, (∀ b < n, a ≠ byteAddr ea b) → readByte t.mem a = readByte s.mem a

/-- The state an exception leaves: only the outcome has changed (R212). -/
abbrev faulted (s : State) (vector : Nat) (code : ErrorCode) : State := { s with outcome := .fault vector code }

/-- The state a refusal of the spec leaves (R41). -/
abbrev refusedAs (s : State) (r : RefusedReason) : State := { s with outcome := .refused r }

/-- The `n` bytes of memory from `a` upward. -/
def bytesAt (m : List Host.Cell) (a : Addr) (n : Nat) : List Byte := (List.range n).map (fun b => readByte m (byteAddr a b))

/-- The byte at `a` can be fetched: its address is canonical and accessible for a load (R211 step 1). -/
abbrev readable (s : State) (a : Addr) : Prop :=
  canonical s.cfg.linearBits a = true ∧ accessibleByte s.cfg .load a = true

/-- The byte at `a` can be fetched and is program text (R211 step 1, R242). -/
abbrev fetchable (s : State) (a : Addr) : Prop :=
  inText s.cfg a = true ∧ canonical s.cfg.linearBits a = true ∧ accessibleByte s.cfg .load a = true

/-- The opmask field of each row of the opcode table and the number `KL` of its mask bits, `(0, 0)` for a row without a
writemask (R33, R34, R107). -/
def maskRead : Instr → OpmaskSel × Nat
  | .movdqaXmmCopyRm _ _ _ => (0#3, 0)
  | .movdqaXmmLoad _ _ _ => (0#3, 0)
  | .movdqaXmmCopyMr _ _ _ => (0#3, 0)
  | .movdqaXmmStore _ _ _ => (0#3, 0)
  | .vmovdqaXmmCopyRm _ _ _ => (0#3, 0)
  | .vmovdqaXmmLoad _ _ _ => (0#3, 0)
  | .vmovdqaXmmCopyMr _ _ _ => (0#3, 0)
  | .vmovdqaXmmStore _ _ _ => (0#3, 0)
  | .vmovdqaYmmCopyRm _ _ _ => (0#3, 0)
  | .vmovdqaYmmLoad _ _ _ => (0#3, 0)
  | .vmovdqaYmmCopyMr _ _ _ => (0#3, 0)
  | .vmovdqaYmmStore _ _ _ => (0#3, 0)
  | .vmovdqa32XmmCopyRm _ _ mask _ => (mask.aaa, 4)
  | .vmovdqa32XmmLoad _ mask _ _ => (mask.aaa, 4)
  | .vmovdqa32YmmCopyRm _ _ mask _ => (mask.aaa, 8)
  | .vmovdqa32YmmLoad _ mask _ _ => (mask.aaa, 8)
  | .vmovdqa32ZmmCopyRm _ _ mask _ => (mask.aaa, 16)
  | .vmovdqa32ZmmLoad _ mask _ _ => (mask.aaa, 16)
  | .vmovdqa32XmmCopyMr _ _ mask _ => (mask.aaa, 4)
  | .vmovdqa32XmmStore _ aaa _ _ => (aaa, 4)
  | .vmovdqa32YmmCopyMr _ _ mask _ => (mask.aaa, 8)
  | .vmovdqa32YmmStore _ aaa _ _ => (aaa, 8)
  | .vmovdqa32ZmmCopyMr _ _ mask _ => (mask.aaa, 16)
  | .vmovdqa32ZmmStore _ aaa _ _ => (aaa, 16)
  | .vmovdqa64XmmCopyRm _ _ mask _ => (mask.aaa, 2)
  | .vmovdqa64XmmLoad _ mask _ _ => (mask.aaa, 2)
  | .vmovdqa64YmmCopyRm _ _ mask _ => (mask.aaa, 4)
  | .vmovdqa64YmmLoad _ mask _ _ => (mask.aaa, 4)
  | .vmovdqa64ZmmCopyRm _ _ mask _ => (mask.aaa, 8)
  | .vmovdqa64ZmmLoad _ mask _ _ => (mask.aaa, 8)
  | .vmovdqa64XmmCopyMr _ _ mask _ => (mask.aaa, 2)
  | .vmovdqa64XmmStore _ aaa _ _ => (aaa, 2)
  | .vmovdqa64YmmCopyMr _ _ mask _ => (mask.aaa, 4)
  | .vmovdqa64YmmStore _ aaa _ _ => (aaa, 4)
  | .vmovdqa64ZmmCopyMr _ _ mask _ => (mask.aaa, 8)
  | .vmovdqa64ZmmStore _ aaa _ _ => (aaa, 8)

/-- The same instruction with `f` applied to its memory operand, if it has one, and `g` to its length. -/
def respell (f : MemOperand → MemOperand) (g : Nat → Nat) : Instr → Instr
  | .movdqaXmmCopyRm dst src len => .movdqaXmmCopyRm dst src (g len)
  | .movdqaXmmLoad dst m len => .movdqaXmmLoad dst (f m) (g len)
  | .movdqaXmmCopyMr dst src len => .movdqaXmmCopyMr dst src (g len)
  | .movdqaXmmStore m src len => .movdqaXmmStore (f m) src (g len)
  | .vmovdqaXmmCopyRm dst src len => .vmovdqaXmmCopyRm dst src (g len)
  | .vmovdqaXmmLoad dst m len => .vmovdqaXmmLoad dst (f m) (g len)
  | .vmovdqaXmmCopyMr dst src len => .vmovdqaXmmCopyMr dst src (g len)
  | .vmovdqaXmmStore m src len => .vmovdqaXmmStore (f m) src (g len)
  | .vmovdqaYmmCopyRm dst src len => .vmovdqaYmmCopyRm dst src (g len)
  | .vmovdqaYmmLoad dst m len => .vmovdqaYmmLoad dst (f m) (g len)
  | .vmovdqaYmmCopyMr dst src len => .vmovdqaYmmCopyMr dst src (g len)
  | .vmovdqaYmmStore m src len => .vmovdqaYmmStore (f m) src (g len)
  | .vmovdqa32XmmCopyRm dst src mask len => .vmovdqa32XmmCopyRm dst src mask (g len)
  | .vmovdqa32XmmLoad dst mask m len => .vmovdqa32XmmLoad dst mask (f m) (g len)
  | .vmovdqa32YmmCopyRm dst src mask len => .vmovdqa32YmmCopyRm dst src mask (g len)
  | .vmovdqa32YmmLoad dst mask m len => .vmovdqa32YmmLoad dst mask (f m) (g len)
  | .vmovdqa32ZmmCopyRm dst src mask len => .vmovdqa32ZmmCopyRm dst src mask (g len)
  | .vmovdqa32ZmmLoad dst mask m len => .vmovdqa32ZmmLoad dst mask (f m) (g len)
  | .vmovdqa32XmmCopyMr dst src mask len => .vmovdqa32XmmCopyMr dst src mask (g len)
  | .vmovdqa32XmmStore m aaa src len => .vmovdqa32XmmStore (f m) aaa src (g len)
  | .vmovdqa32YmmCopyMr dst src mask len => .vmovdqa32YmmCopyMr dst src mask (g len)
  | .vmovdqa32YmmStore m aaa src len => .vmovdqa32YmmStore (f m) aaa src (g len)
  | .vmovdqa32ZmmCopyMr dst src mask len => .vmovdqa32ZmmCopyMr dst src mask (g len)
  | .vmovdqa32ZmmStore m aaa src len => .vmovdqa32ZmmStore (f m) aaa src (g len)
  | .vmovdqa64XmmCopyRm dst src mask len => .vmovdqa64XmmCopyRm dst src mask (g len)
  | .vmovdqa64XmmLoad dst mask m len => .vmovdqa64XmmLoad dst mask (f m) (g len)
  | .vmovdqa64YmmCopyRm dst src mask len => .vmovdqa64YmmCopyRm dst src mask (g len)
  | .vmovdqa64YmmLoad dst mask m len => .vmovdqa64YmmLoad dst mask (f m) (g len)
  | .vmovdqa64ZmmCopyRm dst src mask len => .vmovdqa64ZmmCopyRm dst src mask (g len)
  | .vmovdqa64ZmmLoad dst mask m len => .vmovdqa64ZmmLoad dst mask (f m) (g len)
  | .vmovdqa64XmmCopyMr dst src mask len => .vmovdqa64XmmCopyMr dst src mask (g len)
  | .vmovdqa64XmmStore m aaa src len => .vmovdqa64XmmStore (f m) aaa src (g len)
  | .vmovdqa64YmmCopyMr dst src mask len => .vmovdqa64YmmCopyMr dst src mask (g len)
  | .vmovdqa64YmmStore m aaa src len => .vmovdqa64YmmStore (f m) aaa src (g len)
  | .vmovdqa64ZmmCopyMr dst src mask len => .vmovdqa64ZmmCopyMr dst src mask (g len)
  | .vmovdqa64ZmmStore m aaa src len => .vmovdqa64ZmmStore (f m) aaa src (g len)

/-- The same instruction one byte longer. -/
abbrev oneLonger (i : Instr) : Instr := respell id (· + 1) i

/-- The byte is a legacy prefix (R93). -/
abbrev isLegacyPrefix (b : Byte) : Prop :=
  b ∈ [(0x66 : Byte), 0x67, 0xF0, 0xF2, 0xF3, 0x2E, 0x36, 0x3E, 0x26, 0x64, 0x65]

/-- ModRM names no SIB byte: a register form, or a memory form with `r/m` other than `100b` (R99). -/
abbrev noSib (modrm : Byte) : Prop := modrm.extractLsb' 6 2 = 0b11#2 ∨ modrm.extractLsb' 0 3 ≠ 0b100#3

/-- ModRM, and the byte after it if that is a SIB byte, say that the address has no base register: RIP-relative, or a SIB byte
with the base field `101b`, both with `mod = 00b` (R99). -/
abbrev noBase (modrm next : Byte) : Prop :=
  modrm.extractLsb' 6 2 = 0b00#2
    ∧ (modrm.extractLsb' 0 3 = 0b101#3 ∨ (modrm.extractLsb' 0 3 = 0b100#3 ∧ next.extractLsb' 0 3 = 0b101#3))

/-- The three payload bytes of an EVEX prefix hold a reserved value of R103 or R104, for the opcode `op` and the bytes `rest`
that begin with ModRM. -/
abbrev evexIllegal (p0 p1 p2 op : Byte) (rest : List Byte) : Prop :=
  p1.extractLsb' 3 4 ≠ 0b1111#4 ∨ p0.extractLsb' 2 2 ≠ 0b00#2 ∨ p1.getLsbD 2 = false ∨ p2.getLsbD 3 = false
    ∨ p2.extractLsb' 5 2 = 0b11#2 ∨ p2.getLsbD 4 = true ∨ (p2.getLsbD 7 = true ∧ p2.extractLsb' 0 3 = 0b000#3)
    ∨ (p2.getLsbD 7 = true ∧ op = 0x7F ∧ ∃ modrm tail, rest = modrm :: tail ∧ modrm.extractLsb' 6 2 ≠ 0b11#2)

/-- The text does not wrap, and a running state stands inside it. -/
abbrev textInv (s : State) : Prop :=
  s.cfg.textBase.toNat + s.cfg.textLen < 2 ^ 64 ∧ (s.outcome = .running → inText s.cfg s.pc = true)

/-- The base of an address as an exact number (R99): the register, nothing, or the address of the next instruction. -/
def exactBase (s : State) (len : Nat) : AddrForm → Int
  | .base b _ => (s.gpr b).toNat
  | .sib b _ _ _ => (s.gpr b).toNat
  | .sibNoBase _ _ _ => 0
  | .ripRel _ => s.pc.toNat + len

/-- The scaled index as an exact number; the index number 4 is no index (R99). -/
def exactIndex (s : State) : AddrForm → Int
  | .base _ _ => 0
  | .sib _ i sc _ => if i = 4 then 0 else (s.gpr i).toNat * 2 ^ sc.toNat
  | .sibNoBase i sc _ => if i = 4 then 0 else (s.gpr i).toNat * 2 ^ sc.toNat
  | .ripRel _ => 0

/-- The displacement as an exact signed number, a `disp8` times `n` (R99, R101). -/
def exactDisp (n : Nat) : AddrForm → Int
  | .base _ .none => 0
  | .base _ (.disp8 d) => d.toInt * n
  | .base _ (.disp32 d) => d.toInt
  | .sib _ _ _ .none => 0
  | .sib _ _ _ (.disp8 d) => d.toInt * n
  | .sib _ _ _ (.disp32 d) => d.toInt
  | .sibNoBase _ _ d => d.toInt
  | .ripRel d => d.toInt

end Sys2Proof.Machine
end

