-- ==== Sys2Proof/Certificates/Slice0/Obligations.lean ====
section
/-! DEFINITION. The statements for the provers. -/

open Sys2Proof Sys2Proof.Machine

/-! ## Encoding -/

/-- R93 to R101, R107, R110: decoding an encoding of a well-formed instruction gives it back, whatever bytes follow. (The other
spellings of an instruction are in the next two statements.) -/
def Obligations.DecodeOfEncodeIsIdentity : Prop :=
  ∀ (i : Instr) (rest : List Byte), i.wf = true → decode (encode i ++ rest) = .ok i

/-- R94, R98, R99, R105: the bits that the spec calls ignored do not change what bytes decode to, whatever legacy prefix bytes
stand before and whatever follows: `W` of a REX byte or of a 3-byte VEX prefix; `X` of REX and VEX where there is no SIB byte,
of EVEX where there is none in a memory form; `B` where the address has no base register. -/
def Obligations.IgnoredBitsDoNotChangeTheDecoding : Prop :=
  ∀ pre tl : List Byte, (∀ b ∈ pre, isLegacyPrefix b) →
    (∀ rex : Byte, rex.extractLsb' 4 4 = 4#4 → decode (pre ++ (rex ^^^ 0x08) :: tl) = decode (pre ++ rex :: tl))
    ∧ (∀ b1 pay : Byte, decode (pre ++ 0xC4 :: b1 :: (pay ^^^ 0x80) :: tl) = decode (pre ++ 0xC4 :: b1 :: pay :: tl))
    ∧ (∀ op modrm : Byte, noSib modrm →
      (∀ rex : Byte, rex.extractLsb' 4 4 = 4#4 →
        decode (pre ++ (rex ^^^ 0x02) :: 0x0F :: op :: modrm :: tl) = decode (pre ++ rex :: 0x0F :: op :: modrm :: tl))
      ∧ (∀ b1 pay : Byte, decode (pre ++ 0xC4 :: (b1 ^^^ 0x40) :: pay :: op :: modrm :: tl) =
          decode (pre ++ 0xC4 :: b1 :: pay :: op :: modrm :: tl))
      ∧ (∀ p0 p1 p2 : Byte, modrm.extractLsb' 6 2 ≠ 0b11#2 →
          decode (pre ++ 0x62 :: (p0 ^^^ 0x40) :: p1 :: p2 :: op :: modrm :: tl) =
            decode (pre ++ 0x62 :: p0 :: p1 :: p2 :: op :: modrm :: tl)))
    ∧ ∀ op modrm next : Byte, noBase modrm next →
      (∀ rex : Byte, rex.extractLsb' 4 4 = 4#4 →
        decode (pre ++ (rex ^^^ 0x01) :: 0x0F :: op :: modrm :: next :: tl) =
          decode (pre ++ rex :: 0x0F :: op :: modrm :: next :: tl))
      ∧ (∀ b1 pay : Byte, decode (pre ++ 0xC4 :: (b1 ^^^ 0x20) :: pay :: op :: modrm :: next :: tl) =
          decode (pre ++ 0xC4 :: b1 :: pay :: op :: modrm :: next :: tl))
      ∧ ∀ p0 p1 p2 : Byte, decode (pre ++ 0x62 :: (p0 ^^^ 0x20) :: p1 :: p2 :: op :: modrm :: next :: tl) =
          decode (pre ++ 0x62 :: p0 :: p1 :: p2 :: op :: modrm :: next :: tl)

/-- R93, R94, R96, R100: four ways to spell an instruction with one byte more, while it has fewer than 15: one more `66` before
a legacy SSE encoding; one more `67` before any encoding, which makes the address 32 bits wide if there is one; the REX byte
`40`; and the 3-byte VEX prefix in place of the 2-byte one. Nothing but the length, and for `67` the address width, differs. -/
def Obligations.LongerSpellingsDifferOnlyInLength : Prop :=
  (∀ (bs : List Byte) (i : Instr), decode bs = .ok i → i.len < 15 →
    (encodingOf i = .legacy → decode (0x66 :: bs) = .ok (oneLonger i))
    ∧ decode (0x67 :: bs) = .ok (respell (fun m => { m with addr32 := true }) (· + 1) i))
  ∧ ∀ (pre tl : List Byte) (i : Instr), (∀ b ∈ pre, isLegacyPrefix b) → i.len < 15 →
    (decode (pre ++ 0x0F :: tl) = .ok i → decode (pre ++ 0x40 :: 0x0F :: tl) = .ok (oneLonger i))
    ∧ ∀ pay : Byte, decode (pre ++ 0xC5 :: pay :: tl) = .ok i →
      decode (pre ++ 0xC4 :: (pay &&& 0x80 ||| 0x61) :: (pay &&& 0x7F) :: tl) = .ok (oneLonger i)

/-- R109, R115: an instruction that the decoder answers is well-formed, and exactly its `len` bytes decide that answer: they
are there, and any bytes that begin with them decode to the same instruction. -/
def Obligations.DecodedInstructionIsWellFormedAndReadsItsLength : Prop :=
  ∀ (bs : List Byte) (i : Instr), decode bs = .ok i →
    i.wf = true ∧ i.len ≤ bs.length ∧ ∀ bs' : List Byte, bs'.take i.len = bs.take i.len → decode bs' = .ok i

/-- R90, R115: an encoding has the length of its instruction, which is 4 to 15 bytes. -/
def Obligations.EncodingHasTheInstructionLength : Prop :=
  ∀ i : Instr, i.wf = true → (encode i).length = i.len ∧ 4 ≤ i.len ∧ i.len ≤ 15

/-- The fourteen worked encodings of R116 decode to the instructions the rule reads them as. -/
def Obligations.WorkedEncodingsDecode : Prop :=
  decode [0x66, 0x0F, 0x6F, 0xCA] = .ok (.movdqaXmmCopyRm 1 2 4)
  ∧ decode [0x66, 0x0F, 0x6F, 0x08] = .ok (.movdqaXmmLoad 1 ⟨false, .base 0 .none⟩ 4)
  ∧ decode [0x66, 0x0F, 0x7F, 0x08] = .ok (.movdqaXmmStore ⟨false, .base 0 .none⟩ 1 4)
  ∧ decode [0x66, 0x44, 0x0F, 0x6F, 0x3C, 0x24] = .ok (.movdqaXmmLoad 15 ⟨false, .sib 4 4 0 .none⟩ 6)
  ∧ decode [0xC5, 0xF9, 0x6F, 0xCA] = .ok (.vmovdqaXmmCopyRm 1 2 4)
  ∧ decode [0xC5, 0x79, 0x7F, 0xC9] = .ok (.vmovdqaXmmCopyMr 1 9 4)
  ∧ decode [0xC4, 0xC1, 0x79, 0x6F, 0xC9] = .ok (.vmovdqaXmmCopyRm 1 9 5)
  ∧ decode [0xC4, 0xE1, 0xF9, 0x6F, 0xCA] = .ok (.vmovdqaXmmCopyRm 1 2 5)
  ∧ decode [0x66, 0x48, 0x0F, 0x6F, 0xCA] = .ok (.movdqaXmmCopyRm 1 2 5)
  ∧ decode [0x67, 0x62, 0xF1, 0x7D, 0x48, 0x6F, 0x84, 0x88, 0x00, 0x01, 0x00, 0x00]
      = .ok (.vmovdqa32ZmmLoad 0 ⟨0, false⟩ ⟨true, .sib 0 1 2 (.disp32 0x100)⟩ 12)
  ∧ decode [0xC5, 0xFD, 0x6F, 0x08] = .ok (.vmovdqaYmmLoad 1 ⟨false, .base 0 .none⟩ 4)
  ∧ decode [0x62, 0xF1, 0x7D, 0x89, 0x6F, 0xCA] = .ok (.vmovdqa32XmmCopyRm 1 2 ⟨1, true⟩ 6)
  ∧ decode [0x62, 0xF1, 0x7D, 0xC9, 0x6F, 0x48, 0x01]
      = .ok (.vmovdqa32ZmmLoad 1 ⟨1, true⟩ ⟨false, .base 0 (.disp8 1)⟩ 7)
  ∧ decode [0x62, 0xE1, 0xFD, 0x4A, 0x7F, 0x08] = .ok (.vmovdqa64ZmmStore ⟨false, .base 0 .none⟩ 2 17 6)

/-- R103: take any VEX or EVEX encoding that decodes, with any number of `67` bytes before it; change the byte that holds
`vvvv` so that its stored bits are not `1111b` and the rest of the byte stays; the decoder answers `#UD`, in register and
memory forms alike. The legacy SSE encodings have no such field: this is no statement about them. -/
def Obligations.ReservedVvvvIsInvalidOpcode : Prop :=
  ∀ (n : Nat) (pay pay' p0 p2 : Byte) (tail : List Byte) (i : Instr),
    pay'.extractLsb' 3 4 ≠ 0b1111#4 → pay'.extractLsb' 0 3 = pay.extractLsb' 0 3 → pay'.getLsbD 7 = pay.getLsbD 7 →
    (decode (List.replicate n 0x67 ++ 0xC5 :: pay :: tail) = .ok i →
      decode (List.replicate n 0x67 ++ 0xC5 :: pay' :: tail) = .error .ud)
    ∧ (decode (List.replicate n 0x67 ++ 0xC4 :: p0 :: pay :: tail) = .ok i →
      decode (List.replicate n 0x67 ++ 0xC4 :: p0 :: pay' :: tail) = .error .ud)
    ∧ (decode (List.replicate n 0x67 ++ 0x62 :: p0 :: pay :: p2 :: tail) = .ok i →
      decode (List.replicate n 0x67 ++ 0x62 :: p0 :: pay' :: p2 :: tail) = .error .ud)

/-- R104: take any EVEX encoding that decodes and change its three payload bytes; if they still name the opcode map and the
implied `66` and hold a reserved value of the table of R104, the decoder answers `#UD`. -/
def Obligations.ReservedEvexValuesAreInvalidOpcode : Prop :=
  ∀ (n : Nat) (p0 p1 p2 q0 q1 q2 op modrm : Byte) (tail : List Byte) (i : Instr),
    decode (List.replicate n 0x67 ++ 0x62 :: p0 :: p1 :: p2 :: op :: modrm :: tail) = .ok i →
    q0.extractLsb' 0 2 = 0b01#2 → q1.extractLsb' 0 2 = 0b01#2 →
    (q0.extractLsb' 2 2 ≠ 0b00#2 ∨ q1.getLsbD 2 = false ∨ q2.getLsbD 3 = false ∨ q2.extractLsb' 5 2 = 0b11#2
      ∨ q2.getLsbD 4 = true ∨ (q2.getLsbD 7 = true ∧ q2.extractLsb' 0 3 = 0b000#3)
      ∨ (q2.getLsbD 7 = true ∧ op = 0x7F ∧ modrm.extractLsb' 6 2 ≠ 0b11#2)) →
    decode (List.replicate n 0x67 ++ 0x62 :: q0 :: q1 :: q2 :: op :: modrm :: tail) = .error .ud

/-- R93, R108, R115: what a further byte before an instruction that decodes does. `F0` is illegal before every encoding; `66`,
`F2` or `F3` is illegal before a VEX or EVEX encoding, and so is a REX byte directly before a VEX or EVEX prefix: `#UD`, or
`#GP` when the instruction has 15 bytes already, because the length is judged first (R109 steps 6 and 7). `F2` or `F3` selects
another instruction before a legacy SSE encoding, and a segment override is refused, at any length. -/
def Obligations.IllegalPrefixBytesAreRejected : Prop :=
  ∀ (bs : List Byte) (i : Instr), decode bs = .ok i →
    let illegal : Except Reject Instr := .error (if i.len = 15 then .gp else .ud)
    decode (0xF0 :: bs) = illegal
    ∧ (∀ p : Byte, p ∈ [(0x66 : Byte), 0xF2, 0xF3] → encodingOf i ≠ .legacy → decode (p :: bs) = illegal)
    ∧ (∀ p : Byte, p ∈ [(0xF2 : Byte), 0xF3] → encodingOf i = .legacy →
        decode (p :: bs) = .error (.notInScope .otherMandatoryPrefix))
    ∧ (∀ p : Byte, p ∈ [(0x2E : Byte), 0x36, 0x3E, 0x26, 0x64, 0x65] →
        decode (p :: bs) = .error (.notInScope .segmentOverride))
    ∧ (∀ (rex c : Byte) (tail : List Byte), rex.extractLsb' 4 4 = 4#4 → c ∈ [(0xC4 : Byte), 0xC5, 0x62] → bs = c :: tail →
        decode (rex :: bs) = illegal)

/-- R109 steps 1 and 6, R115, R203 (c): fifteen legacy prefix bytes are `#GP` whatever follows; an instruction with so many more
bytes `66`, `67` or `F0` before it that it is longer than 15 bytes is `#GP`; and the decoder answers `#GP` only after it has
read 15 bytes that no shorter answer was found in. -/
def Obligations.OverlongInstructionsAreGeneralProtection : Prop :=
  (∀ pre tl : List Byte, pre.length = 15 → (∀ b ∈ pre, isLegacyPrefix b) → decode (pre ++ tl) = .error .gp)
  ∧ (∀ (bs : List Byte) (i : Instr) (n : Nat) (p : Byte), decode bs = .ok i → 15 < i.len + n →
      p ∈ [(0x66 : Byte), 0x67, 0xF0] → decode (List.replicate n p ++ bs) = .error .gp)
  ∧ ∀ bs : List Byte, decode bs = .error .gp →
      15 ≤ bs.length ∧ ∀ n < 15, decode (bs.take n) = .error .truncated

/-- R109, R201 (a) to (d): `#UD` is answered only for bytes that are one of the eighteen encodings with an illegal field. After
legacy prefix bytes (none of them a segment override) and at most one REX byte stand `0F 6F` or `0F 7F` (with a `66` among the
prefix bytes and no `F2` or `F3`) and a LOCK prefix is there; or a VEX or EVEX prefix of the right map and implied `66`, with
the opcode `6F` or `7F`, and a `66`, `F2`, `F3`, LOCK or REX byte stands before it, or its `vvvv` is not `1111b`, or it is an
EVEX prefix with a reserved value of R104. -/
def Obligations.InvalidOpcodeOnlyForTheEighteenEncodings : Prop :=
  ∀ bs : List Byte, decode bs = .error .ud →
    ∃ (pre rex rest : List Byte) (op : Byte), (op = 0x6F ∨ op = 0x7F)
      ∧ (∀ b ∈ pre, b ∈ [(0x66 : Byte), 0x67, 0xF0, 0xF2, 0xF3])
      ∧ (rex = [] ∨ ∃ r : Byte, rex = [r] ∧ r.extractLsb' 4 4 = 4#4)
      ∧ ((bs = pre ++ rex ++ 0x0F :: op :: rest ∧ 0x66#8 ∈ pre ∧ 0xF2#8 ∉ pre ∧ 0xF3#8 ∉ pre ∧ 0xF0#8 ∈ pre)
        ∨ (∃ pay : Byte, bs = pre ++ rex ++ 0xC5 :: pay :: op :: rest ∧ pay.extractLsb' 0 2 = 0b01#2
            ∧ (0xF0#8 ∈ pre ∨ 0x66#8 ∈ pre ∨ 0xF2#8 ∈ pre ∨ 0xF3#8 ∈ pre ∨ rex ≠ [] ∨ pay.extractLsb' 3 4 ≠ 0b1111#4))
        ∨ (∃ p0 pay : Byte, bs = pre ++ rex ++ 0xC4 :: p0 :: pay :: op :: rest ∧ p0.extractLsb' 0 5 = 0b00001#5
            ∧ pay.extractLsb' 0 2 = 0b01#2
            ∧ (0xF0#8 ∈ pre ∨ 0x66#8 ∈ pre ∨ 0xF2#8 ∈ pre ∨ 0xF3#8 ∈ pre ∨ rex ≠ [] ∨ pay.extractLsb' 3 4 ≠ 0b1111#4))
        ∨ (∃ p0 p1 p2 : Byte, bs = pre ++ rex ++ 0x62 :: p0 :: p1 :: p2 :: op :: rest ∧ p0.extractLsb' 0 2 = 0b01#2
            ∧ p1.extractLsb' 0 2 = 0b01#2
            ∧ (0xF0#8 ∈ pre ∨ 0x66#8 ∈ pre ∨ 0xF2#8 ∈ pre ∨ 0xF3#8 ∈ pre ∨ rex ≠ [] ∨ evexIllegal p0 p1 p2 op rest)))

/-! ## The step -/

/-- R36, R211, R242: in a running state whose next `i.len` bytes can be fetched and decode to `i`, a step is `exec` of `i`, and
after it a running state at the end of the text becomes `Ended`. -/
def Obligations.StepRunsTheDecodedInstruction : Prop :=
  ∀ (s t : State) (i : Instr), s.outcome = .running → (∀ b < i.len, fetchable s (byteAddr s.pc b)) →
    decode (bytesAt s.mem s.pc i.len) = .ok i → exec i s = .next t →
    step s = .next (if t.outcome = .running ∧ t.pc.toNat = t.cfg.textBase.toNat + t.cfg.textLen
      then { t with outcome := .ended } else t)

/-- R109, R211 steps 2 to 4, R242: in a running state whose next `n` bytes can be fetched and are rejected, a step leaves the
outcome that the rejection stands for and changes nothing else. -/
def Obligations.RejectedBytesBecomeTheOutcome : Prop :=
  ∀ (s : State) (n : Nat), s.outcome = .running → (∀ b < n, fetchable s (byteAddr s.pc b)) →
    (decode (bytesAt s.mem s.pc n) = .error .ud → step s = .next (faulted s 6 .none))
    ∧ (decode (bytesAt s.mem s.pc n) = .error .gp → step s = .next (faulted s 13 .zero))
    ∧ ∀ r, decode (bytesAt s.mem s.pc n) = .error (.notInScope r) → step s = .next (refusedAs s (.notInScope r))

/-- R205, R211 step 1, R242: a running state whose `pc` is outside the text is refused. With `pc` in the text, when the decoder
needs the byte after the first `n` bytes and its address is not canonical, the step ends in `#GP(0)`, and where it is
canonical and not accessible for a load, in `#PF`. When all the bytes the decoder needs can be fetched and one of them, the one
after the first `m`, lies outside the text, the instruction runs past the text and is refused. (That a fetch fault past the
end of the text comes before that refusal is read from the order of the lines of R242, notes/assumptions/8.md.) -/
def Obligations.FetchStopsBecomeTheOutcome : Prop :=
  ∀ (s : State) (n : Nat), s.outcome = .running →
    (inText s.cfg s.pc = false → step s = .next (refusedAs s .pcOutsideProgramText))
    ∧ (inText s.cfg s.pc = true → (∀ b < n, readable s (byteAddr s.pc b)) →
      (decode (bytesAt s.mem s.pc n) = .error .truncated →
        (canonical s.cfg.linearBits (byteAddr s.pc n) = false → step s = .next (faulted s 13 .zero))
        ∧ (canonical s.cfg.linearBits (byteAddr s.pc n) = true → accessibleByte s.cfg .load (byteAddr s.pc n) = false →
            step s = .next (faulted s 14 .unmodelled)))
      ∧ (decode (bytesAt s.mem s.pc n) ≠ .error .truncated →
        ∀ m < n, decode (bytesAt s.mem s.pc m) = .error .truncated → inText s.cfg (byteAddr s.pc m) = false →
          step s = .next (refusedAs s .pastProgramText)))

/-- R41: no step is defined from an outcome other than `Running`; the model's step answers the fault `notRunning` there and
only there (notes/assumptions/7.md). -/
def Obligations.OnlyRunningStatesStep : Prop :=
  ∀ s : State, (step s = .fault .notRunning ↔ s.outcome ≠ .running) ∧ (s.outcome = .running → ∃ t, step s = .next t)

/-- R242: a run from a launch state ends: within `TEXT_LEN / 4` steps (rounded up, which is the model's reading,
notes/assumptions/18.md: the last step may run into the end of the text) the outcome is no longer `Running`. The spec marks the
bound as its own inference (from R36 and R115). -/
def Obligations.EveryRunEndsWithinTheText : Prop :=
  ∀ s : State, s.outcome = .running → inText s.cfg s.pc = true → s.cfg.textBase.toNat + s.cfg.textLen < 2 ^ 64 →
    ∃ k ≤ (s.cfg.textLen + 3) / 4, ∃ t : State, Host.Core.run core k s = .next t ∧ t.outcome ≠ .running

/-- R41, R242: after every step, `Ended` means that `pc` is the first address after the text, and a state that is still
`Running` is not there. -/
def Obligations.EndedExactlyAtTheEndOfTheText : Prop :=
  ∀ s t : State, step s = .next t →
    (t.outcome = .ended → t.pc.toNat = t.cfg.textBase.toNat + t.cfg.textLen)
    ∧ (t.outcome = .running → t.pc.toNat ≠ t.cfg.textBase.toNat + t.cfg.textLen)

/-! ## MOVDQA, the legacy SSE encodings -/

/-- R140, R142: the low 128 bits are copied, bits 511:128 of the destination are kept, nothing else is written. -/
def Obligations.MovdqaCopyResult : Prop :=
  ∀ (dst src : VReg16) (len : Nat) (s : State), gateOpen s.cfg .legacy →
    ∀ i ∈ [Instr.movdqaXmmCopyRm dst src len, .movdqaXmmCopyMr dst src len],
      ∃ t, exec i s = .next t ∧ completesWritingVec s t (vreg dst) len
        ∧ ∀ j < 512, (t.vec (vreg dst)).getLsbD j =
            if j < 128 then (s.vec (vreg src)).getLsbD j else (s.vec (vreg dst)).getLsbD j

/-- R141: byte `b` of the 16 bytes at `EA` becomes bits `8b+7:8b` of the destination, bits 511:128 are kept. -/
def Obligations.MovdqaLoadResult : Prop :=
  ∀ (dst : VReg16) (m : MemOperand) (len : Nat) (s : State), gateOpen s.cfg .legacy →
    Operand.ready ⟨m, .load, 16, 1, len, 16, 0#3⟩ s →
    ∃ t, exec (.movdqaXmmLoad dst m len) s = .next t ∧ completesWritingVec s t (vreg dst) len
      ∧ ∀ j < 512, (t.vec (vreg dst)).getLsbD j =
          if j < 128 then (readByte s.mem (byteAddr (s.effAddr m 1 len) (j / 8))).getLsbD (j % 8)
          else (s.vec (vreg dst)).getLsbD j

/-- R143: bits `8b+7:8b` of the source are stored at `EA + b` for the 16 bytes of the operand, nothing else is written. -/
def Obligations.MovdqaStoreResult : Prop :=
  ∀ (m : MemOperand) (src : VReg16) (len : Nat) (s : State), gateOpen s.cfg .legacy →
    Operand.ready ⟨m, .store, 16, 1, len, 16, 0#3⟩ s →
    ∃ t, exec (.movdqaXmmStore m src len) s = .next t ∧ completesWritingMem s t (s.effAddr m 1 len) 16 len
      ∧ ∀ b < 16, readByte t.mem (byteAddr (s.effAddr m 1 len) b) = (s.vec (vreg src)).extractLsb' (8 * b) 8

/-! ## VMOVDQA, the VEX encodings -/

/-- R150, R152, R154, R156: the low `VL` bits are copied and the bits above are zeroed. -/
def Obligations.VmovdqaCopyResult : Prop :=
  ∀ (dst src : VReg16) (len : Nat) (s : State), gateOpen s.cfg .vex →
    ∀ p ∈ [(Instr.vmovdqaXmmCopyRm dst src len, 128), (.vmovdqaXmmCopyMr dst src len, 128),
        (.vmovdqaYmmCopyRm dst src len, 256), (.vmovdqaYmmCopyMr dst src len, 256)],
      ∃ t, exec p.1 s = .next t ∧ completesWritingVec s t (vreg dst) len
        ∧ ∀ j < 512, (t.vec (vreg dst)).getLsbD j = (decide (j < p.2) && (s.vec (vreg src)).getLsbD j)

/-- R151, R155: the bytes at `EA` become the low `VL` bits and the bits above are zeroed. -/
def Obligations.VmovdqaLoadResult : Prop :=
  ∀ (dst : VReg16) (m : MemOperand) (len : Nat) (s : State), gateOpen s.cfg .vex →
    ∀ p ∈ [(Instr.vmovdqaXmmLoad dst m len, 16), (.vmovdqaYmmLoad dst m len, 32)],
      Operand.ready ⟨m, .load, p.2, 1, len, p.2, 0#3⟩ s →
      ∃ t, exec p.1 s = .next t ∧ completesWritingVec s t (vreg dst) len
        ∧ ∀ j < 512, (t.vec (vreg dst)).getLsbD j =
            (decide (j < 8 * p.2) && (readByte s.mem (byteAddr (s.effAddr m 1 len) (j / 8))).getLsbD (j % 8))

/-- R153, R157: the low `VL` bits are stored, nothing else is written. -/
def Obligations.VmovdqaStoreResult : Prop :=
  ∀ (m : MemOperand) (src : VReg16) (len : Nat) (s : State), gateOpen s.cfg .vex →
    ∀ p ∈ [(Instr.vmovdqaXmmStore m src len, 16), (.vmovdqaYmmStore m src len, 32)],
      Operand.ready ⟨m, .store, p.2, 1, len, p.2, 0#3⟩ s →
      ∃ t, exec p.1 s = .next t ∧ completesWritingMem s t (s.effAddr m 1 len) p.2 len
        ∧ ∀ b < p.2, readByte t.mem (byteAddr (s.effAddr m 1 len) b) = (s.vec (vreg src)).extractLsb' (8 * b) 8

/-! ## VMOVDQA32 -/

/-- R160, R162, R164, R166, R168, R170: each doubleword of the low `VL` bits is copied where it is selected, else kept (`z = 0`) or cleared (`z = 1`);
the bits above `VL` are zeroed. -/
def Obligations.Vmovdqa32CopyResult : Prop :=
  ∀ (dst src : VReg32) (mask : Masking) (len : Nat) (s : State),
    ∀ p ∈ [(Instr.vmovdqa32XmmCopyRm dst src mask len, VecLen.l128), (.vmovdqa32XmmCopyMr dst src mask len, .l128),
        (.vmovdqa32YmmCopyRm dst src mask len, .l256), (.vmovdqa32YmmCopyMr dst src mask len, .l256),
        (.vmovdqa32ZmmCopyRm dst src mask len, .l512), (.vmovdqa32ZmmCopyMr dst src mask len, .l512)],
      gateOpen s.cfg (.evex p.2) →
      ∃ t, exec p.1 s = .next t ∧ completesWritingVec s t dst len
        ∧ ∀ j < 512, (t.vec dst).getLsbD j =
            if p.2.bits ≤ j then false
            else if s.selected mask.aaa (j / 32) then (s.vec src).getLsbD j
            else if mask.z then false else (s.vec dst).getLsbD j

/-- R161, R163, R165: the same with the doublewords at `EA`; the `disp8` of the address is scaled by the operand's size. -/
def Obligations.Vmovdqa32LoadResult : Prop :=
  ∀ (dst : VReg32) (mask : Masking) (m : MemOperand) (len : Nat) (s : State),
    ∀ p ∈ [(Instr.vmovdqa32XmmLoad dst mask m len, VecLen.l128),
        (.vmovdqa32YmmLoad dst mask m len, .l256),
        (.vmovdqa32ZmmLoad dst mask m len, .l512)],
      gateOpen s.cfg (.evex p.2) → Operand.ready ⟨m, .load, p.2.bytes, p.2.bytes, len, 4, mask.aaa⟩ s →
      ∃ t, exec p.1 s = .next t ∧ completesWritingVec s t dst len
        ∧ ∀ j < 512, (t.vec dst).getLsbD j =
            if p.2.bits ≤ j then false
            else if s.selected mask.aaa (j / 32) then
              (readByte s.mem (byteAddr (s.effAddr m p.2.bytes len) (j / 8))).getLsbD (j % 8)
            else if mask.z then false else (s.vec dst).getLsbD j

/-- R167, R169, R171: the bytes of each selected doubleword are stored, the bytes of the others are unchanged, nothing else is written. -/
def Obligations.Vmovdqa32StoreResult : Prop :=
  ∀ (m : MemOperand) (aaa : OpmaskSel) (src : VReg32) (len : Nat) (s : State),
    ∀ p ∈ [(Instr.vmovdqa32XmmStore m aaa src len, VecLen.l128),
        (.vmovdqa32YmmStore m aaa src len, .l256),
        (.vmovdqa32ZmmStore m aaa src len, .l512)],
      gateOpen s.cfg (.evex p.2) → Operand.ready ⟨m, .store, p.2.bytes, p.2.bytes, len, 4, aaa⟩ s →
      ∃ t, exec p.1 s = .next t ∧ completesWritingMem s t (s.effAddr m p.2.bytes len) p.2.bytes len
        ∧ ∀ b < p.2.bytes, readByte t.mem (byteAddr (s.effAddr m p.2.bytes len) b) =
            if s.selected aaa (b / 4) then (s.vec src).extractLsb' (8 * b) 8
            else readByte s.mem (byteAddr (s.effAddr m p.2.bytes len) b)

/-! ## VMOVDQA64 -/

/-- R180, R182, R184, R186, R188, R190: each quadword of the low `VL` bits is copied where it is selected, else kept (`z = 0`) or cleared (`z = 1`);
the bits above `VL` are zeroed. -/
def Obligations.Vmovdqa64CopyResult : Prop :=
  ∀ (dst src : VReg32) (mask : Masking) (len : Nat) (s : State),
    ∀ p ∈ [(Instr.vmovdqa64XmmCopyRm dst src mask len, VecLen.l128), (.vmovdqa64XmmCopyMr dst src mask len, .l128),
        (.vmovdqa64YmmCopyRm dst src mask len, .l256), (.vmovdqa64YmmCopyMr dst src mask len, .l256),
        (.vmovdqa64ZmmCopyRm dst src mask len, .l512), (.vmovdqa64ZmmCopyMr dst src mask len, .l512)],
      gateOpen s.cfg (.evex p.2) →
      ∃ t, exec p.1 s = .next t ∧ completesWritingVec s t dst len
        ∧ ∀ j < 512, (t.vec dst).getLsbD j =
            if p.2.bits ≤ j then false
            else if s.selected mask.aaa (j / 64) then (s.vec src).getLsbD j
            else if mask.z then false else (s.vec dst).getLsbD j

/-- R181, R183, R185: the same with the quadwords at `EA`; the `disp8` of the address is scaled by the operand's size. -/
def Obligations.Vmovdqa64LoadResult : Prop :=
  ∀ (dst : VReg32) (mask : Masking) (m : MemOperand) (len : Nat) (s : State),
    ∀ p ∈ [(Instr.vmovdqa64XmmLoad dst mask m len, VecLen.l128),
        (.vmovdqa64YmmLoad dst mask m len, .l256),
        (.vmovdqa64ZmmLoad dst mask m len, .l512)],
      gateOpen s.cfg (.evex p.2) → Operand.ready ⟨m, .load, p.2.bytes, p.2.bytes, len, 8, mask.aaa⟩ s →
      ∃ t, exec p.1 s = .next t ∧ completesWritingVec s t dst len
        ∧ ∀ j < 512, (t.vec dst).getLsbD j =
            if p.2.bits ≤ j then false
            else if s.selected mask.aaa (j / 64) then
              (readByte s.mem (byteAddr (s.effAddr m p.2.bytes len) (j / 8))).getLsbD (j % 8)
            else if mask.z then false else (s.vec dst).getLsbD j

/-- R187, R189, R191: the bytes of each selected quadword are stored, the bytes of the others are unchanged, nothing else is written. -/
def Obligations.Vmovdqa64StoreResult : Prop :=
  ∀ (m : MemOperand) (aaa : OpmaskSel) (src : VReg32) (len : Nat) (s : State),
    ∀ p ∈ [(Instr.vmovdqa64XmmStore m aaa src len, VecLen.l128),
        (.vmovdqa64YmmStore m aaa src len, .l256),
        (.vmovdqa64ZmmStore m aaa src len, .l512)],
      gateOpen s.cfg (.evex p.2) → Operand.ready ⟨m, .store, p.2.bytes, p.2.bytes, len, 8, aaa⟩ s →
      ∃ t, exec p.1 s = .next t ∧ completesWritingMem s t (s.effAddr m p.2.bytes len) p.2.bytes len
        ∧ ∀ b < p.2.bytes, readByte t.mem (byteAddr (s.effAddr m p.2.bytes len) b) =
            if s.selected aaa (b / 8) then (s.vec src).extractLsb' (8 * b) 8
            else readByte s.mem (byteAddr (s.effAddr m p.2.bytes len) b)

/-! ## Exceptions -/

/-- R201 (e) to (g), R211 step 5: an instruction whose feature flags or enables are not set raises `#UD`, whatever its
operands are. -/
def Obligations.DisabledInstructionIsInvalidOpcode : Prop :=
  ∀ (i : Instr) (s : State), ¬ enabled s.cfg (encodingOf i) → exec i s = .next (faulted s 6 .none)

/-- R202: with `CR0_TS = 1` every enabled instruction raises `#NM` before any test of its memory operand; the tests of R201
come first, those of the decoder (the step then never reaches `exec`) and those of the gate; with `CR0_TS = 0` no step raises
`#NM`. -/
def Obligations.TaskSwitchedRaisesDeviceNotAvailable : Prop :=
  (∀ (i : Instr) (s : State), s.cfg.cr0Ts = true →
    (enabled s.cfg (encodingOf i) → exec i s = .next (faulted s 7 .none))
    ∧ (¬ enabled s.cfg (encodingOf i) → exec i s = .next (faulted s 6 .none)))
  ∧ (∀ (s : State) (n : Nat), s.outcome = .running → s.cfg.cr0Ts = true → (∀ b < n, fetchable s (byteAddr s.pc b)) →
      decode (bytesAt s.mem s.pc n) = .error .ud → step s = .next (faulted s 6 .none))
  ∧ ∀ (s t : State) (c : ErrorCode), s.cfg.cr0Ts = false → step s = .next t → t.outcome ≠ .fault 7 c

/-- R204: a memory operand whose address is not canonical raises `#SS(0)` when its segment is the stack segment, and a step
raises `#SS` in no other case; the segment is the stack segment exactly when the address has a base register and it is `RSP`
or `RBP` (`ESP` or `EBP`). The last clauses are the example of the rule: the same address through `RBP` and through `RAX`. -/
def Obligations.StackFaultIsNonCanonicalStackOperand : Prop :=
  (∀ (i : Instr) (o : Operand) (s : State), gateOpen s.cfg (encodingOf i) → operandOf i = some o → ¬ o.canon s →
    stackSegment o.m.form = true → exec i s = .next (faulted s 12 .zero))
  ∧ (∀ (s t : State) (c : ErrorCode), step s = .next t → t.outcome = .fault 12 c →
      ∃ i o, nextInstr s = .ok i ∧ operandOf i = some o ∧ ¬ o.canon s ∧ stackSegment o.m.form = true)
  ∧ (∀ f : AddrForm, stackSegment f = true ↔
      (∃ b d, f = .base b d ∧ (b = 4 ∨ b = 5)) ∨ ∃ b i sc d, f = .sib b i sc d ∧ (b = 4 ∨ b = 5))
  ∧ decode [0x66, 0x0F, 0x6F, 0x45, 0x00] = .ok (.movdqaXmmLoad 0 ⟨false, .base 5 (.disp8 0)⟩ 5)
  ∧ decode [0x66, 0x0F, 0x6F, 0x00] = .ok (.movdqaXmmLoad 0 ⟨false, .base 0 .none⟩ 4)
  ∧ ∀ s : State, gateOpen s.cfg .legacy → s.cfg.linearBits = 48 →
      (s.gpr 5 = 0x0000800000000000 →
        exec (.movdqaXmmLoad 0 ⟨false, .base 5 (.disp8 0)⟩ 5) s = .next (faulted s 12 .zero))
      ∧ (s.gpr 0 = 0x0000800000000000 →
        exec (.movdqaXmmLoad 0 ⟨false, .base 0 .none⟩ 4) s = .next (faulted s 13 .zero))

/-- R69, R203 (b): a memory operand whose address is not canonical and whose segment is not the stack segment raises
`#GP(0)`. -/
def Obligations.NonCanonicalDataOperandIsGeneralProtection : Prop :=
  ∀ (i : Instr) (o : Operand) (s : State), gateOpen s.cfg (encodingOf i) → operandOf i = some o → ¬ o.canon s →
    stackSegment o.m.form = false → exec i s = .next (faulted s 13 .zero)

/-- R63, R64, R203 (a): a memory operand that is not aligned to its size raises `#GP(0)`, whatever the writemask is and
whether or not the operand is accessible; nothing but the outcome changes. -/
def Obligations.MisalignedOperandIsGeneralProtection : Prop :=
  ∀ (i : Instr) (o : Operand) (s : State), gateOpen s.cfg (encodingOf i) → operandOf i = some o → o.canon s →
    ¬ o.aligned s → exec i s = .next (faulted s 13 .zero)

/-- R70 step 3, R77: a store whose bytes meet the program text is refused, whatever the writemask is. -/
def Obligations.StoreToProgramTextIsRefused : Prop :=
  ∀ (i : Instr) (o : Operand) (s : State), gateOpen s.cfg (encodingOf i) → operandOf i = some o → o.canon s →
    o.aligned s → o.hitsText s → exec i s = .next (refusedAs s .storeToProgramText)

/-- R70 step 4, R71, R205: an operand that passes the other tests and is not accessible raises `#PF`: the whole operand counts,
or, under `MASK_FAULT_SUPPRESSION`, the selected elements. That `Accessible(a, n, kind)` holds when it holds of each of the `n`
bytes, and so that one byte decides, is the model's choice (notes/assumptions/6.md). -/
def Obligations.InaccessibleOperandIsPageFault : Prop :=
  ∀ (i : Instr) (o : Operand) (s : State), gateOpen s.cfg (encodingOf i) → operandOf i = some o → o.canon s →
    o.aligned s → ¬ o.hitsText s → ¬ o.reachable s → exec i s = .next (faulted s 14 .unmodelled)

/-- R201, R202, R203, R205: each exception has only the causes of its rule. After a step that raised `#UD`, the bytes at `pc`
are an illegal encoding or the instruction is not enabled; after `#NM`, it is enabled and `CR0_TS = 1`; after `#GP`, the
instruction is longer than 15 bytes, or a byte of it is at a non-canonical address, or its operand is misaligned, or
non-canonical outside the stack segment; after `#PF`, a byte of it, or of its operand, is not accessible. (`#SS` is R204's.)
R205 speaks of the operand or a selected element of it: that it is not accessible exactly when one of its bytes is not is the
model's choice (notes/assumptions/6.md). -/
def Obligations.ExceptionsHaveTheirCauses : Prop :=
  ∀ (s t : State) (vector : Nat) (code : ErrorCode), step s = .next t → t.outcome = .fault vector code →
    (vector = 6 →
      (∃ n, (∀ b < n, fetchable s (byteAddr s.pc b)) ∧ decode (bytesAt s.mem s.pc n) = .error .ud)
      ∨ ∃ i, nextInstr s = .ok i ∧ ¬ enabled s.cfg (encodingOf i))
    ∧ (vector = 7 → ∃ i, nextInstr s = .ok i ∧ enabled s.cfg (encodingOf i) ∧ s.cfg.cr0Ts = true)
    ∧ (vector = 13 →
      (∃ n, (∀ b < n, fetchable s (byteAddr s.pc b)) ∧ decode (bytesAt s.mem s.pc n) = .error .gp)
      ∨ (∃ n, (∀ b < n, readable s (byteAddr s.pc b)) ∧ decode (bytesAt s.mem s.pc n) = .error .truncated
          ∧ canonical s.cfg.linearBits (byteAddr s.pc n) = false)
      ∨ ∃ i o, nextInstr s = .ok i ∧ gateOpen s.cfg (encodingOf i) ∧ operandOf i = some o
          ∧ ((¬ o.canon s ∧ stackSegment o.m.form = false) ∨ (o.canon s ∧ ¬ o.aligned s)))
    ∧ (vector = 14 →
      (∃ n, (∀ b < n, readable s (byteAddr s.pc b)) ∧ decode (bytesAt s.mem s.pc n) = .error .truncated
          ∧ canonical s.cfg.linearBits (byteAddr s.pc n) = true ∧ accessibleByte s.cfg .load (byteAddr s.pc n) = false)
      ∨ ∃ i o, nextInstr s = .ok i ∧ gateOpen s.cfg (encodingOf i) ∧ operandOf i = some o ∧ o.canon s ∧ o.aligned s
          ∧ ¬ o.hitsText s ∧ ¬ o.reachable s)

/-- R211: nothing else stops an instruction: with its gate open and its memory operand, if it has one, ready, it completes.
(That an operand is accessible when each of its bytes is, is the model's choice: notes/assumptions/6.md.) -/
def Obligations.NothingElseStopsAnInstruction : Prop :=
  ∀ (i : Instr) (s : State), gateOpen s.cfg (encodingOf i) → (∀ o, operandOf i = some o → o.ready s) →
    ∃ t, exec i s = .next t ∧ completes s t i.len

/-- R200, R212: a step that raises an exception sets `outcome` to `Fault` with a vector and code of the table of R200, and
every register, `pc` and memory keep the values they had before the instruction began. -/
def Obligations.ExceptionsArePrecise : Prop :=
  ∀ (s t : State) (vector : Nat) (code : ErrorCode), step s = .next t → t.outcome = .fault vector code →
    t = { s with outcome := .fault vector code }
    ∧ (vector, code) ∈ [(6, ErrorCode.none), (7, .none), (12, .zero), (13, .zero), (14, .unmodelled)]

/-- R36: an instruction executed in a running state either completes, and `pc` moves by its length, or changes nothing but the
outcome, and `pc` stays. -/
def Obligations.CompletesOrChangesOnlyTheOutcome : Prop :=
  ∀ (i : Instr) (s : State), s.outcome = .running →
    ∃ t, exec i s = .next t
      ∧ ((t.outcome = .running ∧ t.pc = s.pc + BitVec.ofNat 64 i.len)
        ∨ (t.outcome ≠ .running ∧ t = { s with outcome := t.outcome }))

/-- R111: two register copies change nothing but `pc`: a legacy SSE copy of a register to itself, and a 512-bit EVEX copy to
itself with merging-masking or no mask. The spec marks this as its own inference (from R140, R164 and R184). -/
def Obligations.SelfCopiesThatChangeOnlyThePc : Prop :=
  ∀ (r : VReg16) (q : VReg32) (aaa : OpmaskSel) (len : Nat) (s : State),
    (gateOpen s.cfg .legacy → ∀ i ∈ [Instr.movdqaXmmCopyRm r r len, .movdqaXmmCopyMr r r len],
      exec i s = .next { s with pc := s.pc + BitVec.ofNat 64 len })
    ∧ (gateOpen s.cfg (.evex .l512) →
      ∀ i ∈ [Instr.vmovdqa32ZmmCopyRm q q ⟨aaa, false⟩ len, .vmovdqa32ZmmCopyMr q q ⟨aaa, false⟩ len,
          .vmovdqa64ZmmCopyRm q q ⟨aaa, false⟩ len, .vmovdqa64ZmmCopyMr q q ⟨aaa, false⟩ len],
        exec i s = .next { s with pc := s.pc + BitVec.ofNat 64 len })

/-! ## What every step keeps -/

/-- Every step keeps memory in its canonical form (the model's, notes/assumptions/4.md). -/
def Obligations.StepKeepsMemoryCanonical : Prop :=
  ∀ s t : State, memWf s.mem → step s = .next t → memWf t.mem

/-- R33, R35, R217: no step writes a parameter, an opmask register or a general register. -/
def Obligations.StepKeepsParametersMasksAndGeneralRegisters : Prop :=
  ∀ s t : State, step s = .next t → t.cfg = s.cfg ∧ t.k = s.k ∧ t.x = s.x

/-- R77: the program text is fixed for the whole run: no step changes a byte of it. -/
def Obligations.StepKeepsTheProgramText : Prop :=
  ∀ (s t : State) (a : Addr), step s = .next t → inText s.cfg a = true → readByte t.mem a = readByte s.mem a

/-- R36, R240, R242: a launch state stands inside its text, and every step keeps that: while the text does not wrap and a
running state stands inside it, the next state, if it is still running, stands inside it too, and the refusal "pc outside
program text" does not arise. -/
def Obligations.StepKeepsRunningStatesInsideTheText : Prop :=
  (∀ s : State, isLaunch s → textInv s)
  ∧ ∀ s t : State, textInv s → step s = .next t →
    textInv t ∧ t.outcome ≠ .refused .pcOutsideProgramText

/-- R32: a legacy SSE or VEX instruction reaches `v[0]` to `v[15]` only: it writes none of `v[16]` to `v[31]`, and from states
that differ in those registers alone it comes to states that differ in those registers alone. -/
def Obligations.NarrowEncodingsReachOnlyTheLowRegisters : Prop :=
  ∀ (i : Instr) (s t : State), encodingOf i = .legacy ∨ encodingOf i = .vex → exec i s = .next t →
    (∀ n : VReg32, 16 ≤ n.toNat → t.vec n = s.vec n)
    ∧ ∀ v' : Vector (BitVec 512) 32, (∀ n : VReg32, n.toNat < 16 → State.vec { s with v := v' } n = s.vec n) →
      ∃ t', exec i { s with v := v' } = .next t' ∧ t' = { t with v := t'.v }
        ∧ ∀ n : VReg32, n.toNat < 16 → t'.vec n = t.vec n

/-- R43, R68, R141, R143: a load or a register copy writes no memory, and a store writes no vector, opmask or general
register. (The table of R43 is marked as collected from the instruction rules.) -/
def Obligations.OnlyStoresWriteMemory : Prop :=
  ∀ (i : Instr) (s t : State), exec i s = .next t →
    ((∀ o, operandOf i = some o → o.kind = .load) → ∀ a, readByte t.mem a = readByte s.mem a)
    ∧ ((∃ o, operandOf i = some o ∧ o.kind = .store) → (∀ n, t.vec n = s.vec n) ∧ t.k = s.k ∧ t.x = s.x)

/-! ## Masks -/

/-- R33, R34: an instruction reads bits `KL-1:0` of the opmask register that its `aaa` selects and no other bit of any opmask
register, `k[0]` never, and it writes none; and `KW` cannot be observed. -/
def Obligations.OnlySelectedMaskBitsAreRead : Prop :=
  ∀ (i : Instr) (s t : State), exec i s = .next t →
    (∀ k' : Vector (BitVec 64) 8,
      ((maskRead i).1 ≠ 0 → ∀ j < (maskRead i).2,
        (k'.get (maskRead i).1.toFin).getLsbD j = (s.k.get (maskRead i).1.toFin).getLsbD j) →
      exec i { s with k := k' } = .next { t with k := k' })
    ∧ t.k = s.k
    ∧ ∀ w : OpmaskWidth, exec i { s with cfg := { s.cfg with kw := w } } = .next { t with cfg := { t.cfg with kw := w } }

/-- 43_vmovdqa64_evex.md: without a writemask a `VMOVDQA64` form has the effect of the `VMOVDQA32` form of the same length,
opcode and operands. The spec marks this
as its own inference ("derived: with every element selected, MaskedMove returns its source whatever the element size"). -/
def Obligations.UnmaskedQuadwordAndDoublewordFormsAgree : Prop :=
  ∀ (dst src : VReg32) (m : MemOperand) (len : Nat) (s : State),
    ∀ p ∈ [(Instr.vmovdqa64XmmCopyRm dst src ⟨0, false⟩ len, Instr.vmovdqa32XmmCopyRm dst src ⟨0, false⟩ len),
        (.vmovdqa64YmmCopyRm dst src ⟨0, false⟩ len, .vmovdqa32YmmCopyRm dst src ⟨0, false⟩ len),
        (.vmovdqa64ZmmCopyRm dst src ⟨0, false⟩ len, .vmovdqa32ZmmCopyRm dst src ⟨0, false⟩ len),
        (.vmovdqa64XmmCopyMr dst src ⟨0, false⟩ len, .vmovdqa32XmmCopyMr dst src ⟨0, false⟩ len),
        (.vmovdqa64YmmCopyMr dst src ⟨0, false⟩ len, .vmovdqa32YmmCopyMr dst src ⟨0, false⟩ len),
        (.vmovdqa64ZmmCopyMr dst src ⟨0, false⟩ len, .vmovdqa32ZmmCopyMr dst src ⟨0, false⟩ len),
        (.vmovdqa64XmmLoad dst ⟨0, false⟩ m len, .vmovdqa32XmmLoad dst ⟨0, false⟩ m len),
        (.vmovdqa64YmmLoad dst ⟨0, false⟩ m len, .vmovdqa32YmmLoad dst ⟨0, false⟩ m len),
        (.vmovdqa64ZmmLoad dst ⟨0, false⟩ m len, .vmovdqa32ZmmLoad dst ⟨0, false⟩ m len),
        (.vmovdqa64XmmStore m 0 src len, .vmovdqa32XmmStore m 0 src len),
        (.vmovdqa64YmmStore m 0 src len, .vmovdqa32YmmStore m 0 src len),
        (.vmovdqa64ZmmStore m 0 src len, .vmovdqa32ZmmStore m 0 src len)],
      exec p.1 s = exec p.2 s

/-- R12: element `j` of `MaskedMove` is the source's where it is selected, else the old one (`z = 0`) or 0 (`z = 1`), and there
is nothing above the `KL` elements; so two calls that agree on element `j` of the inputs and bit `j` of the mask agree on
element `j` of the result. That last clause is the sentence "Element `j` of the result depends on element `j` of the inputs and
bit `j` of the mask and on nothing else" of R12, which the spec marks as its own inference ("derived: from the loop body"). -/
def Obligations.MaskedMoveWorksElementByElement : Prop :=
  (∀ (es : ElemSize) (vl : VecLen) (old src : VecWord) (sel : Nat → Bool) (z : Bool) (j : Nat),
    elemOf es (maskedMove es old (elemOf es src) sel z (elemCount vl es)) j =
      if elemCount vl es ≤ j then 0
      else if sel j then elemOf es src j else if z then 0 else elemOf es old j)
  ∧ ∀ (es : ElemSize) (vl : VecLen) (old src old' src' : VecWord) (sel sel' : Nat → Bool) (z : Bool) (j : Nat),
    elemOf es old j = elemOf es old' j → elemOf es src j = elemOf es src' j → sel j = sel' j →
    elemOf es (maskedMove es old (elemOf es src) sel z (elemCount vl es)) j =
      elemOf es (maskedMove es old' (elemOf es src') sel' z (elemCount vl es)) j

/-! ## Memory and addresses -/

/-- R62: bits `8b+7:8b` of `MemRead(a, n)` are the byte at `a + b` and there is nothing above; `MemWrite(a, n, e)` puts bits
`8b+7:8b` of `e` at `a + b` and changes no other byte; element `j` of a masked read is `MemRead` of that element; a masked
write does `MemWrite` for each selected element and touches no byte of the others; an element is selected when there is no
writemask or its bit of the writemask is 1; and no access to an aligned operand wraps at 2^64. -/
def Obligations.MemoryPrimitivesMoveBytes : Prop :=
  ∀ (m : List Host.Cell) (a : Addr) (e : VecWord),
    (∀ n ≤ 64,
      (∀ j < 512, (memRead m a n).getLsbD j = (decide (j < 8 * n) && (readByte m (byteAddr a (j / 8))).getLsbD (j % 8)))
      ∧ (∀ b < n, readByte (memWrite m a e n) (byteAddr a b) = e.extractLsb' (8 * b) 8)
      ∧ ∀ c, (∀ b < n, c ≠ byteAddr a b) → readByte (memWrite m a e n) c = readByte m c)
    ∧ (∀ (es : ElemSize) (vl : VecLen) (sel : Nat → Bool),
      (∀ (old : VecWord) (z : Bool), ∀ j < elemCount vl es,
        elemOf es (maskedMove es old (memElem m a es) sel z (elemCount vl es)) j =
          if sel j then memRead m (byteAddr a (j * es.bytes)) es.bytes else if z then 0 else elemOf es old j)
      ∧ (∀ j < elemCount vl es, sel j = true → ∀ b < es.bytes,
          readByte (memWriteMasked m a es sel e (elemCount vl es)) (byteAddr a (j * es.bytes + b)) =
            e.extractLsb' (8 * (j * es.bytes + b)) 8)
      ∧ ∀ c, (∀ j < elemCount vl es, sel j = true → ∀ b < es.bytes, c ≠ byteAddr a (j * es.bytes + b)) →
          readByte (memWriteMasked m a es sel e (elemCount vl es)) c = readByte m c)
    ∧ (∀ (s : State) (aaa : OpmaskSel), ∀ j < 16,
        s.selected aaa j = true ↔ aaa = 0 ∨ (s.k.get aaa.toFin).getLsbD j = true)
    ∧ ∀ n ∈ [16, 32, 64], a.toNat % n = 0 → ∀ b < n, (byteAddr a b).toNat = a.toNat + b

/-- R61: a narrower access sees the bytes the wider one put there: after a 64-byte store at `a`, the `n` bytes at `a + o` read
as bits `8(o+n)-1:8o` of the stored value; the rule's example is `o = 16`, `n = 16`. The spec marks this as its own inference
("derived: from the byte mapping"). -/
def Obligations.NarrowReadSeesPartOfWideWrite : Prop :=
  ∀ (m : List Host.Cell) (a : Addr) (e : VecWord) (o n : Nat), o + n ≤ 64 →
    memRead (memWrite m a e 64) (byteAddr a o) n = lowBits (8 * n) (e >>> (8 * o))

/-- R69: an address is canonical when its bits `63:LINEAR_BITS-1` are all equal; with `LINEAR_BITS` from 7 to 64, if an
aligned block's first byte is canonical then so are all its bytes (the spec's own inference: "derived: the boundaries of the
canonical ranges are multiples of 64"). -/
def Obligations.CanonicalMeansEqualTopBits : Prop :=
  ∀ (lb : Nat) (a : Addr), 1 ≤ lb → lb ≤ 64 →
    (canonical lb a = true ↔ ∀ i j, lb - 1 ≤ i → i < 64 → lb - 1 ≤ j → j < 64 → a.getLsbD i = a.getLsbD j)
    ∧ (7 ≤ lb → ∀ n ∈ [16, 32, 64], a.toNat % n = 0 → canonical lb a = true → ∀ b < n, canonical lb (byteAddr a b) = true)

/-- R99, R100, R101: the effective address is the exact sum of base, scaled index and sign-extended displacement (a `disp8`
times `n`), modulo 2^64, or modulo 2^32 with 32-bit addressing. -/
def Obligations.EffectiveAddressIsTheSumModulo : Prop :=
  ∀ (s : State) (m : MemOperand) (n len : Nat),
    ((s.effAddr m n len).toNat : Int) =
      (exactBase s len m.form + exactIndex s m.form + exactDisp n m.form) % (if m.addr32 then 2 ^ 32 else 2 ^ 64)

/-- R100: an address with 32-bit addressing is below 2^32 and, when `LINEAR_BITS` is 33 or more, canonical; and it depends only
on the low 32 bits of the general registers and of `pc`. -/
def Obligations.ShortAddressIsCanonicalAndReadsLowHalves : Prop :=
  ∀ (s : State) (f : AddrForm) (n len lb : Nat),
    (s.effAddr ⟨true, f⟩ n len).toNat < 2 ^ 32
    ∧ (33 ≤ lb → canonical lb (s.effAddr ⟨true, f⟩ n len) = true)
    ∧ ∀ t : State, (∀ r, (t.gpr r).setWidth 32 = (s.gpr r).setWidth 32) → t.pc.setWidth 32 = s.pc.setWidth 32 →
        t.effAddr ⟨true, f⟩ n len = s.effAddr ⟨true, f⟩ n len

/-! ## Reset -/

/-- R240: loading a program of at least one byte at `pc`, where the addresses of R240 are canonical and can be loaded from, gives
a launch state that holds the program, and changes no other byte of memory and no register. -/
def Obligations.LoadingAProgramGivesALaunchState : Prop :=
  ∀ (s : State) (bs : List Byte), 1 ≤ bs.length → s.pc.toNat + bs.length < 2 ^ 64 →
    (∀ b ≤ bs.length, canonical s.cfg.linearBits (byteAddr s.pc b) = true) →
    (∀ b < bs.length, accessibleByte s.cfg .load (byteAddr s.pc b) = true) →
    isLaunch (loadText s bs) ∧ bytesAt (loadText s bs).mem s.pc bs.length = bs
      ∧ (∀ a, (∀ b < bs.length, a ≠ byteAddr s.pc b) → readByte (loadText s bs).mem a = readByte s.mem a)
      ∧ (loadText s bs).v = s.v ∧ (loadText s bs).k = s.k ∧ (loadText s bs).x = s.x ∧ (loadText s bs).pc = s.pc

/-- R42, R240: the state at reset is a launch state, the parameters have the defaults of R6 and R38, so that every gate is open,
and memory is in canonical form. (That `State.reset` is this launch state, with `TEXT_BASE = 0x400000`, `TEXT_LEN = 1` and zero
registers, is the model's choice: notes/assumptions/2.md, 3.md, 4.md and 5.md.) -/
def Obligations.ResetIsTheLaunchState : Prop :=
  isLaunch State.reset ∧ textInv State.reset ∧ memWf State.reset.mem
  ∧ (∀ e, gateOpen State.reset.cfg e) ∧ State.reset.cfg.linearBits = 48 ∧ State.reset.cfg.kw.bits = 64
  ∧ State.reset.cfg.maskFaultSuppression = false
  ∧ (∀ n, State.reset.vec n = 0) ∧ (∀ n, State.reset.opmask n = 0) ∧ ∀ n, State.reset.gpr n = 0
end

