-- ==== Sys2Proof/Laws/State.lean ====
section
/-! SUPPORT. One lemma per field per update of the state, and the register file's read-after-write laws. -/

namespace Sys2Proof.Machine

variable (s : State) (n m : VReg32) (e : VecWord) (len : Nat) (x : Exc) (r : RefusedReason)

/-! ## setVec -/

@[simp] theorem setVec_cfg : (s.setVec n e).cfg = s.cfg := rfl
@[simp] theorem setVec_k : (s.setVec n e).k = s.k := rfl
@[simp] theorem setVec_x : (s.setVec n e).x = s.x := rfl
@[simp] theorem setVec_pc : (s.setVec n e).pc = s.pc := rfl
@[simp] theorem setVec_mem : (s.setVec n e).mem = s.mem := rfl
@[simp] theorem setVec_outcome : (s.setVec n e).outcome = s.outcome := rfl

/-! ## advance -/

@[simp] theorem advance_cfg : (s.advance len).cfg = s.cfg := rfl
@[simp] theorem advance_v : (s.advance len).v = s.v := rfl
@[simp] theorem advance_k : (s.advance len).k = s.k := rfl
@[simp] theorem advance_x : (s.advance len).x = s.x := rfl
@[simp] theorem advance_pc : (s.advance len).pc = s.pc + BitVec.ofNat 64 len := rfl
@[simp] theorem advance_mem : (s.advance len).mem = s.mem := rfl
@[simp] theorem advance_outcome : (s.advance len).outcome = s.outcome := rfl
@[simp] theorem advance_vec : (s.advance len).vec n = s.vec n := rfl

/-! ## raise, refuse -/

@[simp] theorem raise_cfg : (s.raise x).cfg = s.cfg := rfl
@[simp] theorem raise_v : (s.raise x).v = s.v := rfl
@[simp] theorem raise_k : (s.raise x).k = s.k := rfl
@[simp] theorem raise_x : (s.raise x).x = s.x := rfl
@[simp] theorem raise_pc : (s.raise x).pc = s.pc := rfl
@[simp] theorem raise_mem : (s.raise x).mem = s.mem := rfl
@[simp] theorem raise_outcome : (s.raise x).outcome = .fault x.vector x.code := rfl

@[simp] theorem refuse_cfg : (s.refuse r).cfg = s.cfg := rfl
@[simp] theorem refuse_v : (s.refuse r).v = s.v := rfl
@[simp] theorem refuse_k : (s.refuse r).k = s.k := rfl
@[simp] theorem refuse_x : (s.refuse r).x = s.x := rfl
@[simp] theorem refuse_pc : (s.refuse r).pc = s.pc := rfl
@[simp] theorem refuse_mem : (s.refuse r).mem = s.mem := rfl
@[simp] theorem refuse_outcome : (s.refuse r).outcome = .refused r := rfl

/-- The outcome a stop leaves. -/
def Stop.outcome : Stop → RunOutcome
  | .exc e => .fault e.vector e.code
  | .refuse r => .refused r

/-- A stop changes the outcome and nothing else. -/
theorem stop_eq (st : Stop) : s.stop st = { s with outcome := st.outcome } := by cases st <;> rfl

@[simp] theorem stop_exc : s.stop (.exc x) = s.raise x := rfl
@[simp] theorem stop_refuse : s.stop (.refuse r) = s.refuse r := rfl
@[simp] theorem stop_cfg (st : Stop) : (s.stop st).cfg = s.cfg := by cases st <;> rfl
@[simp] theorem stop_v (st : Stop) : (s.stop st).v = s.v := by cases st <;> rfl
@[simp] theorem stop_k (st : Stop) : (s.stop st).k = s.k := by cases st <;> rfl
@[simp] theorem stop_x (st : Stop) : (s.stop st).x = s.x := by cases st <;> rfl
@[simp] theorem stop_pc (st : Stop) : (s.stop st).pc = s.pc := by cases st <;> rfl
@[simp] theorem stop_mem (st : Stop) : (s.stop st).mem = s.mem := by cases st <;> rfl
@[simp] theorem stop_outcome (st : Stop) : (s.stop st).outcome = st.outcome := by cases st <;> rfl

/-- A stop never leaves a running state. -/
theorem stop_outcome_ne_running (st : Stop) : st.outcome ≠ .running := by cases st <;> simp [Stop.outcome]

/-! ## A store -/

@[simp] theorem withMem_vec (μ : List Host.Cell) : State.vec { s with mem := μ } n = s.vec n := rfl

/-! ## Vector registers: read after write -/

@[simp] theorem setVec_vec_self : (s.setVec n e).vec n = e := by
  simp [State.setVec, State.vec, Vector.get_eq_getElem]

theorem setVec_vec_ne (h : m ≠ n) : (s.setVec n e).vec m = s.vec m := by
  have : n.toNat ≠ m.toNat := fun h' => h (BitVec.eq_of_toNat_eq h').symm
  simp [State.setVec, State.vec, Vector.get_eq_getElem, Vector.getElem_set_ne, this]

/-- Writing back the value a register holds changes nothing. -/
theorem setVec_vec (h : e = s.vec n) : s.setVec n e = s := by
  subst h
  cases s
  simp [State.setVec, State.vec, Vector.get_eq_getElem]

/-- The number of a register named with 4 bits. -/
@[simp] theorem vreg_toNat (q : VReg16) : (vreg q).toNat = q.toNat := by
  simp only [vreg, BitVec.toNat_setWidth]
  omega

end Sys2Proof.Machine
end

