-- ==== Sys2Proof/Laws/Check.lean ====
section
/-! SUPPORT. What the tests before an effect answer: the gates (spec/60_exceptions.md R201, R202) and `CheckMem`
(spec/20_memory.md R70), each said once against the terms of Safety. -/

namespace Sys2Proof.Machine

/-! ## The gates -/

/-- The gate of an encoding family. -/
def gateOf : Encoding → Config → Option Stop
  | .legacy => gateSse
  | .vex => gateVex
  | .evex vl => gateEvex vl

/-- R201: what a gate answers when the instruction is not enabled. -/
theorem gateOf_disabled {c : Config} {e : Encoding} (h : ¬ enabled c e) : gateOf e c = some (.exc .ud) := by
  cases e with
  | legacy => simp only [gateOf, gateSse]; rw [if_pos]; revert h; simp [enabled]; grind
  | vex => simp only [gateOf, gateVex]; rw [if_pos]; revert h; simp [enabled]; grind
  | evex vl => simp only [gateOf, gateEvex]; rw [if_pos]; revert h; simp [enabled]; grind

/-- An enabled instruction is left to the `CR0_TS` test (R202). -/
theorem gateOf_enabled {c : Config} {e : Encoding} (h : enabled c e) : gateOf e c = gateNm c := by
  cases e with
  | legacy => obtain ⟨a, b, d⟩ := h; simp [gateOf, gateSse, a, b, d]
  | vex => obtain ⟨a, b, d⟩ := h; simp [gateOf, gateVex, a, b, d]
  | evex vl =>
    obtain ⟨a, b, d, e, f⟩ := h
    have : (vl != .l512 && !c.hasAvx512vl) = false := by rcases b with rfl | b <;> simp [*]
    simp [gateOf, gateEvex, a, this, d, e, f]

theorem gateNm_eq (c : Config) : gateNm c = if c.cr0Ts = true then some (.exc .nm) else none := rfl

/-- A gate stops nothing exactly when it is open. -/
theorem gateOf_eq_none {c : Config} {e : Encoding} : gateOf e c = none ↔ gateOpen c e := by
  by_cases h : enabled c e
  · simp [gateOf_enabled h, gateNm_eq, gateOpen, h]
  · simp [gateOf_disabled h, gateOpen, h]

/-- A gate stops with `#UD` or, when `CR0_TS = 1`, with `#NM`. -/
theorem gateOf_some {c : Config} {e : Encoding} {st : Stop} (h : gateOf e c = some st) :
    st = .exc .ud ∨ (st = .exc .nm ∧ c.cr0Ts = true) := by
  by_cases he : enabled c e
  · rw [gateOf_enabled he, gateNm_eq] at h
    split at h
    next ht => exact .inr ⟨(Option.some.inj h).symm, ht⟩
    · cases h
  · rw [gateOf_disabled he] at h
    exact .inl (Option.some.inj h).symm

/-! ## Accessibility -/

theorem accessible_eq_true {c : Config} {kind : AccessKind} {a : Addr} {n : Nat} :
    accessible c kind a n = true ↔ ∀ b < n, accessibleByte c kind (byteAddr a b) = true := by
  simp [accessible]

theorem meetsText_eq_true {c : Config} {a : Addr} {n : Nat} :
    meetsText c a n = true ↔ ∃ b < n, inText c (byteAddr a b) = true := by
  simp [meetsText]

/-- The elements of an operand that R70 step 4 asks about. -/
def Operand.elems (o : Operand) (s : State) : ElemSel := ⟨o.elemBytes, o.bytes / o.elemBytes, s.selected o.aaa⟩

/-- The elements fill the operand. -/
abbrev Operand.fits (o : Operand) : Prop := 0 < o.elemBytes ∧ o.bytes / o.elemBytes * o.elemBytes = o.bytes

theorem operandAccessible_eq_true {o : Operand} {s : State} (hf : o.fits) :
    operandAccessible s.cfg o.kind (o.ea s) o.bytes (o.elems s) = true ↔ o.reachable s := by
  obtain ⟨hpos, hfit⟩ := hf
  unfold operandAccessible Operand.reachable
  by_cases hm : s.cfg.maskFaultSuppression = true
  · simp only [hm, if_true, Operand.elems, List.all_eq_true, List.mem_range, Bool.or_eq_true, Bool.not_eq_true',
      accessible_eq_true, Bool.true_eq_false, false_or]
    constructor
    · intro h b hb hs
      have hj : b / o.elemBytes < o.bytes / o.elemBytes := by
        rw [Nat.div_lt_iff_lt_mul hpos, hfit]; exact hb
      have h := (h _ hj).resolve_left (by simp [hs]) (b % o.elemBytes) (Nat.mod_lt _ hpos)
      rwa [show byteAddr (byteAddr (o.ea s) (b / o.elemBytes * o.elemBytes)) (b % o.elemBytes) = byteAddr (o.ea s) b by
        simp only [byteAddr, BitVec.add_assoc, ← BitVec.ofNat_add]
        rw [Nat.mul_comm, Nat.div_add_mod]] at h
    · intro h j hj
      by_cases hs : s.selected o.aaa j = true
      · right
        intro b hb
        have hd : (j * o.elemBytes + b) / o.elemBytes = j := by
          rw [Nat.mul_comm, Nat.mul_add_div hpos, Nat.div_eq_of_lt hb, Nat.add_zero]
        have hlt : j * o.elemBytes + b < o.bytes := by
          have := Nat.mul_le_mul_right o.elemBytes (show j + 1 ≤ o.bytes / o.elemBytes by omega)
          rw [hfit, Nat.add_mul, Nat.one_mul] at this
          omega
        have h := h _ hlt (by rw [hd]; exact hs)
        simpa only [byteAddr, BitVec.add_assoc, ← BitVec.ofNat_add] using h
      · left; simpa using hs
  · have hm : s.cfg.maskFaultSuppression = false := by simpa using hm
    simp [hm, accessible_eq_true]

/-! ## CheckMem -/

/-- `CheckMem` on an operand. -/
def Operand.check (o : Operand) (s : State) : Option Stop :=
  checkMem s.cfg (stackSegment o.m.form) o.kind (o.ea s) o.bytes (o.elems s)

/-- R70: the five answers of `CheckMem`, in its order. -/
theorem check_cases {o : Operand} {s : State} (hf : o.fits) :
    (¬ o.canon s ∧ o.check s = some (.exc (if stackSegment o.m.form then .ss else .gp)))
    ∨ (o.canon s ∧ ¬ o.aligned s ∧ o.check s = some (.exc .gp))
    ∨ (o.canon s ∧ o.aligned s ∧ o.hitsText s ∧ o.check s = some (.refuse .storeToProgramText))
    ∨ (o.canon s ∧ o.aligned s ∧ ¬ o.hitsText s ∧ ¬ o.reachable s ∧ o.check s = some (.exc .pf))
    ∨ (o.ready s ∧ o.check s = none) := by
  have ht : (o.kind = .store ∧ meetsText s.cfg (o.ea s) o.bytes = true) ↔ o.hitsText s := by
    rw [meetsText_eq_true]
  have hr := operandAccessible_eq_true (s := s) hf
  unfold Operand.check checkMem
  by_cases h1 : o.canon s
  · right
    rw [if_neg (by simpa using h1)]
    by_cases h2 : o.aligned s
    · right
      rw [if_neg (by simpa using h2)]
      by_cases h3 : o.hitsText s
      · left
        rw [if_pos (ht.2 h3)]
        exact ⟨h1, h2, h3, rfl⟩
      · right
        rw [if_neg (fun h => h3 (ht.1 h))]
        by_cases h4 : o.reachable s
        · right
          rw [hr.2 h4]
          exact ⟨⟨h1, h2, h3, h4⟩, rfl⟩
        · left
          rw [if_pos (by simpa using fun h => h4 (hr.1 h))]
          exact ⟨h1, h2, h3, h4, rfl⟩
    · left
      rw [if_pos h2]
      exact ⟨h1, h2, rfl⟩
  · left
    rw [if_pos (by simpa using h1)]
    exact ⟨h1, rfl⟩

theorem check_eq_none {o : Operand} {s : State} (hf : o.fits) : o.check s = none ↔ o.ready s := by
  rcases check_cases (s := s) hf with ⟨h, e⟩ | ⟨_, h, e⟩ | ⟨_, _, h, e⟩ | ⟨_, _, _, h, e⟩ | ⟨h, e⟩
  · simp [e, Operand.ready, h]
  · simp [e, Operand.ready, h]
  · simp [e, Operand.ready, h]
  · simp only [e, reduceCtorEq, false_iff]; exact fun hr => h hr.2.2.2
  · simp only [e, true_iff]; exact h

end Sys2Proof.Machine
end

