-- ==== Sys2Proof/Laws/Decode.lean ====
section
/-! SUPPORT. What each stage of the decoder can answer, said once (spec/30_encoding.md R109): later proofs cite these lemmas and
do not unfold the stages. -/

namespace Sys2Proof

/-! ## Step 1: the legacy prefix bytes -/

/-- The sets of two runs of prefix bytes together. -/
def Prefixes.or (p q : Prefixes) : Prefixes :=
  ⟨p.opsize || q.opsize, p.addrsize || q.addrsize, p.lock || q.lock, p.repne || q.repne, p.rep || q.rep,
    p.segment || q.segment⟩

/-- The set of one prefix byte, `none` for another byte. -/
abbrev prefixOf (b : Byte) : Option Prefixes := Prefixes.empty.add b

theorem prefixes_add (p : Prefixes) (b : Byte) : p.add b = (prefixOf b).map p.or := by
  unfold prefixOf Prefixes.add
  repeat' split
  all_goals simp [Prefixes.or, Prefixes.empty]

theorem prefixes_add_none {p : Prefixes} {b : Byte} : p.add b = none ↔ prefixOf b = none := by
  rw [prefixes_add, Option.map_eq_none_iff]

theorem prefixes_or_assoc (p q r : Prefixes) : (p.or q).or r = p.or (q.or r) := by
  simp [Prefixes.or, Bool.or_assoc]

theorem prefixes_or_empty (p : Prefixes) : p.or .empty = p := by simp [Prefixes.or, Prefixes.empty]

theorem prefixes_empty_or (p : Prefixes) : Prefixes.or .empty p = p := by simp [Prefixes.or, Prefixes.empty]

/-- The set that a run of prefix bytes makes; `none` when one byte is no prefix. -/
def prefixRun : List Byte → Option Prefixes
  | [] => some .empty
  | b :: bs =>
    match prefixOf b, prefixRun bs with
    | some p, some q => some (p.or q)
    | _, _ => none

theorem prefixRun_cons {b : Byte} {bs : List Byte} {p q : Prefixes} (hb : prefixOf b = some p) (hq : prefixRun bs = some q) :
    prefixRun (b :: bs) = some (p.or q) := by
  simp [prefixRun, hb, hq]

theorem prefixRun_append {as bs : List Byte} {p q : Prefixes} (ha : prefixRun as = some p) (hb : prefixRun bs = some q) :
    prefixRun (as ++ bs) = some (p.or q) := by
  induction as generalizing p with
  | nil =>
    cases ha
    simpa [prefixes_empty_or] using hb
  | cons a as ih =>
    simp only [prefixRun] at ha
    cases hpa : prefixOf a with
    | none => simp [hpa] at ha
    | some pa =>
      cases hpr : prefixRun as with
      | none => simp [hpa, hpr] at ha
      | some pr =>
        simp only [hpa, hpr, Option.some.injEq] at ha
        subst ha
        simp [prefixRun, hpa, ih hpr, prefixes_or_assoc]

/-- R109 step 1 on a run of fewer than fifteen prefix bytes and another byte. -/
theorem scanPrefixes_run {pre : List Byte} {q : Prefixes} (hq : prefixRun pre = some q) {c : Byte} (hc : prefixOf c = none)
    (t : List Byte) (i : Nat) (p : Prefixes) (hi : i + pre.length < 15) :
    scanPrefixes (pre ++ c :: t) i p = .ok (p.or q, i + pre.length, c :: t) := by
  induction pre generalizing i p q with
  | nil =>
    cases hq
    simp only [List.length_nil, Nat.add_zero] at hi
    simp [scanPrefixes, prefixes_add_none.2 hc, prefixes_or_empty, Nat.ne_of_lt hi]
  | cons b bs ih =>
    simp only [prefixRun] at hq
    cases hpb : prefixOf b with
    | none => simp [hpb] at hq
    | some pb =>
      cases hpr : prefixRun bs with
      | none => simp [hpb, hpr] at hq
      | some pr =>
        simp only [hpb, hpr, Option.some.injEq] at hq
        subst hq
        simp only [List.length_cons] at hi
        simp only [List.cons_append, scanPrefixes, prefixes_add p b, hpb, Option.map_some, if_neg (show ¬ i = 15 by omega)]
        rw [ih hpr (i + 1) (p.or pb) (by omega), prefixes_or_assoc]
        simp only [List.length_cons, Except.ok.injEq, Prod.mk.injEq, true_and, and_true]
        omega

/-- R109 step 1 on a run of fifteen prefix bytes. -/
theorem scanPrefixes_long {pre : List Byte} {q : Prefixes} (hq : prefixRun pre = some q) (t : List Byte) (i : Nat)
    (p : Prefixes) (hi : i + pre.length = 15) : scanPrefixes (pre ++ t) i p = .error .gp := by
  induction pre generalizing i p q with
  | nil =>
    simp only [List.length_nil, Nat.add_zero] at hi
    cases t <;> simp [scanPrefixes, hi]
  | cons b bs ih =>
    simp only [prefixRun] at hq
    cases hpb : prefixOf b with
    | none => simp [hpb] at hq
    | some pb =>
      cases hpr : prefixRun bs with
      | none => simp [hpb, hpr] at hq
      | some pr =>
        simp only [List.length_cons] at hi
        simp only [List.cons_append, scanPrefixes, prefixes_add p b, hpb, Option.map_some, if_neg (show ¬ i = 15 by omega)]
        exact ih hpr _ _ (by omega)

/-- R109 step 1 on a run of fewer than fifteen prefix bytes and nothing more. -/
theorem scanPrefixes_end {pre : List Byte} {q : Prefixes} (hq : prefixRun pre = some q) (i : Nat) (p : Prefixes)
    (hi : i + pre.length < 15) : scanPrefixes pre i p = .error .truncated := by
  induction pre generalizing i p q with
  | nil =>
    simp only [List.length_nil, Nat.add_zero] at hi
    simp [scanPrefixes, Nat.ne_of_lt hi]
  | cons b bs ih =>
    simp only [prefixRun] at hq
    cases hpb : prefixOf b with
    | none => simp [hpb] at hq
    | some pb =>
      cases hpr : prefixRun bs with
      | none => simp [hpb, hpr] at hq
      | some pr =>
        simp only [List.length_cons] at hi
        simp only [scanPrefixes, prefixes_add p b, hpb, Option.map_some, if_neg (show ¬ i = 15 by omega)]
        exact ih hpr _ _ (by omega)

/-- Any bytes are of one of the three forms that step 1 meets. -/
theorem prefixRun_cases (bs : List Byte) :
    (∃ pre q c t, bs = pre ++ c :: t ∧ prefixRun pre = some q ∧ prefixOf c = none ∧ pre.length < 15)
    ∨ (∃ pre q t, bs = pre ++ t ∧ prefixRun pre = some q ∧ pre.length = 15)
    ∨ ∃ q, prefixRun bs = some q ∧ bs.length < 15 := by
  suffices h : ∀ n, (∃ pre q c t, bs = pre ++ c :: t ∧ prefixRun pre = some q ∧ prefixOf c = none ∧ pre.length < n)
      ∨ (∃ pre q t, bs = pre ++ t ∧ prefixRun pre = some q ∧ pre.length = n)
      ∨ ∃ q, prefixRun bs = some q ∧ bs.length < n from h 15
  induction bs with
  | nil =>
    intro n
    rcases n with _ | n
    · exact .inr (.inl ⟨[], _, [], rfl, rfl, rfl⟩)
    · exact .inr (.inr ⟨_, rfl, Nat.succ_pos n⟩)
  | cons b bs ih =>
    intro n
    rcases n with _ | n
    · exact .inr (.inl ⟨[], _, b :: bs, rfl, rfl, rfl⟩)
    · cases hb : prefixOf b with
      | none => exact .inl ⟨[], _, b, bs, rfl, rfl, hb, Nat.succ_pos n⟩
      | some p =>
        rcases ih n with ⟨pre, q, c, t, rfl, hq, hc, hl⟩ | ⟨pre, q, t, rfl, hq, hl⟩ | ⟨q, hq, hl⟩
        · exact .inl ⟨b :: pre, _, c, t, rfl, prefixRun_cons hb hq, hc, Nat.succ_lt_succ hl⟩
        · exact .inr (.inl ⟨b :: pre, _, t, rfl, prefixRun_cons hb hq, congrArg Nat.succ hl⟩)
        · exact .inr (.inr ⟨_, prefixRun_cons hb hq, Nat.succ_lt_succ hl⟩)

/-! ## The stages in sequence -/

/-- `Decode` after the legacy prefix bytes: `i` of them, which made the set `p`. -/
def decodeRest (p : Prefixes) (i : Nat) (bs : List Byte) : Except Reject Instr := do
  let (rex, bs) ← takeRex bs
  if p.segment then .error (.notInScope .segmentOverride)
  else do
    let (h, n, bs) ← decodeHead p rex bs
    let (reg, rm) ← decodeModRm h.x h.b bs
    judge h p.addrsize reg rm (i + rex.isSome.toNat + n + rm.size)

theorem decode_run {pre : List Byte} {q : Prefixes} (hq : prefixRun pre = some q) {c : Byte} (hc : prefixOf c = none)
    (t : List Byte) (hl : pre.length < 15) : decode (pre ++ c :: t) = decodeRest q pre.length (c :: t) := by
  unfold decode decodeRest
  rw [scanPrefixes_run hq hc t 0 .empty (by omega), prefixes_empty_or, Nat.zero_add]
  rfl

theorem decode_long {pre : List Byte} {q : Prefixes} (hq : prefixRun pre = some q) (t : List Byte) (hl : pre.length = 15) :
    decode (pre ++ t) = .error .gp := by
  unfold decode
  rw [scanPrefixes_long hq t 0 .empty (by omega)]
  rfl

theorem decode_end {pre : List Byte} {q : Prefixes} (hq : prefixRun pre = some q) (hl : pre.length < 15) :
    decode pre = .error .truncated := by
  unfold decode
  rw [scanPrefixes_end hq 0 .empty (by omega)]
  rfl

/-- A REX byte. -/
abbrev isRex (b : Byte) : Prop := b.extractLsb' 4 4 = 4#4

theorem takeRex_rex {b : Byte} (h : isRex b) (bs : List Byte) : takeRex (b :: bs) = .ok (some b, bs) := by simp [takeRex, h]

theorem takeRex_other {b : Byte} (h : ¬ isRex b) (bs : List Byte) : takeRex (b :: bs) = .ok (none, b :: bs) := by
  simp [takeRex, h]

/-- A REX byte is no legacy prefix byte. -/
theorem prefixOf_rex {b : Byte} (h : isRex b) : prefixOf b = none := by
  revert h
  unfold isRex
  revert b
  decide

/-- `Decode` after the prefix bytes and the REX byte, if there is one; `i` of them. -/
def decodeBody (p : Prefixes) (rex : Option Byte) (i : Nat) (bs : List Byte) : Except Reject Instr :=
  if p.segment then .error (.notInScope .segmentOverride)
  else do
    let (h, n, bs) ← decodeHead p rex bs
    let (reg, rm) ← decodeModRm h.x h.b bs
    judge h p.addrsize reg rm (i + n + rm.size)

theorem decodeRest_rex {b : Byte} (h : isRex b) (p : Prefixes) (i : Nat) (bs : List Byte) :
    decodeRest p i (b :: bs) = decodeBody p (some b) (i + 1) bs := by
  unfold decodeRest decodeBody
  rw [takeRex_rex h]
  rfl

theorem decodeRest_other {b : Byte} (h : ¬ isRex b) (p : Prefixes) (i : Nat) (bs : List Byte) :
    decodeRest p i (b :: bs) = decodeBody p none i (b :: bs) := by
  unfold decodeRest decodeBody
  rw [takeRex_other h]
  rfl

/-! ## Each stage reads a first part of its bytes and no more -/

/-- The head takes its `n` bytes and leaves the others. -/
theorem decodeHead_ok {p : Prefixes} {rex : Option Byte} {bs : List Byte} {h : Head} {n : Nat} {tl : List Byte}
    (e : decodeHead p rex bs = .ok (h, n, tl)) :
    ∃ c, bs = c ++ tl ∧ c.length = n ∧ 0 < n ∧ ∀ tl', decodeHead p rex (c ++ tl') = .ok (h, n, tl') := by
  have hv : ∀ r x b map pay op (m : Nat) (t : List Byte),
      (vexHead p rex r x b map pay op >>= fun h => (Except.ok (h, m, t) : Except Reject _)) = .ok (h, n, tl) →
      vexHead p rex r x b map pay op = .ok h ∧ m = n ∧ t = tl := by
    intro r x b map pay op m t e
    cases hh : vexHead p rex r x b map pay op with
    | error r => rw [hh] at e; cases e
    | ok h' =>
      rw [hh] at e
      cases e
      exact ⟨rfl, rfl, rfl⟩
  match bs with
  | [] => cases e
  | a :: bs =>
    simp only [decodeHead] at e
    split at e
    next ha =>
      match bs with
      | [] => cases e
      | op :: t =>
        simp only [legacyHead] at e
        split at e
        · cases e
        · split at e
          · cases e
          next h1 h2 =>
            cases e
            exact ⟨[a, op], rfl, rfl, by decide, fun tl' => by simp [decodeHead, ha, legacyHead, h1, h2]⟩
    · split at e
      next ha =>
        match bs with
        | [] => cases e
        | [_] => cases e
        | pay :: op :: t =>
          obtain ⟨hh, rfl, rfl⟩ := hv _ _ _ _ _ _ _ _ e
          exact ⟨[a, pay, op], rfl, rfl, by decide, fun tl' => by
            simp only [decodeHead, ha, List.cons_append, List.nil_append]
            simp only [vex2Head, hh]
            rfl⟩
      · split at e
        next ha =>
          match bs with
          | [] => cases e
          | [_] => cases e
          | [_, _] => cases e
          | b1 :: pay :: op :: t =>
            obtain ⟨hh, rfl, rfl⟩ := hv _ _ _ _ _ _ _ _ e
            exact ⟨[a, b1, pay, op], rfl, rfl, by decide, fun tl' => by
              simp only [decodeHead, ha, List.cons_append, List.nil_append]
              simp only [vex3Head, hh]
              rfl⟩
        · split at e
          next ha =>
            match bs with
            | [] => cases e
            | [_] => cases e
            | [_, _] => cases e
            | [_, _, _] => cases e
            | p0 :: p1 :: p2 :: op :: t =>
              simp only [evexHead] at e
              split at e
              · cases e
              next h1 =>
                cases e
                exact ⟨[a, p0, p1, p2, op], rfl, rfl, by decide, fun tl' => by
                  simp only [decodeHead, ha, List.cons_append, List.nil_append]
                  simp only [evexHead, h1]
                  rfl⟩
          · cases e

/-- What the head rejects it rejects whatever follows, and it never answers `#UD` or `#GP` itself. -/
theorem decodeHead_error {p : Prefixes} {rex : Option Byte} {bs : List Byte} {r : Reject}
    (e : decodeHead p rex bs = .error r) :
    r = .truncated ∨ ((∃ why, r = .notInScope why) ∧ ∀ rest, decodeHead p rex (bs ++ rest) = .error r) := by
  have hv : ∀ r' x b map pay op (m : Nat) (t : List Byte),
      (vexHead p rex r' x b map pay op >>= fun h => (Except.ok (h, m, t) : Except Reject _)) = .error r →
      vexHead p rex r' x b map pay op = .error r ∧ r = .notInScope .opcode := by
    intro r' x b map pay op m t e
    unfold vexHead at e ⊢
    split at e
    next hc => cases e; exact ⟨if_pos hc, rfl⟩
    · cases e
  match bs with
  | [] => cases e; exact .inl rfl
  | a :: bs =>
    simp only [decodeHead] at e
    split at e
    next ha =>
      match bs with
      | [] => cases e; exact .inl rfl
      | op :: t =>
        simp only [legacyHead] at e
        split at e
        next h1 => cases e; exact .inr ⟨⟨_, rfl⟩, fun rest => by simp [decodeHead, ha, legacyHead, h1]⟩
        · split at e
          next h1 h2 => cases e; exact .inr ⟨⟨_, rfl⟩, fun rest => by simp [decodeHead, ha, legacyHead, h1, h2]⟩
          · cases e
    · split at e
      next ha =>
        match bs with
        | [] => cases e; exact .inl rfl
        | [_] => cases e; exact .inl rfl
        | pay :: op :: t =>
          obtain ⟨hh, hr⟩ := hv _ _ _ _ _ _ _ _ e
          exact .inr ⟨⟨_, hr⟩, fun rest => by
            simp only [decodeHead, ha, List.cons_append]
            simp only [vex2Head, hh]
            rfl⟩
      · split at e
        next ha =>
          match bs with
          | [] => cases e; exact .inl rfl
          | [_] => cases e; exact .inl rfl
          | [_, _] => cases e; exact .inl rfl
          | b1 :: pay :: op :: t =>
            obtain ⟨hh, hr⟩ := hv _ _ _ _ _ _ _ _ e
            exact .inr ⟨⟨_, hr⟩, fun rest => by
              simp only [decodeHead, ha, List.cons_append]
              simp only [vex3Head, hh]
              rfl⟩
        · split at e
          next ha =>
            match bs with
            | [] => cases e; exact .inl rfl
            | [_] => cases e; exact .inl rfl
            | [_, _] => cases e; exact .inl rfl
            | [_, _, _] => cases e; exact .inl rfl
            | p0 :: p1 :: p2 :: op :: t =>
              simp only [evexHead] at e
              split at e
              next h1 =>
                cases e
                exact .inr ⟨⟨_, rfl⟩, fun rest => by
                  simp only [decodeHead, ha, List.cons_append]
                  simp only [evexHead, h1]
                  rfl⟩
              · cases e
          next h0 h1 h2 h3 =>
            cases e
            exact .inr ⟨⟨_, rfl⟩, fun rest => by simp [decodeHead, h0, h1, h2, h3]⟩

/-- A displacement takes its bytes. -/
theorem takeDisp_ok {mod : BitVec 2} {bs : List Byte} {d : Disp} (e : takeDisp mod bs = .ok d) :
    ∃ c tl, bs = c ++ tl ∧ c.length = d.size ∧ (d = .none → mod = 0b00#2) ∧ ∀ tl', takeDisp mod (c ++ tl') = .ok d := by
  simp only [takeDisp] at e
  split at e
  next hm => cases e; exact ⟨[], bs, rfl, rfl, fun _ => hm, fun tl' => by simp [takeDisp, hm]⟩
  · split at e
    next hm =>
      match bs with
      | [] => cases e
      | b :: t => cases e; exact ⟨[b], t, rfl, rfl, nofun, fun tl' => by simp [takeDisp, hm, takeDisp8]; rfl⟩
    next h0 h1 =>
      match bs with
      | [] => cases e
      | [_] => cases e
      | [_, _] => cases e
      | [_, _, _] => cases e
      | b0 :: b1 :: b2 :: b3 :: t =>
        cases e
        exact ⟨[b0, b1, b2, b3], t, rfl, rfl, nofun, fun tl' => by simp [takeDisp, h0, h1, takeDisp32]; rfl⟩

theorem takeDisp32_ok {bs : List Byte} {d : BitVec 32} (e : takeDisp32 bs = .ok d) :
    ∃ c tl, bs = c ++ tl ∧ c.length = 4 ∧ ∀ tl', takeDisp32 (c ++ tl') = .ok d := by
  match bs with
  | [] => cases e
  | [_] => cases e
  | [_, _] => cases e
  | [_, _, _] => cases e
  | b0 :: b1 :: b2 :: b3 :: t => exact ⟨[b0, b1, b2, b3], t, rfl, rfl, fun tl' => e⟩

theorem takeDisp_error {mod : BitVec 2} {bs : List Byte} {r : Reject} (e : takeDisp mod bs = .error r) : r = .truncated := by
  simp only [takeDisp] at e
  split at e
  · cases e
  · split at e
    · match bs with
      | [] => cases e; rfl
      | b :: t => cases e
    · match bs with
      | [] => cases e; rfl
      | [_] => cases e; rfl
      | [_, _] => cases e; rfl
      | [_, _, _] => cases e; rfl
      | b0 :: b1 :: b2 :: b3 :: t => cases e

theorem takeDisp32_error {bs : List Byte} {r : Reject} (e : takeDisp32 bs = .error r) : r = .truncated := by
  match bs with
  | [] => cases e; rfl
  | [_] => cases e; rfl
  | [_, _] => cases e; rfl
  | [_, _, _] => cases e; rfl
  | b0 :: b1 :: b2 :: b3 :: t => cases e

/-- The low bits of a register number are its field. -/
theorem low3_num4 (hi : Bool) (lo : BitVec 3) : low3 (num4 hi lo) = lo := by
  cases hi <;> revert lo <;> decide

theorem low3_num5 (hi mid : Bool) (lo : BitVec 3) : low3 (num5 hi mid lo) = lo := by
  cases hi <;> cases mid <;> revert lo <;> decide

theorem num4_bit (hi : Bool) (lo : BitVec 3) : (num4 hi lo).getLsbD 3 = hi := by
  cases hi <;> revert lo <;> decide

/-- An address form takes its bytes, obeys R99 and has extension bits among those given. -/
theorem decodeAddr_ok {x b : Bool} {mod : BitVec 2} {rm : BitVec 3} {bs : List Byte} {a : AddrForm}
    (e : decodeAddr x b mod rm bs = .ok a) :
    a.wf = true ∧ (a.xBit = true → x = true) ∧ (a.bBit = true → b = true)
      ∧ ∃ c tl, bs = c ++ tl ∧ c.length + 1 = a.tailSize ∧ ∀ tl', decodeAddr x b mod rm (c ++ tl') = .ok a := by
  have hbase : ∀ d : Disp, (d = .none → mod = 0b00#2) → ¬ mod = 0b00#2 → (d != .none) = true := by
    intro d h h'
    cases d with
    | none => exact absurd (h rfl) h'
    | _ => rfl
  simp only [decodeAddr] at e
  split at e
  next hrm =>
    match bs with
    | [] => cases e
    | sib :: t =>
      simp only at e
      split at e
      next hs =>
        cases hd : takeDisp32 t with
        | error r => rw [hd] at e; cases e
        | ok d =>
          rw [hd] at e
          cases e
          obtain ⟨c, tl, rfl, hl, hc⟩ := takeDisp32_ok hd
          refine ⟨rfl, ?_, nofun, sib :: c, tl, rfl, by simp [AddrForm.tailSize, hl], fun tl' => ?_⟩
          · simp only [AddrForm.xBit, num4_bit]
            exact id
          · simp only [decodeAddr, hrm, List.cons_append, hs, hc, if_true, and_self]
            rfl
      next hs =>
        cases hd : takeDisp mod t with
        | error r => rw [hd] at e; cases e
        | ok d =>
          rw [hd] at e
          cases e
          obtain ⟨c, tl, rfl, hl, hm, hc⟩ := takeDisp_ok hd
          refine ⟨?_, ?_, ?_, sib :: c, tl, rfl, by simp [AddrForm.tailSize, hl]; omega, fun tl' => ?_⟩
          · simp only [AddrForm.wf, low3_num4, Bool.or_eq_true, bne_iff_ne, ne_eq]
            by_cases hdn : d = .none
            · exact .inr fun h => hs ⟨h, hm hdn⟩
            · exact .inl hdn
          · simp only [AddrForm.xBit, num4_bit]
            exact id
          · simp only [AddrForm.bBit, num4_bit]
            exact id
          · simp only [decodeAddr, hrm, List.cons_append, hs, hc, if_true, if_false]
            rfl
  next hrm =>
    split at e
    next hr =>
      cases hd : takeDisp32 bs with
      | error r => rw [hd] at e; cases e
      | ok d =>
        rw [hd] at e
        cases e
        obtain ⟨c, tl, rfl, hl, hc⟩ := takeDisp32_ok hd
        refine ⟨rfl, nofun, nofun, c, tl, rfl, by simp [AddrForm.tailSize, hl], fun tl' => ?_⟩
        simp only [decodeAddr, if_neg hrm, if_pos hr, hc]
        rfl
    next hr =>
      cases hd : takeDisp mod bs with
      | error r => rw [hd] at e; cases e
      | ok d =>
        rw [hd] at e
        cases e
        obtain ⟨c, tl, rfl, hl, hm, hc⟩ := takeDisp_ok hd
        refine ⟨?_, nofun, ?_, c, tl, rfl, by simp [AddrForm.tailSize, hl]; omega, fun tl' => ?_⟩
        · simp only [AddrForm.wf, low3_num4, Bool.or_eq_true, bne_iff_ne, ne_eq, Bool.and_eq_true]
          refine ⟨hrm, ?_⟩
          by_cases hdn : d = .none
          · exact .inr fun h => hr ⟨h, hm hdn⟩
          · exact .inl hdn
        · simp only [AddrForm.bBit, num4_bit]
          exact id
        · simp only [decodeAddr, if_neg hrm, if_neg hr, hc]
          rfl

theorem decodeAddr_error {x b : Bool} {mod : BitVec 2} {rm : BitVec 3} {bs : List Byte} {r : Reject}
    (e : decodeAddr x b mod rm bs = .error r) : r = .truncated := by
  have h32 : ∀ (t : List Byte) (f : BitVec 32 → AddrForm),
      (takeDisp32 t >>= fun d => (Except.ok (f d) : Except Reject _)) = .error r → r = .truncated := by
    intro t f e
    cases hd : takeDisp32 t with
    | error r' => rw [hd] at e; cases e; exact takeDisp32_error hd
    | ok d => rw [hd] at e; cases e
  have hdisp : ∀ (t : List Byte) (f : Disp → AddrForm),
      (takeDisp mod t >>= fun d => (Except.ok (f d) : Except Reject _)) = .error r → r = .truncated := by
    intro t f e
    cases hd : takeDisp mod t with
    | error r' => rw [hd] at e; cases e; exact takeDisp_error hd
    | ok d => rw [hd] at e; cases e
  simp only [decodeAddr] at e
  split at e
  · match bs with
    | [] => cases e; rfl
    | sib :: t =>
      simp only at e
      split at e
      · exact h32 _ _ e
      · exact hdisp _ _ e
  · split at e
    · exact h32 _ _ e
    · exact hdisp _ _ e

/-- What an operand in `ModRM:r/m` can be. -/
def RmOperand.ok (x b : Bool) : RmOperand → Prop
  | .reg _ => True
  | .mem a => a.wf = true ∧ (a.xBit = true → x = true) ∧ (a.bBit = true → b = true)

/-- ModRM and what follows it take their bytes. -/
theorem decodeModRm_ok {x b : Bool} {bs : List Byte} {reg : BitVec 3} {rm : RmOperand}
    (e : decodeModRm x b bs = .ok (reg, rm)) :
    rm.ok x b ∧ ∃ c tl, bs = c ++ tl ∧ c.length = rm.size ∧ ∀ tl', decodeModRm x b (c ++ tl') = .ok (reg, rm) := by
  match bs with
  | [] => cases e
  | m :: t =>
    simp only [decodeModRm] at e
    split at e
    next hm =>
      cases e
      exact ⟨trivial, [m], t, rfl, rfl, fun tl' => by simp [decodeModRm, hm]⟩
    next hm =>
      cases ha : decodeAddr x b (m.extractLsb' 6 2) (m.extractLsb' 0 3) t with
      | error r => rw [ha] at e; cases e
      | ok a =>
        rw [ha] at e
        cases e
        obtain ⟨hw, hx, hb, c, tl, rfl, hl, hc⟩ := decodeAddr_ok ha
        refine ⟨⟨hw, hx, hb⟩, m :: c, tl, rfl, by simp [RmOperand.size, ← hl], fun tl' => ?_⟩
        simp only [decodeModRm, List.cons_append, if_neg hm, hc]
        rfl

theorem decodeModRm_error {x b : Bool} {bs : List Byte} {r : Reject} (e : decodeModRm x b bs = .error r) :
    r = .truncated := by
  match bs with
  | [] => cases e; rfl
  | m :: t =>
    simp only [decodeModRm] at e
    split at e
    · cases e
    · cases ha : decodeAddr x b (m.extractLsb' 6 2) (m.extractLsb' 0 3) t with
      | error r' => rw [ha] at e; cases e; exact decodeAddr_error ha
      | ok a => rw [ha] at e; cases e

/-! ## The answers of the decoder after the prefix bytes -/

/-- The answers of `decodeBody`, each with the bytes it read. -/
theorem decodeBody_cases (p : Prefixes) (rex : Option Byte) (i : Nat) (bs : List Byte) :
    (p.segment = true ∧ decodeBody p rex i bs = .error (.notInScope .segmentOverride))
    ∨ (p.segment = false ∧
      ((decodeBody p rex i bs = .error .truncated)
      ∨ (∃ why, ∀ rest, decodeHead p rex (bs ++ rest) = .error (.notInScope why)
          ∧ decodeBody p rex i (bs ++ rest) = .error (.notInScope why))
      ∨ ∃ h n reg rm c d tl, bs = c ++ (d ++ tl) ∧ c.length = n ∧ 0 < n ∧ d.length = rm.size ∧ rm.ok h.x h.b
          ∧ (∀ tl', decodeHead p rex (c ++ tl') = .ok (h, n, tl'))
          ∧ (∀ tl', decodeModRm h.x h.b (d ++ tl') = .ok (reg, rm))
          ∧ ∀ tl', decodeBody p rex i (c ++ (d ++ tl')) = judge h p.addrsize reg rm (i + n + rm.size))) := by
  by_cases hs : p.segment = true
  · exact .inl ⟨hs, by simp [decodeBody, hs]⟩
  · refine .inr ⟨by simpa using hs, ?_⟩
    have hb : ∀ bs, decodeBody p rex i bs = (do
        let (h, n, bs) ← decodeHead p rex bs
        let (reg, rm) ← decodeModRm h.x h.b bs
        judge h p.addrsize reg rm (i + n + rm.size)) := fun bs => by simp [decodeBody, hs]
    cases hh : decodeHead p rex bs with
    | error r =>
      rcases decodeHead_error hh with rfl | ⟨⟨why, rfl⟩, hr⟩
      · exact .inl (by rw [hb, hh]; rfl)
      · exact .inr (.inl ⟨why, fun rest => ⟨hr rest, by rw [hb, hr]; rfl⟩⟩)
    | ok q =>
      obtain ⟨h, n, tl⟩ := q
      obtain ⟨c, rfl, hl, hn, hc⟩ := decodeHead_ok hh
      cases hm : decodeModRm h.x h.b tl with
      | error r =>
        have := decodeModRm_error hm
        subst this
        exact .inl (by rw [hb, hh]; simp only [bind, Except.bind, hm])
      | ok q =>
        obtain ⟨reg, rm⟩ := q
        obtain ⟨hok, d, t, rfl, hd, hdc⟩ := decodeModRm_ok hm
        refine .inr (.inr ⟨h, n, reg, rm, c, d, t, rfl, hl, hn, hd, hok, hc, hdc, fun tl' => ?_⟩)
        rw [hb, hc]
        simp only [bind, Except.bind, hdc]

/-- What the decoder rejects for another reason than the end of its bytes, it rejects whatever follows. -/
theorem decode_error_append {bs : List Byte} {r : Reject} (e : decode bs = .error r) (hr : r ≠ .truncated)
    (rest : List Byte) : decode (bs ++ rest) = .error r := by
  have hbody : ∀ p rex i bs, decodeBody p rex i bs = .error r → decodeBody p rex i (bs ++ rest) = .error r := by
    intro p rex i bs e
    rcases decodeBody_cases p rex i bs with ⟨hs, h⟩ | ⟨hs, h | ⟨why, h⟩ | ⟨h, n, reg, rm, c, d, tl, rfl, -, -, -, -, -, -, hj⟩⟩
    · rw [h] at e
      rw [← e]
      simp [decodeBody, hs]
    · rw [h] at e
      exact absurd (Except.error.inj e).symm hr
    · have h0 := (h []).2
      rw [List.append_nil] at h0
      rw [(h rest).2, ← h0, e]
    · rw [List.append_assoc, List.append_assoc, hj, ← hj tl, e]
  rcases prefixRun_cases bs with ⟨pre, q, c, t, rfl, hq, hc, hl⟩ | ⟨pre, q, t, rfl, hq, hl⟩ | ⟨q, hq, hl⟩
  · rw [decode_run hq hc t hl] at e
    rw [List.append_assoc, List.cons_append, decode_run hq hc _ hl]
    by_cases hx : isRex c
    · rw [decodeRest_rex hx] at e ⊢
      exact hbody _ _ _ _ e
    · rw [decodeRest_other hx] at e ⊢
      exact hbody _ _ _ _ e
  · rw [decode_long hq t hl] at e
    rw [List.append_assoc, decode_long hq _ hl, e]
  · rw [decode_end hq hl] at e
    exact absurd (Except.error.inj e).symm hr

/-! ## Steps 6 to 8 -/

/-- What an answered instruction says of the fields it came from. -/
theorem judge_ok {h : Head} {addr32 : Bool} {reg : BitVec 3} {rm : RmOperand} {len : Nat} {i : Instr}
    (e : judge h addr32 reg rm len = .ok i) :
    len ≤ 15 ∧ h.bad = false ∧ zeroingStore h rm = false ∧ i = assemble h addr32 reg rm len := by
  simp only [judge] at e
  split at e
  · cases e
  next hl =>
    split at e
    · cases e
    next hb =>
      simp only [Bool.or_eq_true, not_or, Bool.not_eq_true] at hb
      exact ⟨by omega, hb.1, hb.2, (Except.ok.inj e).symm⟩

/-- The length limit is tested before the illegal fields, and both before the instruction is put together (R109). -/
theorem judge_eq_ok {h : Head} {addr32 : Bool} {reg : BitVec 3} {rm : RmOperand} {len : Nat} (hl : len ≤ 15)
    (hb : h.bad = false) (hz : zeroingStore h rm = false) :
    judge h addr32 reg rm len = .ok (assemble h addr32 reg rm len) := by
  simp [judge, hb, hz, show ¬ 15 < len by omega]

theorem judge_eq_ud {h : Head} {addr32 : Bool} {reg : BitVec 3} {rm : RmOperand} {len : Nat} (hl : len ≤ 15)
    (hb : h.bad = true ∨ zeroingStore h rm = true) : judge h addr32 reg rm len = .error .ud := by
  simp [judge, show ¬ 15 < len by omega, hb]

/-- The instruction has the length that was counted. -/
theorem assemble_len (h : Head) (addr32 : Bool) (reg : BitVec 3) (rm : RmOperand) (len : Nat) :
    (assemble h addr32 reg rm len).len = len := by
  obtain ⟨kind, op7F, rHi, r, x, b, bad⟩ := h
  cases kind with
  | legacy => cases op7F <;> cases rm <;> rfl
  | vex l256 => cases l256 <;> cases op7F <;> cases rm <;> rfl
  | evex es vl mask => cases es <;> cases vl <;> cases op7F <;> cases rm <;> rfl

/-! ## How many bytes the decoder can ask for -/

theorem decodeHead_truncated {p : Prefixes} {rex : Option Byte} {bs : List Byte}
    (e : decodeHead p rex bs = .error .truncated) : bs.length < 5 := by
  by_contra hge
  match bs with
  | [] | [_] | [_, _] | [_, _, _] | [_, _, _, _] => simp at hge
  | a :: b :: c :: d :: f :: t =>
    have hv : ∀ r x y map pay op (m : Nat) (t : List Byte),
        (vexHead p rex r x y map pay op >>= fun h => (Except.ok (h, m, t) : Except Reject _)) ≠ .error .truncated := by
      intro r x y map pay op m t e
      unfold vexHead at e
      split at e <;> cases e
    simp only [decodeHead] at e
    split at e
    · simp only [legacyHead] at e
      split at e
      · cases e
      · split at e <;> cases e
    · split at e
      · exact hv _ _ _ _ _ _ _ _ e
      · split at e
        · exact hv _ _ _ _ _ _ _ _ e
        · split at e
          · simp only [evexHead] at e
            split at e <;> cases e
          · cases e

theorem takeDisp_truncated {mod : BitVec 2} {bs : List Byte} (e : takeDisp mod bs = .error .truncated) : bs.length < 4 := by
  by_contra hge
  match bs with
  | [] | [_] | [_, _] | [_, _, _] => simp at hge
  | b0 :: b1 :: b2 :: b3 :: t =>
    simp only [takeDisp] at e
    split at e
    · cases e
    · split at e <;> cases e

theorem takeDisp32_truncated {bs : List Byte} (e : takeDisp32 bs = .error .truncated) : bs.length < 4 := by
  by_contra hge
  match bs with
  | [] | [_] | [_, _] | [_, _, _] => simp at hge
  | b0 :: b1 :: b2 :: b3 :: t => cases e

theorem decodeAddr_truncated {x b : Bool} {mod : BitVec 2} {rm : BitVec 3} {bs : List Byte}
    (e : decodeAddr x b mod rm bs = .error .truncated) : bs.length < 5 := by
  have h32 : ∀ (t : List Byte) (f : BitVec 32 → AddrForm),
      (takeDisp32 t >>= fun d => (Except.ok (f d) : Except Reject _)) = .error .truncated → t.length < 4 := by
    intro t f e
    cases hd : takeDisp32 t with
    | error r => rw [hd] at e; cases e; exact takeDisp32_truncated hd
    | ok d => rw [hd] at e; cases e
  have hdisp : ∀ (t : List Byte) (f : Disp → AddrForm),
      (takeDisp mod t >>= fun d => (Except.ok (f d) : Except Reject _)) = .error .truncated → t.length < 4 := by
    intro t f e
    cases hd : takeDisp mod t with
    | error r => rw [hd] at e; cases e; exact takeDisp_truncated hd
    | ok d => rw [hd] at e; cases e
  simp only [decodeAddr] at e
  split at e
  · match bs with
    | [] => decide
    | sib :: t =>
      simp only at e
      split at e
      · exact Nat.succ_lt_succ (h32 _ _ e)
      · exact Nat.succ_lt_succ (hdisp _ _ e)
  · split at e
    · exact Nat.lt_succ_of_lt (h32 _ _ e)
    · exact Nat.lt_succ_of_lt (hdisp _ _ e)

theorem decodeModRm_truncated {x b : Bool} {bs : List Byte} (e : decodeModRm x b bs = .error .truncated) :
    bs.length < 6 := by
  match bs with
  | [] => decide
  | m :: t =>
    simp only [decodeModRm] at e
    split at e
    · cases e
    · cases ha : decodeAddr x b (m.extractLsb' 6 2) (m.extractLsb' 0 3) t with
      | error r => rw [ha] at e; cases e; exact Nat.succ_lt_succ (decodeAddr_truncated ha)
      | ok a => rw [ha] at e; cases e

/-- A head is at most five bytes. -/
theorem decodeHead_size {p : Prefixes} {rex : Option Byte} {bs : List Byte} {h : Head} {n : Nat} {tl : List Byte}
    (e : decodeHead p rex bs = .ok (h, n, tl)) : bs.length ≤ tl.length + 5 := by
  obtain ⟨c, rfl, hl, -, hc⟩ := decodeHead_ok e
  by_contra hlt
  simp only [List.length_append, not_le] at hlt
  have h6 : 5 < c.length := by omega
  replace e := hc []
  rw [List.append_nil] at e
  have hlong : ∀ r x y map pay op (m : Nat) (t : List Byte), m ≤ 5 →
      (vexHead p rex r x y map pay op >>= fun h => (Except.ok (h, m, t) : Except Reject _)) = .ok (h, n, []) → n ≤ 5 := by
    intro r x y map pay op m t hm e
    unfold vexHead at e
    split at e
    · cases e
    · cases e; exact hm
  have hn : n ≤ 5 := by
    match c, h6 with
    | a :: b :: c :: d :: f :: g :: t, _ =>
      simp only [decodeHead] at e
      split at e
      · simp only [legacyHead] at e
        split at e
        · cases e
        · split at e
          · cases e
          · cases e
      · split at e
        · exact hlong _ _ _ _ _ _ 3 _ (by decide) e
        · split at e
          · exact hlong _ _ _ _ _ _ 4 _ (by decide) e
          · split at e
            · simp only [evexHead] at e
              split at e
              · cases e
              · cases e
            · cases e
  omega

/-- The decoder never asks for more than `windowSize` bytes. -/
theorem decode_truncated {bs : List Byte} (e : decode bs = .error .truncated) : bs.length < windowSize := by
  have hbody : ∀ p rex i bs, decodeBody p rex i bs = .error .truncated → bs.length < 11 := by
    intro p rex i bs e
    unfold decodeBody at e
    split at e
    · cases e
    · cases hh : decodeHead p rex bs with
      | error r =>
        rw [hh] at e
        cases e
        have := decodeHead_truncated hh
        omega
      | ok q =>
        obtain ⟨h, n, tl⟩ := q
        rw [hh] at e
        simp only [bind, Except.bind] at e
        have hsz := decodeHead_size hh
        cases hm : decodeModRm h.x h.b tl with
        | error r =>
          rw [hm] at e
          cases e
          have := decodeModRm_truncated hm
          omega
        | ok q =>
          rw [hm] at e
          simp only [judge] at e
          split at e
          · cases e
          · split at e <;> cases e
  rcases prefixRun_cases bs with ⟨pre, q, c, t, rfl, hq, hc, hl⟩ | ⟨pre, q, t, rfl, hq, hl⟩ | ⟨q, hq, hl⟩
  · rw [decode_run hq hc t hl] at e
    simp only [List.length_append, List.length_cons, windowSize]
    by_cases hx : isRex c
    · rw [decodeRest_rex hx] at e
      have := hbody _ _ _ _ e
      omega
    · rw [decodeRest_other hx] at e
      have := hbody _ _ _ _ e
      simp only [List.length_cons] at this
      omega
  · rw [decode_long hq t hl] at e
    cases e
  · exact lt_trans hl (by decide)

end Sys2Proof
end

