-- ==== Sys2Proof/Laws/Memory.lean ====
section
/-! SUPPORT. The laws of memory: reading a byte after a write, the canonical form, and what the word operations read and write
(spec/20_memory.md R61, R62, R68). -/

namespace Sys2Proof.Machine

/-! ## Cells -/

theorem lookupCell_insertCell (m : List Host.Cell) (a c : Nat) (b : Byte) (h : ∀ x ∈ m, x.1 ≠ a) :
    lookupCell (insertCell a b m) c = if c = a then b else lookupCell m c := by
  induction m with
  | nil => simp [insertCell, lookupCell, eq_comm]
  | cons x m ih =>
    have hx : x.1 ≠ a := h x (by simp)
    have ih := ih fun y hy => h y (by simp [hy])
    by_cases hlt : a < x.1
    · simp [insertCell, hlt, lookupCell, eq_comm]
    · simp only [insertCell, hlt, if_false, lookupCell, ih]
      by_cases hc : x.1 = c
      · subst hc; simp [hx]
      · simp [hc]

theorem lookupCell_filter (m : List Host.Cell) (a c : Nat) :
    lookupCell (m.filter (fun x => x.1 != a)) c = if c = a then unlistedByte else lookupCell m c := by
  induction m with
  | nil => simp [lookupCell]
  | cons x m ih =>
    by_cases hx : x.1 = a
    · rw [List.filter_cons_of_neg (by simp [hx]), ih]
      subst hx
      by_cases hc : c = x.1
      · simp [hc]
      · simp [hc, lookupCell, Ne.symm hc]
    · rw [List.filter_cons_of_pos (by simpa using hx)]
      simp only [lookupCell, ih]
      by_cases hc : x.1 = c
      · subst hc; simp [hx]
      · simp [hc]

/-- Reading a byte after a write: the byte written, or the byte that was there (R68). -/
theorem readByte_writeByte (m : List Host.Cell) (a c : Addr) (b : Byte) :
    readByte (writeByte m a b) c = if c = a then b else readByte m c := by
  have hac : c.toNat = a.toNat ↔ c = a := ⟨BitVec.eq_of_toNat_eq, fun h => h ▸ rfl⟩
  unfold writeByte readByte
  by_cases hb : b = unlistedByte
  · simp only [hb, if_true, lookupCell_filter, hac]
  · simp only [hb, if_false]
    rw [lookupCell_insertCell _ _ _ _ (by simp [List.mem_filter]), lookupCell_filter]
    simp only [hac]
    split <;> rfl

/-! ## The canonical form -/

theorem mem_insertCell {m : List Host.Cell} {a : Nat} {b : Byte} {x : Host.Cell} (h : x ∈ insertCell a b m) :
    x = (a, b) ∨ x ∈ m := by
  induction m with
  | nil => simpa [insertCell] using h
  | cons y m ih =>
    by_cases hlt : a < y.1
    · simpa [insertCell, hlt] using h
    · simp only [insertCell, hlt, if_false, List.mem_cons] at h
      rcases h with h | h
      · simp [h]
      · rcases ih h with h | h <;> simp [h]

theorem pairwise_insertCell (m : List Host.Cell) (a : Nat) (b : Byte)
    (hm : m.Pairwise (fun c d => c.1 < d.1)) (ha : ∀ x ∈ m, x.1 ≠ a) :
    (insertCell a b m).Pairwise (fun c d => c.1 < d.1) := by
  induction m with
  | nil => simp [insertCell]
  | cons y m ih =>
    rw [List.pairwise_cons] at hm
    have hy : y.1 ≠ a := ha y (by simp)
    by_cases hlt : a < y.1
    · simp only [insertCell, hlt, if_true, List.pairwise_cons]
      exact ⟨fun x hx => by
        rcases List.mem_cons.1 hx with rfl | hx
        · exact hlt
        · exact hlt.trans (hm.1 x hx), hm.1, hm.2⟩
    · simp only [insertCell, hlt, if_false, List.pairwise_cons]
      refine ⟨fun x hx => ?_, ih hm.2 fun x hx => ha x (by simp [hx])⟩
      rcases mem_insertCell hx with rfl | hx
      · show y.1 < a
        omega
      · exact hm.1 x hx

/-- Writing a byte keeps the canonical form. -/
theorem memWf_writeByte (m : List Host.Cell) (a : Addr) (b : Byte) (h : memWf m) : memWf (writeByte m a b) := by
  have hrest : memWf (m.filter (fun x => x.1 != a.toNat)) :=
    ⟨h.1.filter _, fun c hc => h.2 c (List.mem_filter.1 hc).1⟩
  unfold writeByte
  by_cases hb : b = unlistedByte
  · simpa only [hb, if_true] using hrest
  · simp only [hb, if_false]
    refine ⟨pairwise_insertCell _ _ _ hrest.1 (by simp [List.mem_filter]), fun c hc => ?_⟩
    rcases mem_insertCell hc with rfl | hc
    · exact ⟨hb, a.isLt⟩
    · exact hrest.2 c hc

theorem memWf_memWrite (m : List Host.Cell) (a : Addr) (e : VecWord) (n : Nat) (h : memWf m) : memWf (memWrite m a e n) := by
  induction n with
  | zero => exact h
  | succ n ih => exact memWf_writeByte _ _ _ ih

theorem memWf_memWriteMasked (m : List Host.Cell) (a : Addr) (es : ElemSize) (sel : Nat → Bool) (e : VecWord) (n : Nat)
    (h : memWf m) : memWf (memWriteMasked m a es sel e n) := by
  induction n with
  | zero => exact h
  | succ n ih =>
    unfold memWriteMasked
    split
    · exact memWf_memWrite _ _ _ _ ih
    · exact ih

theorem memWf_storeBytes (m : List Host.Cell) (a : Addr) (bs : List Byte) (h : memWf m) : memWf (storeBytes m a bs) := by
  induction bs generalizing m a with
  | nil => exact h
  | cons b bs ih => exact ih _ _ (memWf_writeByte _ _ _ h)

/-! ## Addresses of bytes -/

@[simp] theorem byteAddr_zero (a : Addr) : byteAddr a 0 = a := by simp [byteAddr]

theorem byteAddr_byteAddr (a : Addr) (b c : Nat) : byteAddr (byteAddr a b) c = byteAddr a (b + c) := by
  simp only [byteAddr, BitVec.ofNat_add, BitVec.add_assoc]

/-- Bytes of an operand have different addresses. -/
theorem byteAddr_inj {a : Addr} {b c : Nat} (hb : b < 2 ^ 64) (hc : c < 2 ^ 64) : byteAddr a b = byteAddr a c ↔ b = c := by
  refine ⟨fun h => ?_, fun h => h ▸ rfl⟩
  have h := congrArg BitVec.toNat (BitVec.add_right_inj a |>.1 h)
  rwa [BitVec.toNat_ofNat, BitVec.toNat_ofNat, Nat.mod_eq_of_lt hb, Nat.mod_eq_of_lt hc] at h

/-- The bytes of an aligned operand do not wrap (R62). -/
theorem byteAddr_toNat {a : Addr} {n b : Nat} (hn : n ∣ 2 ^ 64) (ha : a.toNat % n = 0) (hb : b < n) :
    (byteAddr a b).toNat = a.toNat + b := by
  obtain ⟨q, hq⟩ := hn
  have hlt := a.isLt
  have hp : 0 < n := by omega
  obtain ⟨r, hr⟩ : ∃ r, a.toNat = n * r := ⟨a.toNat / n, by rw [Nat.mul_div_cancel' (Nat.dvd_of_mod_eq_zero ha)]⟩
  have hrq : r < q := by
    by_contra hge
    have := Nat.mul_le_mul_left n (Nat.le_of_not_lt hge)
    omega
  have hle : n * (r + 1) ≤ n * q := Nat.mul_le_mul_left n hrq
  have hb64 : b < 2 ^ 64 := by rw [hq]; calc b < n := hb
    _ ≤ n * q := Nat.le_mul_of_pos_right n (by omega)
  rw [byteAddr, BitVec.toNat_add, BitVec.toNat_ofNat, Nat.mod_eq_of_lt hb64, Nat.mod_eq_of_lt]
  rw [Nat.mul_add, Nat.mul_one] at hle
  omega

/-! ## Words -/

/-- Bit `j` of a value cut to `w` bits. -/
theorem getLsbD_lowBits (w : Nat) (e : VecWord) (j : Nat) : (lowBits w e).getLsbD j = (decide (j < w) && e.getLsbD j) := by
  simp only [lowBits, BitVec.getLsbD_setWidth]
  by_cases h : j < 512
  · simp [h]
  · simp [h, BitVec.getLsbD_of_ge e j (by omega)]

/-- Bit `j` of `MemRead`: bit `j mod 8` of the byte at `a + j / 8`. -/
theorem getLsbD_memRead (m : List Host.Cell) (a : Addr) (n j : Nat) :
    (memRead m a n).getLsbD j =
      (decide (j < 512) && decide (j < 8 * n) && (readByte m (byteAddr a (j / 8))).getLsbD (j % 8)) := by
  induction n with
  | zero => simp [memRead]
  | succ n ih =>
    simp only [memRead, BitVec.getLsbD_or, ih, BitVec.getLsbD_shiftLeft, BitVec.getLsbD_setWidth]
    by_cases h512 : j < 512
    · by_cases h1 : j < 8 * n
      · simp [h512, h1, show j < 8 * (n + 1) by omega]
      · by_cases h2 : j < 8 * (n + 1)
        · have hd : j / 8 = n := by omega
          have hm : j - 8 * n = j % 8 := by omega
          simp [h512, h1, h2, hd, hm, show j % 8 < 512 by omega]
        · have : (readByte m (byteAddr a n)).getLsbD (j - 8 * n) = false :=
            BitVec.getLsbD_of_ge _ _ (by omega)
          simp [h512, h1, h2, this]
    · simp [h512]

/-- What a byte reads after `MemWrite`. -/
theorem readByte_memWrite (m : List Host.Cell) (a c : Addr) (e : VecWord) (n : Nat) (hn : n ≤ 2 ^ 64) :
    (∀ b < n, c = byteAddr a b → readByte (memWrite m a e n) c = byteOf e b)
    ∧ ((∀ b < n, c ≠ byteAddr a b) → readByte (memWrite m a e n) c = readByte m c) := by
  induction n with
  | zero => simp [memWrite]
  | succ n ih =>
    have ih := ih (by omega)
    simp only [memWrite, readByte_writeByte]
    refine ⟨fun b hb hc => ?_, fun h => ?_⟩
    · by_cases hbn : b = n
      · subst hbn; simp [hc]
      · have hne : c ≠ byteAddr a n := by
          rw [hc, Ne, byteAddr_inj (by omega) (by omega)]; exact hbn
        simpa [hne] using ih.1 b (by omega) hc
    · simpa [h n (by omega)] using ih.2 fun b hb => h b (by omega)

/-- Byte `b` of element `j` is byte `j * ES/8 + b` of the whole value. -/
theorem byteOf_elemOf (es : ElemSize) (e : VecWord) (j b : Nat) (hb : b < es.bytes) :
    byteOf (elemOf es e j) b = byteOf e (j * es.bytes + b) := by
  have h8 : es.bits = 8 * es.bytes := by cases es <;> rfl
  apply BitVec.eq_of_getLsbD_eq
  intro i hi
  simp only [byteOf, elemOf, BitVec.getLsbD_extractLsb', getLsbD_lowBits, BitVec.getLsbD_ushiftRight, hi, decide_true,
    Bool.true_and]
  have : 8 * b + i < es.bits := by omega
  have he : j * es.bits + (8 * b + i) = 8 * (j * es.bytes + b) + i := by rw [h8]; ring
  simp [this, he]

/-- What a byte reads after `MemWriteMasked`, of at most 64 bytes. -/
theorem readByte_memWriteMasked (m : List Host.Cell) (a c : Addr) (es : ElemSize) (sel : Nat → Bool) (e : VecWord) (n : Nat)
    (hn : n * es.bytes ≤ 2 ^ 64) :
    (∀ j < n, ∀ b < es.bytes, sel j = true → c = byteAddr a (j * es.bytes + b) →
      readByte (memWriteMasked m a es sel e n) c = byteOf e (j * es.bytes + b))
    ∧ ((∀ j < n, sel j = true → ∀ b < es.bytes, c ≠ byteAddr a (j * es.bytes + b)) →
      readByte (memWriteMasked m a es sel e n) c = readByte m c) := by
  have hpos : 0 < es.bytes := by cases es <;> decide
  induction n with
  | zero => simp [memWriteMasked]
  | succ n ih =>
    have hn' : n * es.bytes + es.bytes ≤ 2 ^ 64 := by rwa [Nat.add_mul, Nat.one_mul] at hn
    have ih := ih (by omega)
    have hw := fun m' => readByte_memWrite m' (byteAddr a (n * es.bytes)) c (elemOf es e n) es.bytes (by omega)
    simp only [byteAddr_byteAddr] at hw
    refine ⟨fun j hj b hb hs hc => ?_, fun h => ?_⟩
    · by_cases hjn : j = n
      · subst hjn
        simp only [memWriteMasked, hs, if_true]
        rw [(hw _).1 b hb hc, byteOf_elemOf _ _ _ _ hb]
      · have hjlt : j < n := by omega
        have hle : j * es.bytes + es.bytes ≤ n * es.bytes := by
          have := Nat.mul_le_mul_right es.bytes (show j + 1 ≤ n by omega)
          rwa [Nat.add_mul, Nat.one_mul] at this
        have hold := ih.1 j hjlt b hb hs hc
        simp only [memWriteMasked]
        split
        · rw [(hw _).2, hold]
          intro b' hb'
          rw [hc, Ne, byteAddr_inj (by omega) (by omega)]
          omega
        · exact hold
    · have hold := ih.2 fun j hj => h j (by omega)
      simp only [memWriteMasked]
      split
      next hs => rw [(hw _).2 (h n (by omega) hs), hold]
      · exact hold

/-- Storing a list of bytes puts each at its address and changes no other byte. -/
theorem readByte_storeBytes (m : List Host.Cell) (a c : Addr) (bs : List Byte) (hn : bs.length ≤ 2 ^ 64) :
    (∀ (b : Nat) (hb : b < bs.length), c = byteAddr a b → readByte (storeBytes m a bs) c = bs[b])
    ∧ ((∀ b < bs.length, c ≠ byteAddr a b) → readByte (storeBytes m a bs) c = readByte m c) := by
  have hs : ∀ (a : Addr) b, byteAddr (a + 1#64) b = byteAddr a (b + 1) := fun a b => by
    rw [Nat.add_comm b 1, ← byteAddr_byteAddr]
    rfl
  induction bs generalizing m a with
  | nil => exact ⟨fun b hb => absurd hb (Nat.not_lt_zero b), fun _ => rfl⟩
  | cons x bs ih =>
    rw [List.length_cons] at hn
    obtain ⟨h1, h2⟩ := ih (writeByte m a x) (a + 1#64) (by omega)
    refine ⟨fun b hb hc => ?_, fun hne => ?_⟩
    · rcases b with _ | b
      · rw [storeBytes, h2, readByte_writeByte, if_pos (by rw [hc, byteAddr_zero])]
        · rfl
        · intro d hd heq
          rw [hs, hc] at heq
          have := (byteAddr_inj (by omega) (by omega)).1 heq
          omega
      · rw [List.length_cons] at hb
        rw [storeBytes, h1 b (by omega) (by rw [hs, hc]), List.getElem_cons_succ]
    · rw [List.length_cons] at hne
      rw [storeBytes, h2 (fun d hd => by rw [hs]; exact hne _ (by omega)), readByte_writeByte,
        if_neg (fun h => hne 0 (by omega) (by rw [h, byteAddr_zero]))]

end Sys2Proof.Machine
end

