-- ==== Sys2Proof/Laws/Moves.lean ====
section
/-! SUPPORT. What the data movements of the shared operations compute, bit by bit (spec/00_scope.md R8, R12). -/

namespace Sys2Proof.Machine

/-- R8: the low `w` bits are the new ones, the others are kept. -/
theorem getLsbD_writeLow (w : Nat) (old new : VecWord) (j : Nat) :
    (writeLow w old new).getLsbD j = if j < w then new.getLsbD j else old.getLsbD j := by
  simp only [writeLow, BitVec.getLsbD_or, BitVec.getLsbD_shiftLeft, BitVec.getLsbD_ushiftRight, getLsbD_lowBits]
  by_cases h : j < w
  · simp [h]
  · have hw : w + (j - w) = j := by omega
    by_cases h512 : j < 512
    · simp [h, h512, hw]
    · simp [h, h512, BitVec.getLsbD_of_ge old j (by omega)]

/-- Bit `i` of element `j` is bit `j * ES + i` of the whole. -/
theorem getLsbD_elemOf (es : ElemSize) (e : VecWord) (j i : Nat) :
    (elemOf es e j).getLsbD i = (decide (i < es.bits) && e.getLsbD (j * es.bits + i)) := by
  simp [elemOf, getLsbD_lowBits, BitVec.getLsbD_ushiftRight]

/-- Bit `i` of element `j` of a memory operand is bit `i mod 8` of byte `j * ES/8 + i / 8`. -/
theorem getLsbD_memElem (m : List Host.Cell) (a : Addr) (es : ElemSize) (j i : Nat) (hi : i < es.bits) :
    (memElem m a es j).getLsbD i = (readByte m (byteAddr a (j * es.bytes + i / 8))).getLsbD (i % 8) := by
  have h8 : es.bits = 8 * es.bytes := by cases es <;> rfl
  have h512 : i < 512 := lt_of_lt_of_le hi (by cases es <;> decide)
  rw [memElem, getLsbD_memRead, byteAddr_byteAddr, ← h8]
  simp only [h512, hi, decide_true, Bool.true_and]

/-- R12: bit `j` of `MaskedMove`, in element `j / ES`. -/
theorem getLsbD_maskedMove (es : ElemSize) (old : VecWord) (src : Nat → VecWord) (sel : Nat → Bool) (z : Bool) (n j : Nat)
    (h512 : j < 512) :
    (maskedMove es old src sel z n).getLsbD j =
      if n * es.bits ≤ j then false
      else if sel (j / es.bits) then (src (j / es.bits)).getLsbD (j % es.bits)
      else if z then false else old.getLsbD j := by
  have hpos : 0 < es.bits := by cases es <;> decide
  induction n with
  | zero => simp [maskedMove]
  | succ n ih =>
    simp only [maskedMove, BitVec.getLsbD_or, ih, BitVec.getLsbD_shiftLeft, getLsbD_lowBits, h512, decide_true, Bool.true_and]
    rw [Nat.add_mul, Nat.one_mul]
    by_cases hlo : j < n * es.bits
    · simp [hlo, show ¬ n * es.bits ≤ j by omega, show ¬ n * es.bits + es.bits ≤ j by omega]
    · by_cases hhi : j < n * es.bits + es.bits
      · have hd : j / es.bits = n := by
          rw [Nat.div_eq_iff hpos]
          omega
        have hm : j % es.bits = j - n * es.bits := by
          rw [Nat.mod_eq_sub_div_mul, hd]
        have hj : n * es.bits + (j - n * es.bits) = j := by omega
        simp only [hlo, hd, hm, show n * es.bits ≤ j by omega, show ¬ n * es.bits + es.bits ≤ j by omega, if_true, if_false,
          show j - n * es.bits < es.bits by omega, decide_true, decide_false, Bool.not_false, Bool.true_and, Bool.false_or]
        split
        · rfl
        · split
          · simp
          · simp [getLsbD_elemOf, hj, show j - n * es.bits < es.bits by omega]
      · simp [show n * es.bits ≤ j by omega, show n * es.bits + es.bits ≤ j by omega,
          show ¬ j - n * es.bits < es.bits by omega]

/-- The elements fill the vector length. -/
theorem elemCount_mul_bits (vl : VecLen) (es : ElemSize) : elemCount vl es * es.bits = vl.bits := by
  cases vl <;> cases es <;> rfl

theorem elemCount_mul_bytes (vl : VecLen) (es : ElemSize) : elemCount vl es * es.bytes = vl.bytes := by
  cases vl <;> cases es <;> rfl

end Sys2Proof.Machine
end

