-- ==== Sys2Proof/Laws/Exec.lean ====
section
/-! SUPPORT. What an instruction can do, said once for each of the nine shared operations and from them once for all 36
instructions (spec/60_exceptions.md R211): the gate, then `CheckMem` if there is a memory operand, then an effect on one vector
register or on the bytes of the operand. -/

namespace Sys2Proof.Machine

/-- The memory operand of a row of the opcode table has whole elements. -/
theorem operandOf_fits {i : Instr} {o : Operand} (h : operandOf i = some o) : o.fits := by
  cases i <;> cases h <;> exact ⟨Nat.succ_pos _, by norm_num⟩

/-- The tests before an effect (R211 steps 5 to 9), for an encoding family and a memory operand, if there is one. -/
def checkAll (e : Encoding) (o : Option Operand) (s : State) : Option Stop :=
  (gateOf e s.cfg).or (o.bind fun o => o.check s)

/-- What an instruction that no test stops does to the state. -/
inductive Effect (e : Encoding) (o : Option Operand) (len : Nat) (s : State) : State → Prop where
  /-- one vector register is written, in the reach of the encoding -/
  | vec (dst : VReg32) (x : VecWord) (hkind : ∀ p, o = some p → p.kind = .load)
      (hreach : e = .legacy ∨ e = .vex → dst.toNat < 16) : Effect e o len s ((s.setVec dst x).advance len)
  /-- whole bytes of the operand are written -/
  | mem (p : Operand) (x : VecWord) (ho : o = some p) (hkind : p.kind = .store) :
      Effect e o len s (State.advance { s with mem := memWrite s.mem (p.ea s) x p.bytes } len)
  /-- the selected elements of the operand are written -/
  | masked (p : Operand) (es : ElemSize) (n : Nat) (x : VecWord) (ho : o = some p) (hkind : p.kind = .store)
      (hes : es.bytes = p.elemBytes) (hn : n * es.bytes = p.bytes) :
      Effect e o len s (State.advance { s with mem := memWriteMasked s.mem (p.ea s) es (s.selected p.aaa) x n } len)

/-- The answer is an attempt of the tests and an effect. -/
def Shape (e : Encoding) (o : Option Operand) (len : Nat) (s : State) (r : Host.Outcome State Fault Refusal) : Prop :=
  ∃ t, r = attempt (checkAll e o s) s t ∧ Effect e o len s t

/-! ## The nine shared operations -/

theorem vreg_lt (q : VReg16) : (vreg q).toNat < 16 := by
  rw [vreg_toNat]
  exact q.isLt

theorem checkAll_none (e : Encoding) (s : State) : checkAll e none s = gateOf e s.cfg := by
  unfold checkAll
  cases gateOf e s.cfg <;> rfl

theorem legacyCopy_shape (dst src : VReg16) (len : Nat) (s : State) :
    Shape .legacy none len s (legacyCopy dst src len s) :=
  ⟨_, by rw [checkAll_none]; rfl, .vec _ _ (fun _ h => nomatch h) fun _ => vreg_lt dst⟩

/-- An operand without elements is one element, which no mask guards. -/
theorem elems_whole (m : MemOperand) (k : AccessKind) (n len : Nat) (hn : 0 < n) (s : State) :
    Operand.elems ⟨m, k, n, 1, len, n, 0#3⟩ s = .whole n := by
  simp only [Operand.elems, ElemSel.whole, Nat.div_self hn]
  rfl

theorem vecLen_bytes_pos (vl : VecLen) : 0 < vl.bytes := by cases vl <;> decide

theorem legacyLoad_shape (dst : VReg16) (m : MemOperand) (len : Nat) (s : State) :
    Shape .legacy (some ⟨m, .load, 16, 1, len, 16, 0#3⟩) len s (legacyLoad dst m len s) :=
  ⟨_, by simp only [checkAll, Option.bind_some, Operand.check, elems_whole _ _ 16 _ (by decide)]; rfl,
    .vec _ _ (fun _ h => by cases h; rfl) fun _ => vreg_lt dst⟩

theorem legacyStore_shape (m : MemOperand) (src : VReg16) (len : Nat) (s : State) :
    Shape .legacy (some ⟨m, .store, 16, 1, len, 16, 0#3⟩) len s (legacyStore m src len s) :=
  ⟨_, by simp only [checkAll, Option.bind_some, Operand.check, elems_whole _ _ 16 _ (by decide)]; rfl, .mem _ _ rfl rfl⟩

theorem vexCopy_shape (vl : VecLen) (dst src : VReg16) (len : Nat) (s : State) :
    Shape .vex none len s (vexCopy vl dst src len s) :=
  ⟨_, by rw [checkAll_none]; rfl, .vec _ _ (fun _ h => nomatch h) fun _ => vreg_lt dst⟩

theorem vexLoad_shape (vl : VecLen) (dst : VReg16) (m : MemOperand) (len : Nat) (s : State) :
    Shape .vex (some ⟨m, .load, vl.bytes, 1, len, vl.bytes, 0#3⟩) len s (vexLoad vl dst m len s) :=
  ⟨_, by simp only [checkAll, Option.bind_some, Operand.check, elems_whole _ _ _ _ (vecLen_bytes_pos vl)]; rfl,
    .vec _ _ (fun _ h => by cases h; rfl) fun _ => vreg_lt dst⟩

theorem vexStore_shape (vl : VecLen) (m : MemOperand) (src : VReg16) (len : Nat) (s : State) :
    Shape .vex (some ⟨m, .store, vl.bytes, 1, len, vl.bytes, 0#3⟩) len s (vexStore vl m src len s) :=
  ⟨_, by simp only [checkAll, Option.bind_some, Operand.check, elems_whole _ _ _ _ (vecLen_bytes_pos vl)]; rfl, .mem _ _ rfl rfl⟩

theorem evexCopy_shape (es : ElemSize) (vl : VecLen) (dst src : VReg32) (mask : Masking) (len : Nat) (s : State) :
    Shape (.evex vl) none len s (evexCopy es vl dst src mask len s) :=
  ⟨_, by rw [checkAll_none]; rfl, .vec _ _ (fun _ h => nomatch h) (by simp)⟩

/-- An EVEX operand is its elements. -/
theorem elems_evex (m : MemOperand) (k : AccessKind) (es : ElemSize) (vl : VecLen) (len : Nat) (aaa : OpmaskSel) (s : State) :
    Operand.elems ⟨m, k, vl.bytes, vl.bytes, len, es.bytes, aaa⟩ s = s.evexElems vl es aaa := by
  cases vl <;> cases es <;> norm_num [Operand.elems, State.evexElems, elemCount, VecLen.bits, VecLen.bytes, ElemSize.bits,
    ElemSize.bytes]

theorem evexLoad_shape (es : ElemSize) (vl : VecLen) (dst : VReg32) (mask : Masking) (m : MemOperand) (len : Nat) (s : State) :
    Shape (.evex vl) (some ⟨m, .load, vl.bytes, vl.bytes, len, es.bytes, mask.aaa⟩) len s
      (evexLoad es vl dst mask m len s) :=
  ⟨_, by simp only [checkAll, Option.bind_some, Operand.check, elems_evex]; rfl,
    .vec _ _ (fun _ h => by cases h; rfl) (by simp)⟩

theorem evexStore_shape (es : ElemSize) (vl : VecLen) (m : MemOperand) (aaa : OpmaskSel) (src : VReg32) (len : Nat) (s : State) :
    Shape (.evex vl) (some ⟨m, .store, vl.bytes, vl.bytes, len, es.bytes, aaa⟩) len s
      (evexStore es vl m aaa src len s) :=
  ⟨_, by simp only [checkAll, Option.bind_some, Operand.check, elems_evex]; rfl,
    .masked _ es (elemCount vl es) _ rfl rfl rfl (elemCount_mul_bytes vl es)⟩

/-! ## The 36 instructions -/

/-- R211: every instruction is an attempt of its tests and an effect. -/
theorem exec_shape (i : Instr) (s : State) : Shape (encodingOf i) (operandOf i) i.len s (exec i s) := by
  cases i
  case movdqaXmmCopyRm | movdqaXmmCopyMr => exact legacyCopy_shape _ _ _ _
  case movdqaXmmLoad => exact legacyLoad_shape _ _ _ _
  case movdqaXmmStore => exact legacyStore_shape _ _ _ _
  case vmovdqaXmmCopyRm | vmovdqaXmmCopyMr => exact vexCopy_shape .l128 _ _ _ _
  case vmovdqaYmmCopyRm | vmovdqaYmmCopyMr => exact vexCopy_shape .l256 _ _ _ _
  case vmovdqaXmmLoad => exact vexLoad_shape .l128 _ _ _ _
  case vmovdqaYmmLoad => exact vexLoad_shape .l256 _ _ _ _
  case vmovdqaXmmStore => exact vexStore_shape .l128 _ _ _ _
  case vmovdqaYmmStore => exact vexStore_shape .l256 _ _ _ _
  case vmovdqa32XmmCopyRm | vmovdqa32XmmCopyMr => exact evexCopy_shape .dword .l128 _ _ _ _ _
  case vmovdqa32YmmCopyRm | vmovdqa32YmmCopyMr => exact evexCopy_shape .dword .l256 _ _ _ _ _
  case vmovdqa32ZmmCopyRm | vmovdqa32ZmmCopyMr => exact evexCopy_shape .dword .l512 _ _ _ _ _
  case vmovdqa32XmmLoad => exact evexLoad_shape .dword .l128 _ _ _ _ _
  case vmovdqa32YmmLoad => exact evexLoad_shape .dword .l256 _ _ _ _ _
  case vmovdqa32ZmmLoad => exact evexLoad_shape .dword .l512 _ _ _ _ _
  case vmovdqa32XmmStore => exact evexStore_shape .dword .l128 _ _ _ _ _
  case vmovdqa32YmmStore => exact evexStore_shape .dword .l256 _ _ _ _ _
  case vmovdqa32ZmmStore => exact evexStore_shape .dword .l512 _ _ _ _ _
  case vmovdqa64XmmCopyRm | vmovdqa64XmmCopyMr => exact evexCopy_shape .qword .l128 _ _ _ _ _
  case vmovdqa64YmmCopyRm | vmovdqa64YmmCopyMr => exact evexCopy_shape .qword .l256 _ _ _ _ _
  case vmovdqa64ZmmCopyRm | vmovdqa64ZmmCopyMr => exact evexCopy_shape .qword .l512 _ _ _ _ _
  case vmovdqa64XmmLoad => exact evexLoad_shape .qword .l128 _ _ _ _ _
  case vmovdqa64YmmLoad => exact evexLoad_shape .qword .l256 _ _ _ _ _
  case vmovdqa64ZmmLoad => exact evexLoad_shape .qword .l512 _ _ _ _ _
  case vmovdqa64XmmStore => exact evexStore_shape .qword .l128 _ _ _ _ _
  case vmovdqa64YmmStore => exact evexStore_shape .qword .l256 _ _ _ _ _
  case vmovdqa64ZmmStore => exact evexStore_shape .qword .l512 _ _ _ _ _

/-- An effect leaves parameters, opmask and general registers and outcome, and moves `pc` past the instruction. -/
theorem Effect.completes {e : Encoding} {o : Option Operand} {len : Nat} {s t : State} (h : Effect e o len s t) :
    Sys2Proof.Machine.completes s t len := by
  cases h <;> exact ⟨rfl, rfl, rfl, rfl, rfl⟩

/-- What `exec` answers: the state of the stop that the tests find, or an effect. -/
theorem exec_cases (i : Instr) (s : State) :
    (∃ st, checkAll (encodingOf i) (operandOf i) s = some st ∧ exec i s = .next (s.stop st))
    ∨ (checkAll (encodingOf i) (operandOf i) s = none
      ∧ ∃ t, exec i s = .next t ∧ Effect (encodingOf i) (operandOf i) i.len s t) := by
  obtain ⟨t, he, ht⟩ := exec_shape i s
  cases hc : checkAll (encodingOf i) (operandOf i) s with
  | some st => exact .inl ⟨st, rfl, by rw [he, hc]; rfl⟩
  | none => exact .inr ⟨rfl, t, by rw [he, hc]; rfl, ht⟩

/-- The tests pass exactly when the gate is open and the operand, if there is one, is ready. -/
theorem checkAll_eq_none {i : Instr} {s : State} :
    checkAll (encodingOf i) (operandOf i) s = none ↔
      gateOpen s.cfg (encodingOf i) ∧ ∀ o, operandOf i = some o → o.ready s := by
  rw [checkAll, Option.or_eq_none_iff, gateOf_eq_none]
  refine and_congr_right fun _ => ?_
  cases ho : operandOf i with
  | none => simp
  | some o => simpa using check_eq_none (operandOf_fits ho)

/-- With the gate open, `CheckMem` decides. -/
theorem checkAll_of_open {e : Encoding} {o : Operand} {s : State} (hg : gateOpen s.cfg e) :
    checkAll e (some o) s = o.check s := by
  simp [checkAll, gateOf_eq_none.2 hg]

/-- A stop of the gate comes before everything else. -/
theorem checkAll_of_gate {e : Encoding} {o : Option Operand} {s : State} {st : Stop} (h : gateOf e s.cfg = some st) :
    checkAll e o s = some st := by
  simp [checkAll, h]

/-- The state of the stop that the tests find. -/
theorem exec_of_stop {i : Instr} {s : State} {st : Stop} (h : checkAll (encodingOf i) (operandOf i) s = some st) :
    exec i s = .next (s.stop st) := by
  obtain ⟨t, he, -⟩ := exec_shape i s
  rw [he, h]
  rfl

end Sys2Proof.Machine
end

