-- ==== Sys2Proof/Laws/PerInstr.lean ====
section
/-! SUPPORT. The statements made for every instruction, one lemma per constructor of `Instr`. -/

namespace Sys2Proof.Laws.LengthBounds

/-- R90, R115: a well-formed instruction is 4 to 15 bytes long. -/
def Statement (i : Instr) : Prop := i.wf = true → 4 ≤ i.len ∧ i.len ≤ 15

theorem tailSize_pos (f : AddrForm) : 1 ≤ f.tailSize := by
  cases f <;> simp only [AddrForm.tailSize] <;> omega

theorem tailSize_le (f : AddrForm) : f.tailSize ≤ 6 := by
  have h : ∀ d : Disp, d.size ≤ 4 := by
    intro d
    cases d <;> simp [Disp.size]
  cases f with
  | base _ d => have := h d; simp only [AddrForm.tailSize]; omega
  | sib _ _ _ d => have := h d; simp only [AddrForm.tailSize]; omega
  | sibNoBase => simp [AddrForm.tailSize]
  | ripRel => simp [AddrForm.tailSize]

theorem legacyCopyLenOk_bounds {d s : VReg16} {len : Nat} (h : legacyCopyLenOk d s len = true) : 4 ≤ len ∧ len ≤ 15 := by
  simp only [legacyCopyLenOk, decide_eq_true_eq] at h
  omega

theorem legacyMemLenOk_bounds {r : VReg16} {m : MemOperand} {len : Nat} (h : legacyMemLenOk r m len = true) :
    4 ≤ len ∧ len ≤ 15 := by
  have := tailSize_pos m.form
  simp only [legacyMemLenOk, decide_eq_true_eq] at h
  omega

theorem vexCopyLenOk_bounds {r : VReg16} {len : Nat} (h : vexCopyLenOk r len = true) : 4 ≤ len ∧ len ≤ 15 := by
  simp only [vexCopyLenOk, decide_eq_true_eq] at h
  omega

theorem vexMemLenOk_bounds {m : MemOperand} {len : Nat} (h : vexMemLenOk m len = true) : 4 ≤ len ∧ len ≤ 15 := by
  have := tailSize_pos m.form
  have := tailSize_le m.form
  simp only [vexMemLenOk] at h
  split at h
  · simp only [decide_eq_true_eq] at h
    omega
  · simp only [Bool.or_eq_true, Bool.and_eq_true, beq_iff_eq] at h
    omega

theorem evexCopyLenOk_bounds {len : Nat} (h : evexCopyLenOk len = true) : 4 ≤ len ∧ len ≤ 15 := by
  simp only [evexCopyLenOk, decide_eq_true_eq] at h
  omega

theorem evexMemLenOk_bounds {m : MemOperand} {len : Nat} (h : evexMemLenOk m len = true) : 4 ≤ len ∧ len ≤ 15 := by
  have := tailSize_pos m.form
  have := tailSize_le m.form
  simp only [evexMemLenOk] at h
  split at h
  · simp only [decide_eq_true_eq] at h
    omega
  · simp only [beq_iff_eq] at h
    omega

/-! ## One lemma per constructor -/

theorem movdqaXmmCopyRm (dst : VReg16) (src : VReg16) (len : Nat) :
    Statement (.movdqaXmmCopyRm dst src len) :=
  fun h => legacyCopyLenOk_bounds h

theorem movdqaXmmLoad (dst : VReg16) (m : MemOperand) (len : Nat) :
    Statement (.movdqaXmmLoad dst m len) :=
  fun h => legacyMemLenOk_bounds (Bool.and_eq_true_iff.1 h).2

theorem movdqaXmmCopyMr (dst : VReg16) (src : VReg16) (len : Nat) :
    Statement (.movdqaXmmCopyMr dst src len) :=
  fun h => legacyCopyLenOk_bounds h

theorem movdqaXmmStore (m : MemOperand) (src : VReg16) (len : Nat) :
    Statement (.movdqaXmmStore m src len) :=
  fun h => legacyMemLenOk_bounds (Bool.and_eq_true_iff.1 h).2

theorem vmovdqaXmmCopyRm (dst : VReg16) (src : VReg16) (len : Nat) :
    Statement (.vmovdqaXmmCopyRm dst src len) :=
  fun h => vexCopyLenOk_bounds h

theorem vmovdqaXmmLoad (dst : VReg16) (m : MemOperand) (len : Nat) :
    Statement (.vmovdqaXmmLoad dst m len) :=
  fun h => vexMemLenOk_bounds (Bool.and_eq_true_iff.1 h).2

theorem vmovdqaXmmCopyMr (dst : VReg16) (src : VReg16) (len : Nat) :
    Statement (.vmovdqaXmmCopyMr dst src len) :=
  fun h => vexCopyLenOk_bounds h

theorem vmovdqaXmmStore (m : MemOperand) (src : VReg16) (len : Nat) :
    Statement (.vmovdqaXmmStore m src len) :=
  fun h => vexMemLenOk_bounds (Bool.and_eq_true_iff.1 h).2

theorem vmovdqaYmmCopyRm (dst : VReg16) (src : VReg16) (len : Nat) :
    Statement (.vmovdqaYmmCopyRm dst src len) :=
  fun h => vexCopyLenOk_bounds h

theorem vmovdqaYmmLoad (dst : VReg16) (m : MemOperand) (len : Nat) :
    Statement (.vmovdqaYmmLoad dst m len) :=
  fun h => vexMemLenOk_bounds (Bool.and_eq_true_iff.1 h).2

theorem vmovdqaYmmCopyMr (dst : VReg16) (src : VReg16) (len : Nat) :
    Statement (.vmovdqaYmmCopyMr dst src len) :=
  fun h => vexCopyLenOk_bounds h

theorem vmovdqaYmmStore (m : MemOperand) (src : VReg16) (len : Nat) :
    Statement (.vmovdqaYmmStore m src len) :=
  fun h => vexMemLenOk_bounds (Bool.and_eq_true_iff.1 h).2

theorem vmovdqa32XmmCopyRm (dst : VReg32) (src : VReg32) (mask : Masking) (len : Nat) :
    Statement (.vmovdqa32XmmCopyRm dst src mask len) :=
  fun h => evexCopyLenOk_bounds (Bool.and_eq_true_iff.1 h).2

theorem vmovdqa32XmmLoad (dst : VReg32) (mask : Masking) (m : MemOperand) (len : Nat) :
    Statement (.vmovdqa32XmmLoad dst mask m len) :=
  fun h => evexMemLenOk_bounds (Bool.and_eq_true_iff.1 h).2

theorem vmovdqa32YmmCopyRm (dst : VReg32) (src : VReg32) (mask : Masking) (len : Nat) :
    Statement (.vmovdqa32YmmCopyRm dst src mask len) :=
  fun h => evexCopyLenOk_bounds (Bool.and_eq_true_iff.1 h).2

theorem vmovdqa32YmmLoad (dst : VReg32) (mask : Masking) (m : MemOperand) (len : Nat) :
    Statement (.vmovdqa32YmmLoad dst mask m len) :=
  fun h => evexMemLenOk_bounds (Bool.and_eq_true_iff.1 h).2

theorem vmovdqa32ZmmCopyRm (dst : VReg32) (src : VReg32) (mask : Masking) (len : Nat) :
    Statement (.vmovdqa32ZmmCopyRm dst src mask len) :=
  fun h => evexCopyLenOk_bounds (Bool.and_eq_true_iff.1 h).2

theorem vmovdqa32ZmmLoad (dst : VReg32) (mask : Masking) (m : MemOperand) (len : Nat) :
    Statement (.vmovdqa32ZmmLoad dst mask m len) :=
  fun h => evexMemLenOk_bounds (Bool.and_eq_true_iff.1 h).2

theorem vmovdqa32XmmCopyMr (dst : VReg32) (src : VReg32) (mask : Masking) (len : Nat) :
    Statement (.vmovdqa32XmmCopyMr dst src mask len) :=
  fun h => evexCopyLenOk_bounds (Bool.and_eq_true_iff.1 h).2

theorem vmovdqa32XmmStore (m : MemOperand) (aaa : OpmaskSel) (src : VReg32) (len : Nat) :
    Statement (.vmovdqa32XmmStore m aaa src len) :=
  fun h => evexMemLenOk_bounds (Bool.and_eq_true_iff.1 h).2

theorem vmovdqa32YmmCopyMr (dst : VReg32) (src : VReg32) (mask : Masking) (len : Nat) :
    Statement (.vmovdqa32YmmCopyMr dst src mask len) :=
  fun h => evexCopyLenOk_bounds (Bool.and_eq_true_iff.1 h).2

theorem vmovdqa32YmmStore (m : MemOperand) (aaa : OpmaskSel) (src : VReg32) (len : Nat) :
    Statement (.vmovdqa32YmmStore m aaa src len) :=
  fun h => evexMemLenOk_bounds (Bool.and_eq_true_iff.1 h).2

theorem vmovdqa32ZmmCopyMr (dst : VReg32) (src : VReg32) (mask : Masking) (len : Nat) :
    Statement (.vmovdqa32ZmmCopyMr dst src mask len) :=
  fun h => evexCopyLenOk_bounds (Bool.and_eq_true_iff.1 h).2

theorem vmovdqa32ZmmStore (m : MemOperand) (aaa : OpmaskSel) (src : VReg32) (len : Nat) :
    Statement (.vmovdqa32ZmmStore m aaa src len) :=
  fun h => evexMemLenOk_bounds (Bool.and_eq_true_iff.1 h).2

theorem vmovdqa64XmmCopyRm (dst : VReg32) (src : VReg32) (mask : Masking) (len : Nat) :
    Statement (.vmovdqa64XmmCopyRm dst src mask len) :=
  fun h => evexCopyLenOk_bounds (Bool.and_eq_true_iff.1 h).2

theorem vmovdqa64XmmLoad (dst : VReg32) (mask : Masking) (m : MemOperand) (len : Nat) :
    Statement (.vmovdqa64XmmLoad dst mask m len) :=
  fun h => evexMemLenOk_bounds (Bool.and_eq_true_iff.1 h).2

theorem vmovdqa64YmmCopyRm (dst : VReg32) (src : VReg32) (mask : Masking) (len : Nat) :
    Statement (.vmovdqa64YmmCopyRm dst src mask len) :=
  fun h => evexCopyLenOk_bounds (Bool.and_eq_true_iff.1 h).2

theorem vmovdqa64YmmLoad (dst : VReg32) (mask : Masking) (m : MemOperand) (len : Nat) :
    Statement (.vmovdqa64YmmLoad dst mask m len) :=
  fun h => evexMemLenOk_bounds (Bool.and_eq_true_iff.1 h).2

theorem vmovdqa64ZmmCopyRm (dst : VReg32) (src : VReg32) (mask : Masking) (len : Nat) :
    Statement (.vmovdqa64ZmmCopyRm dst src mask len) :=
  fun h => evexCopyLenOk_bounds (Bool.and_eq_true_iff.1 h).2

theorem vmovdqa64ZmmLoad (dst : VReg32) (mask : Masking) (m : MemOperand) (len : Nat) :
    Statement (.vmovdqa64ZmmLoad dst mask m len) :=
  fun h => evexMemLenOk_bounds (Bool.and_eq_true_iff.1 h).2

theorem vmovdqa64XmmCopyMr (dst : VReg32) (src : VReg32) (mask : Masking) (len : Nat) :
    Statement (.vmovdqa64XmmCopyMr dst src mask len) :=
  fun h => evexCopyLenOk_bounds (Bool.and_eq_true_iff.1 h).2

theorem vmovdqa64XmmStore (m : MemOperand) (aaa : OpmaskSel) (src : VReg32) (len : Nat) :
    Statement (.vmovdqa64XmmStore m aaa src len) :=
  fun h => evexMemLenOk_bounds (Bool.and_eq_true_iff.1 h).2

theorem vmovdqa64YmmCopyMr (dst : VReg32) (src : VReg32) (mask : Masking) (len : Nat) :
    Statement (.vmovdqa64YmmCopyMr dst src mask len) :=
  fun h => evexCopyLenOk_bounds (Bool.and_eq_true_iff.1 h).2

theorem vmovdqa64YmmStore (m : MemOperand) (aaa : OpmaskSel) (src : VReg32) (len : Nat) :
    Statement (.vmovdqa64YmmStore m aaa src len) :=
  fun h => evexMemLenOk_bounds (Bool.and_eq_true_iff.1 h).2

theorem vmovdqa64ZmmCopyMr (dst : VReg32) (src : VReg32) (mask : Masking) (len : Nat) :
    Statement (.vmovdqa64ZmmCopyMr dst src mask len) :=
  fun h => evexCopyLenOk_bounds (Bool.and_eq_true_iff.1 h).2

theorem vmovdqa64ZmmStore (m : MemOperand) (aaa : OpmaskSel) (src : VReg32) (len : Nat) :
    Statement (.vmovdqa64ZmmStore m aaa src len) :=
  fun h => evexMemLenOk_bounds (Bool.and_eq_true_iff.1 h).2

end Sys2Proof.Laws.LengthBounds
end

