-- ==== Sys2Proof/Laws/Step.lean ====
section
/-! SUPPORT. What the fetch and a step can do (spec/60_exceptions.md R211, spec/70_reset_and_hazards.md R242). -/

namespace Sys2Proof.Machine

/-! ## The fetch -/

theorem byteAddr_succ (a : Addr) (b : Nat) : byteAddr (a + 1#64) b = byteAddr a (b + 1) := by
  simp only [byteAddr, Nat.add_comm b 1, BitVec.ofNat_add, BitVec.add_assoc]

theorem bytesAt_succ (m : List Host.Cell) (a : Addr) (n : Nat) :
    bytesAt m a (n + 1) = readByte m a :: bytesAt m (a + 1#64) n := by
  simp only [bytesAt, List.range_succ_eq_map, List.map_cons, List.map_map]
  congr 1
  · rw [byteAddr_zero]
  · exact List.map_congr_left fun b _ => by rw [Function.comp_apply, byteAddr_succ]

theorem length_bytesAt (m : List Host.Cell) (a : Addr) (n : Nat) : (bytesAt m a n).length = n := by simp [bytesAt]

/-- A byte can be fetched exactly when nothing stops its fetch. -/
theorem fetchStop_eq_none {s : State} {a : Addr} : fetchStop s a = none ↔ readable s a := by
  unfold fetchStop readable
  cases canonical s.cfg.linearBits a <;> cases accessibleByte s.cfg .load a <;> simp

/-- A byte is an instruction byte of the text exactly when nothing stops it. -/
theorem textStop_eq_none {s : State} {a : Addr} : textStop s a = none ↔ fetchable s a := by
  unfold textStop fetchable
  cases inText s.cfg a <;> simp [fetchStop_eq_none]

/-- The fetch of `n` bytes when nothing stops it. -/
theorem fetchBytes_all {stop : Addr → Option Stop} {m : List Host.Cell} {n : Nat} {a : Addr}
    (h : ∀ b < n, stop (byteAddr a b) = none) : fetchBytes stop m n a = (bytesAt m a n, none) := by
  induction n generalizing a with
  | zero => rfl
  | succ n ih =>
    have h0 : stop a = none := by simpa using h 0 (by omega)
    rw [fetchBytes, h0, bytesAt_succ, ih fun b hb => by rw [byteAddr_succ]; exact h (b + 1) (by omega)]

/-- The fetch of more bytes than `stop` allows: it ends at the first that is stopped. -/
theorem fetchBytes_until {stop : Addr → Option Stop} {m : List Host.Cell} {n k : Nat} {a : Addr} {st : Stop} (hk : k < n)
    (h : ∀ b < k, stop (byteAddr a b) = none) (hst : stop (byteAddr a k) = some st) :
    fetchBytes stop m n a = (bytesAt m a k, some st) := by
  induction n generalizing a k with
  | zero => omega
  | succ n ih =>
    cases k with
    | zero =>
      rw [byteAddr_zero] at hst
      rw [fetchBytes, hst]
      rfl
    | succ k =>
      have h0 : stop a = none := by simpa using h 0 (by omega)
      rw [fetchBytes, h0, bytesAt_succ, ih (k := k) (by omega)
        (fun b hb => by rw [byteAddr_succ]; exact h (b + 1) (by omega)) (by rw [byteAddr_succ]; exact hst)]

/-- What a fetch can do: fetch all `n` bytes, or stop at the first byte that is stopped. -/
theorem fetchBytes_cases (stop : Addr → Option Stop) (m : List Host.Cell) (n : Nat) (a : Addr) :
    ((∀ b < n, stop (byteAddr a b) = none) ∧ fetchBytes stop m n a = (bytesAt m a n, none))
    ∨ ∃ k st, k < n ∧ (∀ b < k, stop (byteAddr a b) = none) ∧ stop (byteAddr a k) = some st
      ∧ fetchBytes stop m n a = (bytesAt m a k, some st) := by
  by_cases h : ∀ b < n, stop (byteAddr a b) = none
  · exact .inl ⟨h, fetchBytes_all h⟩
  · right
    classical
    have hex : ∃ b, b < n ∧ ¬ stop (byteAddr a b) = none := by
      by_contra hne
      exact h fun b hb => by
        by_contra hf
        exact hne ⟨b, hb, hf⟩
    have hk := Nat.find_spec hex
    have hall : ∀ b < Nat.find hex, stop (byteAddr a b) = none := fun b hb => by
      by_contra hf
      exact Nat.find_min hex hb ⟨by omega, hf⟩
    cases hst : stop (byteAddr a (Nat.find hex)) with
    | none => exact absurd hst hk.2
    | some st => exact ⟨_, st, hk.1, hall, hst, fetchBytes_until hk.1 hall hst⟩

/-! ## A step -/

/-- Settling changes the outcome or nothing. -/
theorem settle_eq (s : State) : settle s = { s with outcome := (settle s).outcome } := by
  unfold settle
  split <;> rfl

theorem settle_outcome (s : State) :
    (settle s).outcome = if s.outcome = .running ∧ atTextEnd s = true then .ended else s.outcome := by
  unfold settle
  split <;> rfl

/-- R242: what a step can answer. -/
theorem step_cases (s : State) :
    (s.outcome ≠ .running ∧ step s = .fault .notRunning)
    ∨ (s.outcome = .running ∧ ∃ st, nextInstr s = .error st ∧ step s = .next (s.stop st))
    ∨ (s.outcome = .running ∧ ∃ i st, nextInstr s = .ok i ∧ checkAll (encodingOf i) (operandOf i) s = some st
        ∧ step s = .next (s.stop st))
    ∨ (s.outcome = .running ∧ ∃ i t, nextInstr s = .ok i ∧ checkAll (encodingOf i) (operandOf i) s = none
        ∧ exec i s = .next t ∧ Effect (encodingOf i) (operandOf i) i.len s t ∧ step s = .next (settle t)) := by
  by_cases hr : s.outcome = .running
  · right
    cases hn : nextInstr s with
    | error st => exact .inl ⟨hr, st, rfl, by simp only [step, hr, hn]⟩
    | ok i =>
      right
      rcases exec_cases i s with ⟨st, hc, he⟩ | ⟨hc, t, he, ht⟩
      · refine .inl ⟨hr, i, st, rfl, hc, ?_⟩
        simp only [step, hr, hn, he, settle, stop_outcome, stop_outcome_ne_running, false_and, if_false]
      · exact .inr ⟨hr, i, t, rfl, hc, he, ht, by simp only [step, hr, hn, he]⟩
  · refine .inl ⟨hr, ?_⟩
    unfold step
    split
    next h => exact absurd h hr
    · rfl

/-- R242: where a next state comes from. -/
theorem step_next {s t : State} (h : step s = .next t) :
    (∃ st, nextInstr s = .error st ∧ t = s.stop st)
    ∨ (∃ i st, nextInstr s = .ok i ∧ checkAll (encodingOf i) (operandOf i) s = some st ∧ t = s.stop st)
    ∨ ∃ i u, nextInstr s = .ok i ∧ checkAll (encodingOf i) (operandOf i) s = none ∧ s.outcome = .running
        ∧ Effect (encodingOf i) (operandOf i) i.len s u ∧ t = settle u := by
  rcases step_cases s with ⟨-, e⟩ | ⟨-, st, hn, e⟩ | ⟨-, i, st, hn, hc, e⟩ | ⟨hr, i, u, hn, hc, -, hu, e⟩ <;> rw [e] at h <;> cases h
  · exact .inl ⟨st, hn, rfl⟩
  · exact .inr (.inl ⟨i, st, hn, hc, rfl⟩)
  · exact .inr (.inr ⟨i, u, hn, hc, hr, hu, rfl⟩)

/-- A run that begins with a step. -/
theorem run_next (M : Host.Core) {s t : M.State} (k : Nat) (h : M.step s = .next t) : M.run (k + 1) s = M.run k t := by
  simp only [Host.Core.run, h]

end Sys2Proof.Machine
end

