-- ==== Sys2Proof/Tests/Slice0.lean ====
section
/-! SUPPORT. Tests: words written out from the spec's encodings and what they decode to, ill-formed terms that `wf` refuses, one
step on small states (the vectors of spec/95_test_vectors.md, named in each test's comment), and for every obligation with
hypotheses a concrete case that meets them all. -/

namespace Sys2Proof.Tests

-- One thread: each kernel evaluation on a thread of its own would need more memory than the check allows.
set_option Elab.async false

open Sys2Proof.Machine

/-! ## Small states -/

/-- The text `bytes` at `TEXT_BASE`, the rest as after reset. -/
def start (bytes : List Byte) : State := loadText State.reset bytes

def withX (n : Gpr) (a : Addr) (s : State) : State := { s with x := s.x.set n.toNat a n.isLt }

def withK (n : OpmaskSel) (e : BitVec 64) (s : State) : State := { s with k := s.k.set n.toNat e n.isLt }

def withV (n : VReg32) (e : VecWord) (s : State) : State := s.setVec n e

/-- `n` bytes of memory at `a` hold `e`. -/
def withMem (a : Addr) (n : Nat) (e : VecWord) (s : State) : State := { s with mem := memWrite s.mem a e n }

/-- `[base, base + size)` allows only the accesses given. -/
def withRegion (r : Region) (s : State) : State := { s with cfg := { s.cfg with regions := r :: s.cfg.regions } }

/-- The state after a step. -/
def after (s : State) : State :=
  match step s with
  | .next t => t
  | _ => s

/-- 512 ones. -/
def ones : VecWord := BitVec.allOnes 512

/-- Byte `b` of the value is `c + b`, for the first `n` bytes. -/
def rising (c : Nat) : Nat → VecWord
  | 0 => 0
  | n + 1 => rising c n ||| (BitVec.ofNat 512 ((c + n) % 256) <<< (8 * n))

/-- Element `j` of `bits` bits is `c + j`, for the first `n` elements. -/
def lanes (bits c : Nat) : Nat → VecWord
  | 0 => 0
  | n + 1 => lanes bits c n ||| (BitVec.ofNat 512 (c + n) <<< (bits * n))

def memAt (a : Addr) (n : Nat) (s : State) : VecWord := memRead s.mem a n

/-! ## Decoding: every constructor from a word of the spec -/

/-- L2, L21, L7, L8. -/
theorem test_decode_movdqa :
    decode [0x66, 0x45, 0x0F, 0x6F, 0xF9] = .ok (.movdqaXmmCopyRm 15 9 5)
    ∧ decode [0x66, 0x41, 0x0F, 0x6F, 0x44, 0xCC, 0xF0] = .ok (.movdqaXmmLoad 0 ⟨false, .sib 12 1 3 (.disp8 0xF0)⟩ 7)
    ∧ decode [0x66, 0x0F, 0x7F, 0xD1] = .ok (.movdqaXmmCopyMr 1 2 4)
    ∧ decode [0x66, 0x0F, 0x7F, 0x08] = .ok (.movdqaXmmStore ⟨false, .base 0 .none⟩ 1 4) := by
  decide

/-- V5, V3, V4, V7. -/
theorem test_decode_vmovdqa_xmm :
    decode [0xC4, 0xC1, 0x79, 0x6F, 0xC9] = .ok (.vmovdqaXmmCopyRm 1 9 5)
    ∧ decode [0xC5, 0xF9, 0x6F, 0x08] = .ok (.vmovdqaXmmLoad 1 ⟨false, .base 0 .none⟩ 4)
    ∧ decode [0xC5, 0x79, 0x7F, 0xC9] = .ok (.vmovdqaXmmCopyMr 1 9 4)
    ∧ decode [0xC5, 0xF9, 0x7F, 0x08] = .ok (.vmovdqaXmmStore ⟨false, .base 0 .none⟩ 1 4) := by
  decide

/-- V8, V24, V9, V13. -/
theorem test_decode_vmovdqa_ymm :
    decode [0xC5, 0xFD, 0x6F, 0xCA] = .ok (.vmovdqaYmmCopyRm 1 2 4)
    ∧ decode [0x67, 0xC5, 0xFD, 0x6F, 0x08] = .ok (.vmovdqaYmmLoad 1 ⟨true, .base 0 .none⟩ 5)
    ∧ decode [0xC5, 0xFD, 0x7F, 0xD1] = .ok (.vmovdqaYmmCopyMr 1 2 4)
    ∧ decode [0xC5, 0xFD, 0x7F, 0x08] = .ok (.vmovdqaYmmStore ⟨false, .base 0 .none⟩ 1 4) := by
  decide

/-- A1, A6, A10, A12, A15, A18. -/
theorem test_decode_vmovdqa32_rm :
    decode [0x62, 0xF1, 0x7D, 0x89, 0x6F, 0xCA] = .ok (.vmovdqa32XmmCopyRm 1 2 ⟨1, true⟩ 6)
    ∧ decode [0x62, 0xF1, 0x7D, 0x09, 0x6F, 0x08] = .ok (.vmovdqa32XmmLoad 1 ⟨1, false⟩ ⟨false, .base 0 .none⟩ 6)
    ∧ decode [0x62, 0xF1, 0x7D, 0x2A, 0x6F, 0xCA] = .ok (.vmovdqa32YmmCopyRm 1 2 ⟨2, false⟩ 6)
    ∧ decode [0x62, 0xF1, 0x7D, 0xA9, 0x6F, 0x48, 0x01] = .ok (.vmovdqa32YmmLoad 1 ⟨1, true⟩ ⟨false, .base 0 (.disp8 1)⟩ 7)
    ∧ decode [0x62, 0x81, 0x7D, 0x48, 0x6F, 0xCE] = .ok (.vmovdqa32ZmmCopyRm 17 30 ⟨0, false⟩ 6)
    ∧ decode [0x67, 0x62, 0xF1, 0x7D, 0x48, 0x6F, 0x84, 0x88, 0x00, 0x01, 0x00, 0x00] = .ok (.vmovdqa32ZmmLoad 0 ⟨0, false⟩ ⟨true, .sib 0 1 2 (.disp32 0x100)⟩ 12) := by
  decide

/-- the first by R97 and R110, then A19, A11, A21, A14, A22. -/
theorem test_decode_vmovdqa32_mr :
    decode [0x62, 0xF1, 0x7D, 0x89, 0x7F, 0xD1] = .ok (.vmovdqa32XmmCopyMr 1 2 ⟨1, true⟩ 6)
    ∧ decode [0x62, 0xF1, 0x7D, 0x09, 0x7F, 0x08] = .ok (.vmovdqa32XmmStore ⟨false, .base 0 .none⟩ 1 1 6)
    ∧ decode [0x62, 0xF1, 0x7D, 0x2A, 0x7F, 0xD1] = .ok (.vmovdqa32YmmCopyMr 1 2 ⟨2, false⟩ 6)
    ∧ decode [0x62, 0xF1, 0x7D, 0x29, 0x7F, 0x08] = .ok (.vmovdqa32YmmStore ⟨false, .base 0 .none⟩ 1 1 6)
    ∧ decode [0x62, 0xF1, 0x7D, 0x49, 0x7F, 0xD1] = .ok (.vmovdqa32ZmmCopyMr 1 2 ⟨1, false⟩ 6)
    ∧ decode [0x62, 0xF1, 0x7D, 0x49, 0x7F, 0x08] = .ok (.vmovdqa32ZmmStore ⟨false, .base 0 .none⟩ 1 1 6) := by
  decide

/-- B4, B5, B7, B9, B10, B15. -/
theorem test_decode_vmovdqa64_rm :
    decode [0x62, 0xE1, 0xFD, 0x08, 0x6F, 0xCA] = .ok (.vmovdqa64XmmCopyRm 17 2 ⟨0, false⟩ 6)
    ∧ decode [0x62, 0xF1, 0xFD, 0x09, 0x6F, 0x08] = .ok (.vmovdqa64XmmLoad 1 ⟨1, false⟩ ⟨false, .base 0 .none⟩ 6)
    ∧ decode [0x62, 0xF1, 0xFD, 0x2A, 0x6F, 0xCA] = .ok (.vmovdqa64YmmCopyRm 1 2 ⟨2, false⟩ 6)
    ∧ decode [0x62, 0xF1, 0xFD, 0xAA, 0x6F, 0x4C, 0xCE, 0x02] = .ok (.vmovdqa64YmmLoad 1 ⟨2, true⟩ ⟨false, .sib 6 1 3 (.disp8 2)⟩ 8)
    ∧ decode [0x62, 0xF1, 0xFD, 0x49, 0x6F, 0xCA] = .ok (.vmovdqa64ZmmCopyRm 1 2 ⟨1, false⟩ 6)
    ∧ decode [0x62, 0xF1, 0xFD, 0xCB, 0x6F, 0x0D, 0xF6, 0x00, 0x00, 0x00] = .ok (.vmovdqa64ZmmLoad 1 ⟨3, true⟩ ⟨false, .ripRel 0xF6⟩ 10) := by
  decide

/-- B2, B16, B8, B17, B11, B19. -/
theorem test_decode_vmovdqa64_mr :
    decode [0x62, 0xF1, 0xFD, 0x89, 0x7F, 0xD1] = .ok (.vmovdqa64XmmCopyMr 1 2 ⟨1, true⟩ 6)
    ∧ decode [0x62, 0xF1, 0xFD, 0x09, 0x7F, 0x08] = .ok (.vmovdqa64XmmStore ⟨false, .base 0 .none⟩ 1 1 6)
    ∧ decode [0x62, 0xF1, 0xFD, 0x2A, 0x7F, 0xD1] = .ok (.vmovdqa64YmmCopyMr 1 2 ⟨2, false⟩ 6)
    ∧ decode [0x62, 0xF1, 0xFD, 0x29, 0x7F, 0x08] = .ok (.vmovdqa64YmmStore ⟨false, .base 0 .none⟩ 1 1 6)
    ∧ decode [0x62, 0xF1, 0xFD, 0xC9, 0x7F, 0xD1] = .ok (.vmovdqa64ZmmCopyMr 1 2 ⟨1, true⟩ 6)
    ∧ decode [0x62, 0xE1, 0xFD, 0x4A, 0x7F, 0x08] = .ok (.vmovdqa64ZmmStore ⟨false, .base 0 .none⟩ 2 17 6) := by
  decide

/-- The address forms with no base, with an absent index and with an extended index, by R99 (SIB `25`, `24` and `B8` with
`X = 1`). -/
theorem test_decode_address_forms :
    decode [0x66, 0x0F, 0x6F, 0x0C, 0x25, 0x00, 0x10, 0x00, 0x00] = .ok (.movdqaXmmLoad 1 ⟨false, .sibNoBase 4 0 0x1000⟩ 9)
    ∧ decode [0x66, 0x41, 0x0F, 0x6F, 0x0C, 0x24] = .ok (.movdqaXmmLoad 1 ⟨false, .sib 12 4 0 .none⟩ 6)
    ∧ decode [0xC4, 0xA1, 0x79, 0x6F, 0x0C, 0xA0] = .ok (.vmovdqaXmmLoad 1 ⟨false, .sib 0 12 2 .none⟩ 6) := by
  decide

/-- V14, A25 to A31: one reserved value each. -/
theorem test_decode_reserved :
    decode [0xC5, 0xF1, 0x6F, 0xCA] = .error .ud
    ∧ decode [0x62, 0xF1, 0x7D, 0x18, 0x6F, 0xCA] = .error .ud
    ∧ decode [0x62, 0xF1, 0x7D, 0x68, 0x6F, 0xCA] = .error .ud
    ∧ decode [0x62, 0xF1, 0x7D, 0x88, 0x6F, 0xCA] = .error .ud
    ∧ decode [0x62, 0xF1, 0x7D, 0x00, 0x6F, 0xCA] = .error .ud
    ∧ decode [0x62, 0xF1, 0x75, 0x08, 0x6F, 0xCA] = .error .ud
    ∧ decode [0x62, 0xF5, 0x7D, 0x08, 0x6F, 0xCA] = .error .ud
    ∧ decode [0x62, 0xF1, 0x79, 0x08, 0x6F, 0xCA] = .error .ud
    ∧ decode [0x62, 0xF1, 0x7D, 0x89, 0x7F, 0x08] = .error .ud := by
  decide

/-- L22 to L24, L26, V22, V23, A35, A36: bytes outside the eighteen encodings, and sixteen bytes. -/
theorem test_decode_rejected :
    decode [0xF3, 0x0F, 0x6F, 0xCA] = .error (.notInScope .otherMandatoryPrefix)
    ∧ decode [0x0F, 0x6F, 0xCA] = .error (.notInScope .otherMandatoryPrefix)
    ∧ decode [0x64, 0x66, 0x0F, 0x6F, 0x08] = .error (.notInScope .segmentOverride)
    ∧ decode (List.replicate 13 0x66 ++ [0x0F, 0x6F, 0xCA]) = .error .gp
    ∧ decode [0xC5, 0xFA, 0x6F, 0xCA] = .error (.notInScope .opcode)
    ∧ decode [0xC4, 0xE2, 0x79, 0x6F, 0xCA] = .error (.notInScope .opcode)
    ∧ decode [0x62, 0xF2, 0x7D, 0x48, 0x6F, 0xCA] = .error (.notInScope .opcode)
    ∧ decode [0x62, 0xF1, 0x7E, 0x48, 0x6F, 0xCA] = .error (.notInScope .opcode) := by
  decide

/-- Words numbered as the opcode table writes them, the first byte most significant. -/
theorem test_decodeTableWord :
    decodeTableWord 32 0x660F6FC0 = some (.movdqaXmmCopyRm 0 0 4)
    ∧ decodeTableWord 48 0x62F17D896FCA = some (.vmovdqa32XmmCopyRm 1 2 ⟨1, true⟩ 6) := by
  decide

/-! ## Well-formedness: an ill-formed term for each check -/

/-- A base register whose low bits are `100b` needs a SIB byte, and with `101b` and no displacement it is RIP-relative. -/
theorem test_wf_base :
    Instr.wf (.movdqaXmmLoad 0 ⟨false, .base 12 .none⟩ 5) = false
    ∧ Instr.wf (.movdqaXmmLoad 0 ⟨false, .base 5 .none⟩ 4) = false
    ∧ Instr.wf (.movdqaXmmLoad 0 ⟨false, .base 5 (.disp8 0)⟩ 5) = true := by
  decide

/-- A SIB base with low bits `101b` needs a displacement. -/
theorem test_wf_sib :
    Instr.wf (.vmovdqaXmmLoad 0 ⟨false, .sib 13 1 0 .none⟩ 6) = false
    ∧ Instr.wf (.vmovdqaXmmLoad 0 ⟨false, .sib 13 1 0 (.disp8 0)⟩ 7) = true := by
  decide

/-- Zeroing without a writemask. -/
theorem test_wf_zeroing :
    Instr.wf (.vmovdqa32XmmCopyRm 0 0 ⟨0, true⟩ 6) = false ∧ Instr.wf (.vmovdqa32XmmCopyRm 0 0 ⟨1, true⟩ 6) = true := by
  decide

/-- Lengths below the shortest encoding and above 15, for each of the six shapes. -/
theorem test_wf_length :
    Instr.wf (.movdqaXmmCopyRm 8 0 4) = false ∧ Instr.wf (.movdqaXmmCopyRm 0 0 16) = false
    ∧ Instr.wf (.movdqaXmmLoad 0 ⟨true, .base 0 .none⟩ 4) = false ∧ Instr.wf (.movdqaXmmLoad 0 ⟨true, .base 0 .none⟩ 16) = false
    ∧ Instr.wf (.vmovdqaXmmCopyRm 0 8 4) = false ∧ Instr.wf (.vmovdqaXmmCopyRm 0 0 16) = false
    ∧ Instr.wf (.vmovdqaXmmLoad 0 ⟨false, .base 8 .none⟩ 4) = false ∧ Instr.wf (.vmovdqaXmmLoad 0 ⟨false, .base 0 .none⟩ 6) = false
    ∧ Instr.wf (.vmovdqaXmmLoad 0 ⟨true, .base 0 .none⟩ 4) = false
    ∧ Instr.wf (.vmovdqa64ZmmCopyRm 0 0 ⟨0, false⟩ 5) = false ∧ Instr.wf (.vmovdqa64ZmmCopyRm 0 0 ⟨0, false⟩ 16) = false
    ∧ Instr.wf (.vmovdqa64ZmmLoad 0 ⟨0, false⟩ ⟨false, .base 0 .none⟩ 7) = false
    ∧ Instr.wf (.vmovdqa64ZmmLoad 0 ⟨0, false⟩ ⟨true, .base 0 .none⟩ 6) = false := by
  decide

/-! ## One step -/

/-- L2: the bits above 127 are kept. -/
theorem test_movdqaXmmCopyRm :
    let t := after (withV 15 (1 ||| 0x55 <<< 504) <| withV 9 (0x9999 ||| 0x77 <<< 504) <| start [0x66, 0x45, 0x0F, 0x6F, 0xF9])
    t.vec 15 = 0x9999 ||| 0x55 <<< 504
      ∧ t.pc = 0x400005 ∧ t.outcome = .ended := by
  decide +kernel

/-- L4. -/
theorem test_movdqaXmmLoad :
    let t := after (withV 1 ones <| withMem 0x1000 16 (rising 0 16) <| withX 0 0x1000 <| start [0x66, 0x0F, 0x6F, 0x08])
    t.vec 1 = 0x0F0E0D0C0B0A09080706050403020100 ||| (ones >>> 128 <<< 128)
      ∧ t.pc = 0x400004 ∧ t.outcome = .ended := by
  decide +kernel

/-- L7. -/
theorem test_movdqaXmmCopyMr :
    let t := after (withV 2 0xAAAAAAAABBBBBBBBCCCCCCCCDDDDDDDD <| start [0x66, 0x0F, 0x7F, 0xD1])
    t.vec 1 = 0xAAAAAAAABBBBBBBBCCCCCCCCDDDDDDDD
      ∧ t.pc = 0x400004 ∧ t.outcome = .ended := by
  decide +kernel

/-- L8. -/
theorem test_movdqaXmmStore :
    let t := after (withMem 0x2010 1 0x5A <| withMem 0x1FFF 1 0x5B <| withV 1 (0x0F0E0D0C0B0A09080706050403020100 ||| (ones >>> 128 <<< 128)) <| withX 0 0x2000 <| start [0x66, 0x0F, 0x7F, 0x08])
    memAt 0x1FFF 18 t = 0x5B ||| rising 0 16 <<< 8 ||| 0x5A <<< 136
      ∧ t.pc = 0x400004 ∧ t.outcome = .ended := by
  decide +kernel

/-- V2: not a no-op. -/
theorem test_vmovdqaXmmCopyRm :
    let t := after (withV 5 ones <| start [0xC5, 0xF9, 0x6F, 0xED])
    t.vec 5 = ones >>> 384
      ∧ t.pc = 0x400004 ∧ t.outcome = .ended := by
  decide +kernel

/-- V3. -/
theorem test_vmovdqaXmmLoad :
    let t := after (withV 1 ones <| withMem 0x1000 16 (rising 0x10 16) <| withX 0 0x1000 <| start [0xC5, 0xF9, 0x6F, 0x08])
    t.vec 1 = 0x1F1E1D1C1B1A19181716151413121110
      ∧ t.pc = 0x400004 ∧ t.outcome = .ended := by
  decide +kernel

/-- V4. -/
theorem test_vmovdqaXmmCopyMr :
    let t := after (withV 1 ones <| withV 9 0x99999999999999999999999999999999 <| start [0xC5, 0x79, 0x7F, 0xC9])
    t.vec 1 = 0x99999999999999999999999999999999
      ∧ t.pc = 0x400004 ∧ t.outcome = .ended := by
  decide +kernel

/-- V7. -/
theorem test_vmovdqaXmmStore :
    let t := after (withV 1 0xFFEEDDCCBBAA99887766554433221100 <| withX 0 0x2000 <| start [0xC5, 0xF9, 0x7F, 0x08])
    memAt 0x2000 17 t = 0xFFEEDDCCBBAA99887766554433221100
      ∧ t.pc = 0x400004 ∧ t.outcome = .ended := by
  decide +kernel

/-- V8. -/
theorem test_vmovdqaYmmCopyRm :
    let t := after (withV 1 ones <| withV 2 (rising 0 32 ||| ones >>> 256 <<< 256) <| start [0xC5, 0xFD, 0x6F, 0xCA])
    t.vec 1 = rising 0 32
      ∧ t.pc = 0x400004 ∧ t.outcome = .ended := by
  decide +kernel

/-- V24: a 32-bit address. -/
theorem test_vmovdqaYmmLoad :
    let t := after (withMem 0x1000 32 0xCAFE <| withX 0 0x200001000 <| start [0x67, 0xC5, 0xFD, 0x6F, 0x08])
    t.vec 1 = 0xCAFE
      ∧ t.pc = 0x400005 ∧ t.outcome = .ended := by
  decide +kernel

/-- V9. -/
theorem test_vmovdqaYmmCopyMr :
    let t := after (withV 1 ones <| withV 2 (rising 0 32 ||| ones >>> 256 <<< 256) <| start [0xC5, 0xFD, 0x7F, 0xD1])
    t.vec 1 = rising 0 32
      ∧ t.pc = 0x400004 ∧ t.outcome = .ended := by
  decide +kernel

/-- V13. -/
theorem test_vmovdqaYmmStore :
    let t := after (withMem 0x2020 1 0x5A <| withV 1 (rising 0xA0 32 ||| ones >>> 256 <<< 256) <| withX 0 0x2000 <| start [0xC5, 0xFD, 0x7F, 0x08])
    memAt 0x2000 33 t = rising 0xA0 32 ||| 0x5A <<< 256
      ∧ t.pc = 0x400004 ∧ t.outcome = .ended := by
  decide +kernel

/-- A2: merging. -/
theorem test_vmovdqa32XmmCopyRm :
    let t := after (withV 1 ones <| withV 2 0x44444444333333332222222211111111 <| withK 1 5 <| start [0x62, 0xF1, 0x7D, 0x09, 0x6F, 0xCA])
    t.vec 1 = 0xFFFFFFFF33333333FFFFFFFF11111111
      ∧ t.pc = 0x400006 ∧ t.outcome = .ended := by
  decide +kernel

/-- A6. -/
theorem test_vmovdqa32XmmLoad :
    let t := after (withV 1 (0x0D0D0D0D0C0C0C0C0B0B0B0B0A0A0A0A ||| (ones >>> 128 <<< 128)) <| withK 1 6 <| withMem 0x1000 16 0xA3A3A3A3A2A2A2A2A1A1A1A1A0A0A0A0 <| withX 0 0x1000 <| start [0x62, 0xF1, 0x7D, 0x09, 0x6F, 0x08])
    t.vec 1 = 0x0D0D0D0DA2A2A2A2A1A1A1A10A0A0A0A
      ∧ t.pc = 0x400006 ∧ t.outcome = .ended := by
  decide +kernel

/-- A10. -/
theorem test_vmovdqa32YmmCopyRm :
    let t := after (withV 1 (lanes 32 0x10 16) <| withV 2 (lanes 32 0x20 8) <| withK 2 0xF0 <| start [0x62, 0xF1, 0x7D, 0x2A, 0x6F, 0xCA])
    t.vec 1 = lanes 32 0x10 4 ||| lanes 32 0x24 4 <<< 128
      ∧ t.pc = 0x400006 ∧ t.outcome = .ended := by
  decide +kernel

/-- A12: a scaled `disp8`. -/
theorem test_vmovdqa32YmmLoad :
    let t := after (withV 1 ones <| withK 1 0x81 <| withMem 0x1020 32 (lanes 32 0xB0 8) <| withX 0 0x1000 <| start [0x62, 0xF1, 0x7D, 0xA9, 0x6F, 0x48, 0x01])
    t.vec 1 = 0xB0 ||| 0xB7 <<< 224
      ∧ t.pc = 0x400007 ∧ t.outcome = .ended := by
  decide +kernel

/-- A15: registers above 15. -/
theorem test_vmovdqa32ZmmCopyRm :
    let t := after (withV 17 ones <| withV 30 (0x30 ||| 0x1E1E <<< 496) <| start [0x62, 0x81, 0x7D, 0x48, 0x6F, 0xCE])
    t.vec 17 = 0x30 ||| 0x1E1E <<< 496
      ∧ t.pc = 0x400006 ∧ t.outcome = .ended := by
  decide +kernel

/-- A18: a 32-bit address and an unscaled `disp32`. -/
theorem test_vmovdqa32ZmmLoad :
    let t := after (withMem 0x1200 64 0x5555 <| withX 1 0x40 <| withX 0 0x1000 <| start [0x67, 0x62, 0xF1, 0x7D, 0x48, 0x6F, 0x84, 0x88, 0x00, 0x01, 0x00, 0x00])
    t.vec 0 = 0x5555
      ∧ t.pc = 0x40000c ∧ t.outcome = .ended := by
  decide +kernel

/-- A1 with opcode 7F (R166). -/
theorem test_vmovdqa32XmmCopyMr :
    let t := after (withV 1 ones <| withV 2 0x44444444333333332222222211111111 <| withK 1 5 <| start [0x62, 0xF1, 0x7D, 0x89, 0x7F, 0xD1])
    t.vec 1 = 0x00000000333333330000000011111111
      ∧ t.pc = 0x400006 ∧ t.outcome = .ended := by
  decide +kernel

/-- A19. -/
theorem test_vmovdqa32XmmStore :
    let t := after (withMem 0x2000 16 (ones >>> 384 &&& 0xEEEEEEEEEEEEEEEEEEEEEEEEEEEEEEEE) <| withV 1 0xD3D3D3D3D2D2D2D2D1D1D1D1D0D0D0D0 <| withK 1 9 <| withX 0 0x2000 <| start [0x62, 0xF1, 0x7D, 0x09, 0x7F, 0x08])
    memAt 0x2000 16 t = 0xD3D3D3D3EEEEEEEEEEEEEEEED0D0D0D0
      ∧ t.pc = 0x400006 ∧ t.outcome = .ended := by
  decide +kernel

/-- A11. -/
theorem test_vmovdqa32YmmCopyMr :
    let t := after (withV 1 (lanes 32 0x10 16) <| withV 2 (lanes 32 0x20 8) <| withK 2 0xF0 <| start [0x62, 0xF1, 0x7D, 0x2A, 0x7F, 0xD1])
    t.vec 1 = lanes 32 0x10 4 ||| lanes 32 0x24 4 <<< 128
      ∧ t.pc = 0x400006 ∧ t.outcome = .ended := by
  decide +kernel

/-- A21. -/
theorem test_vmovdqa32YmmStore :
    let t := after (withMem 0x2010 16 0xEEEEEEEEEEEEEEEEEEEEEEEEEEEEEEEE <| withV 1 (lanes 32 0xC0 8) <| withK 1 0x0F <| withX 0 0x2000 <| start [0x62, 0xF1, 0x7D, 0x29, 0x7F, 0x08])
    memAt 0x2000 32 t = lanes 32 0xC0 4 ||| 0xEEEEEEEEEEEEEEEEEEEEEEEEEEEEEEEE <<< 128
      ∧ t.pc = 0x400006 ∧ t.outcome = .ended := by
  decide +kernel

/-- A14. -/
theorem test_vmovdqa32ZmmCopyMr :
    let t := after (withV 1 (lanes 32 0x100 16) <| withV 2 (lanes 32 0x200 16) <| withK 1 0xFF <| start [0x62, 0xF1, 0x7D, 0x49, 0x7F, 0xD1])
    t.vec 1 = lanes 32 0x200 8 ||| lanes 32 0x108 8 <<< 256
      ∧ t.pc = 0x400006 ∧ t.outcome = .ended := by
  decide +kernel

/-- A22. -/
theorem test_vmovdqa32ZmmStore :
    let t := after (withV 1 (lanes 32 0xE0 16) <| withK 1 0x8001 <| withX 0 0x2000 <| start [0x62, 0xF1, 0x7D, 0x49, 0x7F, 0x08])
    memAt 0x2000 64 t = 0xE0 ||| 0xEF <<< 480
      ∧ t.pc = 0x400006 ∧ t.outcome = .ended := by
  decide +kernel

/-- B3: `KL = 2`. -/
theorem test_vmovdqa64XmmCopyRm :
    let t := after (withV 1 ones <| withV 2 0x44444444333333332222222211111111 <| withK 1 5 <| start [0x62, 0xF1, 0xFD, 0x89, 0x6F, 0xCA])
    t.vec 1 = 0x2222222211111111
      ∧ t.pc = 0x400006 ∧ t.outcome = .ended := by
  decide +kernel

/-- B5. -/
theorem test_vmovdqa64XmmLoad :
    let t := after (withV 1 (0x0B0B0B0B0B0B0B0B0A0A0A0A0A0A0A0A ||| (ones >>> 128 <<< 128)) <| withK 1 1 <| withMem 0x1000 16 0xA1A1A1A1A1A1A1A1A0A0A0A0A0A0A0A0 <| withX 0 0x1000 <| start [0x62, 0xF1, 0xFD, 0x09, 0x6F, 0x08])
    t.vec 1 = 0x0B0B0B0B0B0B0B0BA0A0A0A0A0A0A0A0
      ∧ t.pc = 0x400006 ∧ t.outcome = .ended := by
  decide +kernel

/-- B7. -/
theorem test_vmovdqa64YmmCopyRm :
    let t := after (withV 1 (lanes 64 0x10 8) <| withV 2 (lanes 64 0x20 4) <| withK 2 0xA <| start [0x62, 0xF1, 0xFD, 0x2A, 0x6F, 0xCA])
    t.vec 1 = 0x10 ||| 0x21 <<< 64 ||| 0x12 <<< 128 ||| 0x23 <<< 192
      ∧ t.pc = 0x400006 ∧ t.outcome = .ended := by
  decide +kernel

/-- B9: SIB and a scaled `disp8`. -/
theorem test_vmovdqa64YmmLoad :
    let t := after (withV 1 ones <| withK 2 3 <| withMem 0x1060 32 (lanes 64 0xB0 4) <| withX 1 4 <| withX 6 0x1000 <| start [0x62, 0xF1, 0xFD, 0xAA, 0x6F, 0x4C, 0xCE, 0x02])
    t.vec 1 = 0xB0 ||| 0xB1 <<< 64
      ∧ t.pc = 0x400008 ∧ t.outcome = .ended := by
  decide +kernel

/-- B10. -/
theorem test_vmovdqa64ZmmCopyRm :
    let t := after (withV 1 (lanes 64 0x100 8) <| withV 2 (lanes 64 0x200 8) <| withK 1 0x81 <| start [0x62, 0xF1, 0xFD, 0x49, 0x6F, 0xCA])
    t.vec 1 = 0x200 ||| lanes 64 0x101 6 <<< 64 ||| 0x207 <<< 448
      ∧ t.pc = 0x400006 ∧ t.outcome = .ended := by
  decide +kernel

/-- B15: RIP-relative. -/
theorem test_vmovdqa64ZmmLoad :
    let t := after (withK 3 0xFF <| withMem 0x400100 8 0x99 <| start [0x62, 0xF1, 0xFD, 0xCB, 0x6F, 0x0D, 0xF6, 0x00, 0x00, 0x00])
    t.vec 1 = 0x99
      ∧ t.pc = 0x40000a ∧ t.outcome = .ended := by
  decide +kernel

/-- B2. -/
theorem test_vmovdqa64XmmCopyMr :
    let t := after (withV 1 ones <| withV 2 0x22222222222222221111111111111111 <| withK 1 2 <| start [0x62, 0xF1, 0xFD, 0x89, 0x7F, 0xD1])
    t.vec 1 = 0x22222222222222220000000000000000
      ∧ t.pc = 0x400006 ∧ t.outcome = .ended := by
  decide +kernel

/-- B16. -/
theorem test_vmovdqa64XmmStore :
    let t := after (withMem 0x2000 8 0xEEEEEEEEEEEEEEEE <| withV 1 0xD1D1D1D1D1D1D1D1D0D0D0D0D0D0D0D0 <| withK 1 2 <| withX 0 0x2000 <| start [0x62, 0xF1, 0xFD, 0x09, 0x7F, 0x08])
    memAt 0x2000 16 t = 0xD1D1D1D1D1D1D1D1EEEEEEEEEEEEEEEE
      ∧ t.pc = 0x400006 ∧ t.outcome = .ended := by
  decide +kernel

/-- B8. -/
theorem test_vmovdqa64YmmCopyMr :
    let t := after (withV 1 (lanes 64 0x10 8) <| withV 2 (lanes 64 0x20 4) <| withK 2 0xA <| start [0x62, 0xF1, 0xFD, 0x2A, 0x7F, 0xD1])
    t.vec 1 = 0x10 ||| 0x21 <<< 64 ||| 0x12 <<< 128 ||| 0x23 <<< 192
      ∧ t.pc = 0x400006 ∧ t.outcome = .ended := by
  decide +kernel

/-- B17. -/
theorem test_vmovdqa64YmmStore :
    let t := after (withMem 0x2008 8 0xEE <| withV 1 (lanes 64 0xC0 4) <| withK 1 5 <| withX 0 0x2000 <| start [0x62, 0xF1, 0xFD, 0x29, 0x7F, 0x08])
    memAt 0x2000 32 t = 0xC0 ||| 0xEE <<< 64 ||| 0xC2 <<< 128
      ∧ t.pc = 0x400006 ∧ t.outcome = .ended := by
  decide +kernel

/-- B11. -/
theorem test_vmovdqa64ZmmCopyMr :
    let t := after (withV 1 (lanes 64 0x100 8) <| withV 2 (lanes 64 0x200 8) <| withK 1 0x81 <| start [0x62, 0xF1, 0xFD, 0xC9, 0x7F, 0xD1])
    t.vec 1 = 0x200 ||| 0x207 <<< 448
      ∧ t.pc = 0x400006 ∧ t.outcome = .ended := by
  decide +kernel

/-- B19. -/
theorem test_vmovdqa64ZmmStore :
    let t := after (withV 17 ones <| withK 2 0x0F <| withX 0 0x5000 <| start [0x62, 0xE1, 0xFD, 0x4A, 0x7F, 0x08])
    memAt 0x5000 64 t = ones >>> 256
      ∧ t.pc = 0x400006 ∧ t.outcome = .ended := by
  decide +kernel

/-- L9. -/
theorem test_stack_fault :
    let s := withX 4 0x0000800000000000 <| start [0x66, 0x44, 0x0F, 0x6F, 0x3C, 0x24]
    step s = .next ({ s with outcome := .fault 12 .zero }) := by
  rfl

/-- L29. -/
theorem test_misaligned_before_inaccessible :
    let s := withRegion ⟨0x7000, 0x1000, false, false⟩ <| withX 0 0x7008 <| start [0x66, 0x0F, 0x6F, 0x08]
    step s = .next ({ s with outcome := .fault 13 .zero }) := by
  rfl

/-- L27. -/
theorem test_store_to_text :
    let s := withX 0 0x400000 <| start [0x66, 0x0F, 0x7F, 0x00]
    step s = .next ({ s with outcome := .refused .storeToProgramText }) := by
  rfl

/-- A8. -/
theorem test_masked_off_page_fault :
    let s := withRegion ⟨0x7000, 0x1000, false, false⟩ <| withX 0 0x7000 <| start [0x62, 0xF1, 0x7D, 0x09, 0x6F, 0x08]
    step s = .next ({ s with outcome := .fault 14 .unmodelled }) := by
  rfl

/-! ## Witnesses: concrete cases that meet the hypotheses of the statements

`witness_<Name>` is for `Obligations.<Name>`. -/

/-- One instruction of each row: memory operand `m`, vector operands `r`, writemask `aaa` with `z` where it is allowed; `len`
for the legacy SSE and VEX rows, `elen` for the EVEX rows. -/
def everyInstr (m : MemOperand) (r : VReg16) (aaa : OpmaskSel) (z : Bool) (len elen : Nat) : List Instr :=
  let q := vreg r
  let k : Masking := ⟨aaa, z⟩
  [.movdqaXmmCopyRm r r len, .movdqaXmmLoad r m len, .movdqaXmmCopyMr r r len, .movdqaXmmStore m r len,
    .vmovdqaXmmCopyRm r r len, .vmovdqaXmmLoad r m len, .vmovdqaXmmCopyMr r r len, .vmovdqaXmmStore m r len,
    .vmovdqaYmmCopyRm r r len, .vmovdqaYmmLoad r m len, .vmovdqaYmmCopyMr r r len, .vmovdqaYmmStore m r len,
    .vmovdqa32XmmCopyRm q q k elen, .vmovdqa32XmmLoad q k m elen, .vmovdqa32YmmCopyRm q q k elen,
    .vmovdqa32YmmLoad q k m elen, .vmovdqa32ZmmCopyRm q q k elen, .vmovdqa32ZmmLoad q k m elen,
    .vmovdqa32XmmCopyMr q q k elen, .vmovdqa32XmmStore m aaa q elen, .vmovdqa32YmmCopyMr q q k elen,
    .vmovdqa32YmmStore m aaa q elen, .vmovdqa32ZmmCopyMr q q k elen, .vmovdqa32ZmmStore m aaa q elen,
    .vmovdqa64XmmCopyRm q q k elen, .vmovdqa64XmmLoad q k m elen, .vmovdqa64YmmCopyRm q q k elen,
    .vmovdqa64YmmLoad q k m elen, .vmovdqa64ZmmCopyRm q q k elen, .vmovdqa64ZmmLoad q k m elen,
    .vmovdqa64XmmCopyMr q q k elen, .vmovdqa64XmmStore m aaa q elen, .vmovdqa64YmmCopyMr q q k elen,
    .vmovdqa64YmmStore m aaa q elen, .vmovdqa64ZmmCopyMr q q k elen, .vmovdqa64ZmmStore m aaa q elen]

/-- The shortest encodings: every row, no mask, `[x[0]]`. -/
def shortest : List Instr := everyInstr ⟨false, .base 0 .none⟩ 0 0 false 4 6

/-- Every row in 15 bytes: registers 15, a SIB byte, a `disp32`, 32-bit addressing. -/
def longest : List Instr := everyInstr ⟨true, .sib 15 15 3 (.disp32 0xFFFFFFC0)⟩ 15 7 true 15 15

/-- A state that is ready for every row with the memory operand `[x[0]]`: the first byte of the last aligned block. -/
def readyState : State := withK 1 0x5 <| withX 0 0xFFFFFFFFFFFFFFC0 State.reset

/-- The same with `MASK_FAULT_SUPPRESSION` and no byte accessible but the first four of the operand. -/
def suppressed : State :=
  let s := withK 1 0x1 <| withK 2 0 <| withX 0 0x7000 <| withRegion ⟨0x7004, 0x1000, false, false⟩ State.reset
  { s with cfg := { s.cfg with maskFaultSuppression := true } }

/-- The state after `exec`. -/
def ran (i : Instr) (s : State) : State :=
  match exec i s with
  | .next t => t
  | _ => s

/-- Every gate is open. -/
abbrev allOpen (c : Config) : Prop :=
  gateOpen c .legacy ∧ gateOpen c .vex ∧ gateOpen c (.evex .l128) ∧ gateOpen c (.evex .l256) ∧ gateOpen c (.evex .l512)

/-- `o.ready s`, decided. -/
def isReady (s : State) (o : Operand) : Bool := decide (o.ready s)

theorem isReady_iff (s : State) (o : Operand) : isReady s o = true ↔ o.ready s := by simp only [isReady, decide_eq_true_eq]

theorem witness_DecodeOfEncodeIsIdentity : ∀ i ∈ shortest ++ longest, i.wf = true := by decide

/-- Each clause on bytes that decode, with and without legacy prefix bytes: register, SIB and RIP-relative forms, at the bounds
of the modes of ModRM. -/
theorem witness_IgnoredBitsDoNotChangeTheDecoding :
    (∀ b ∈ [(0x66 : Byte), 0x67, 0x65], isLegacyPrefix b)
    ∧ (0x40 : Byte).extractLsb' 4 4 = 4#4 ∧ (0x4F : Byte).extractLsb' 4 4 = 4#4
    ∧ decode ([0x66, 0x67] ++ 0x44 :: [0x0F, 0x6F, 0xCA]) = .ok (.movdqaXmmCopyRm 9 2 6)
    ∧ decode ([] ++ 0xC4 :: 0xE1 :: 0x79 :: [0x6F, 0xCA]) = .ok (.vmovdqaXmmCopyRm 1 2 5)
    ∧ noSib 0xC4 ∧ noSib 0xBF ∧ ¬ noSib 0x84 ∧ (0xBF : Byte).extractLsb' 6 2 ≠ 0b11#2
    ∧ decode ([0x66] ++ 0x40 :: 0x0F :: 0x6F :: 0xC4 :: []) = .ok (.movdqaXmmCopyRm 0 4 5)
    ∧ decode ([] ++ 0xC4 :: 0xE1 :: 0x79 :: 0x7F :: 0x00 :: []) = .ok (.vmovdqaXmmStore ⟨false, .base 0 .none⟩ 0 5)
    ∧ decode ([] ++ 0x62 :: 0xF1 :: 0x7D :: 0x48 :: 0x6F :: 0x08 :: []) = .ok (.vmovdqa32ZmmLoad 1 ⟨0, false⟩ ⟨false, .base 0 .none⟩ 6)
    ∧ noBase 0x0D 0 ∧ noBase 0x0C 0x25 ∧ ¬ noBase 0x4C 0x25 ∧ ¬ noBase 0x0C 0x24
    ∧ decode ([0x66] ++ 0x41 :: 0x0F :: 0x6F :: 0x0D :: 0x01 :: [0, 0, 0]) = .ok (.movdqaXmmLoad 1 ⟨false, .ripRel 1⟩ 9)
    ∧ decode ([] ++ 0xC4 :: 0xC1 :: 0x79 :: 0x6F :: 0x0C :: 0x25 :: [1, 0, 0, 0])
        = .ok (.vmovdqaXmmLoad 1 ⟨false, .sibNoBase 4 0 1⟩ 10)
    ∧ decode ([] ++ 0x62 :: 0xD1 :: 0x7D :: 0x48 :: 0x6F :: 0x0D :: 0x01 :: [0, 0, 0])
        = .ok (.vmovdqa32ZmmLoad 1 ⟨0, false⟩ ⟨false, .ripRel 1⟩ 10) := by decide

/-- Each clause at 4 bytes and at 14. -/
theorem witness_LongerSpellingsDifferOnlyInLength :
    decode [0x66, 0x0F, 0x6F, 0xCA] = .ok (.movdqaXmmCopyRm 1 2 4)
    ∧ decode (List.replicate 11 0x66 ++ [0x0F, 0x6F, 0xCA]) = .ok (.movdqaXmmCopyRm 1 2 14)
    ∧ encodingOf (.movdqaXmmCopyRm 1 2 14) = .legacy
    ∧ decode [0x62, 0xF1, 0x7D, 0x48, 0x6F, 0x84, 0x88, 0, 1, 0, 0]
        = .ok (.vmovdqa32ZmmLoad 0 ⟨0, false⟩ ⟨false, .sib 0 1 2 (.disp32 0x100)⟩ 11)
    ∧ (∀ b ∈ List.replicate 11 (0x66 : Byte), isLegacyPrefix b)
    ∧ decode (List.replicate 11 0x66 ++ 0x0F :: [0x6F, 0xCA]) = .ok (.movdqaXmmCopyRm 1 2 14)
    ∧ (∀ b ∈ List.replicate 10 (0x67 : Byte), isLegacyPrefix b)
    ∧ decode (List.replicate 10 0x67 ++ 0xC5 :: 0x7D :: [0x6F, 0xCA]) = .ok (.vmovdqaYmmCopyRm 9 2 14)
    ∧ decode ([] ++ 0xC5 :: 0xF9 :: [0x6F, 0xCA]) = .ok (.vmovdqaXmmCopyRm 1 2 4) := by decide

theorem witness_EncodingHasTheInstructionLength :
    (∃ i ∈ shortest, i.wf = true ∧ i.len = 4) ∧ ∃ i ∈ longest, i.wf = true ∧ i.len = 15 := by decide

theorem witness_DecodedInstructionIsWellFormedAndReadsItsLength :
    decode [0x66, 0x0F, 0x6F, 0xCA] = .ok (.movdqaXmmCopyRm 1 2 4)
    ∧ decode (List.replicate 12 (0x66 : Byte) ++ [0x0F, 0x6F, 0xCA, 0x90]) = .ok (.movdqaXmmCopyRm 1 2 15)
    ∧ ([0x66, 0x0F, 0x6F, 0xCA, 0x90] : List Byte).take 4 = ([0x66, 0x0F, 0x6F, 0xCA] : List Byte).take 4 := by decide

theorem witness_ReservedVvvvIsInvalidOpcode :
    (∀ pay' ∈ [0xF1, 0x81], (BitVec.ofNat 8 pay').extractLsb' 3 4 ≠ 0b1111#4
      ∧ (BitVec.ofNat 8 pay').extractLsb' 0 3 = (0xF9 : Byte).extractLsb' 0 3
      ∧ (BitVec.ofNat 8 pay').getLsbD 7 = (0xF9 : Byte).getLsbD 7)
    ∧ (∀ pay' ∈ [0x71, 0x01], (BitVec.ofNat 8 pay').extractLsb' 3 4 ≠ 0b1111#4
      ∧ (BitVec.ofNat 8 pay').extractLsb' 0 3 = (0x79 : Byte).extractLsb' 0 3
      ∧ (BitVec.ofNat 8 pay').getLsbD 7 = (0x79 : Byte).getLsbD 7)
    ∧ (∀ pay' ∈ [0x75, 0x05], (BitVec.ofNat 8 pay').extractLsb' 3 4 ≠ 0b1111#4
      ∧ (BitVec.ofNat 8 pay').extractLsb' 0 3 = (0x7D : Byte).extractLsb' 0 3
      ∧ (BitVec.ofNat 8 pay').getLsbD 7 = (0x7D : Byte).getLsbD 7)
    ∧ (∀ n ∈ [0, 11], decode (List.replicate n 0x67 ++ 0xC5 :: 0xF9 :: [0x6F, 0xCA]) = .ok (.vmovdqaXmmCopyRm 1 2 (4 + n)))
    ∧ (∀ n ∈ [0, 10], decode (List.replicate n 0x67 ++ 0xC4 :: 0xE1 :: 0x79 :: [0x6F, 0xCA]) = .ok (.vmovdqaXmmCopyRm 1 2 (5 + n)))
    ∧ ∀ n ∈ [0, 9], decode (List.replicate n 0x67 ++ 0x62 :: 0xF1 :: 0x7D :: 0x48 :: [0x6F, 0xCA])
        = .ok (.vmovdqa32ZmmCopyRm 1 2 ⟨0, false⟩ (6 + n)) := by decide

theorem witness_ReservedEvexValuesAreInvalidOpcode :
    (∀ n ∈ [0, 9], decode (List.replicate n 0x67 ++ 0x62 :: 0xF1 :: 0x7D :: 0x48 :: 0x6F :: 0xCA :: [])
        = .ok (.vmovdqa32ZmmCopyRm 1 2 ⟨0, false⟩ (6 + n)))
    ∧ decode (List.replicate 0 0x67 ++ 0x62 :: 0xF1 :: 0x7D :: 0x49 :: 0x7F :: 0x08 :: [])
        = .ok (.vmovdqa32ZmmStore ⟨false, .base 0 .none⟩ 1 1 6)
    ∧ (∀ q0 ∈ [0xF1, 0xF5, 0xFD], (BitVec.ofNat 8 q0).extractLsb' 0 2 = 0b01#2)
    ∧ (∀ q1 ∈ [0x7D, 0x79], (BitVec.ofNat 8 q1).extractLsb' 0 2 = 0b01#2)
    ∧ (0xF5 : Byte).extractLsb' 2 2 ≠ 0b00#2 ∧ (0xFD : Byte).extractLsb' 2 2 = 0b11#2 ∧ (0x79 : Byte).getLsbD 2 = false
    ∧ (0x40 : Byte).getLsbD 3 = false ∧ (0x68 : Byte).extractLsb' 5 2 = 0b11#2 ∧ (0x58 : Byte).getLsbD 4 = true
    ∧ ((0xC8 : Byte).getLsbD 7 = true ∧ (0xC8 : Byte).extractLsb' 0 3 = 0b000#3)
    ∧ ((0xC9 : Byte).getLsbD 7 = true ∧ (0x08 : Byte).extractLsb' 6 2 ≠ 0b11#2) := by
  decide +kernel

theorem witness_IllegalPrefixBytesAreRejected :
    decode (List.replicate 11 0x66 ++ [0x0F, 0x6F, 0xCA]) = .ok (.movdqaXmmCopyRm 1 2 14)
    ∧ encodingOf (.movdqaXmmCopyRm 1 2 14) = .legacy
    ∧ decode (0xC5 :: [0xF9, 0x6F, 0xCA]) = .ok (.vmovdqaXmmCopyRm 1 2 4)
    ∧ decode (0xC4 :: [0xE1, 0x79, 0x6F, 0xCA]) = .ok (.vmovdqaXmmCopyRm 1 2 5)
    ∧ decode (0x62 :: [0xF1, 0x7D, 0x48, 0x6F, 0xCA]) = .ok (.vmovdqa32ZmmCopyRm 1 2 ⟨0, false⟩ 6)
    ∧ decode (List.replicate 10 0x67 ++ [0xC5, 0xF9, 0x6F, 0xCA]) = .ok (.vmovdqaXmmCopyRm 1 2 14)
    ∧ encodingOf (.vmovdqaXmmCopyRm 1 2 14) ≠ .legacy
    ∧ decode (List.replicate 12 0x66 ++ [0x0F, 0x6F, 0xCA]) = .ok (.movdqaXmmCopyRm 1 2 15)
    ∧ decode (List.replicate 11 0x67 ++ [0xC5, 0xF9, 0x6F, 0xCA]) = .ok (.vmovdqaXmmCopyRm 1 2 15)
    ∧ (0x40 : Byte).extractLsb' 4 4 = 4#4 ∧ (0x4F : Byte).extractLsb' 4 4 = 4#4 := by decide

/-- Fifteen prefix bytes of every kind; one byte more than 15 at both ends of `n`; a `#GP`. -/
theorem witness_OverlongInstructionsAreGeneralProtection :
    (let pre : List Byte := [0x66, 0x67, 0xF0, 0xF2, 0xF3, 0x2E, 0x36, 0x3E, 0x26, 0x64, 0x65, 0x66, 0x66, 0x66, 0x66]
     pre.length = 15 ∧ ∀ b ∈ pre, isLegacyPrefix b)
    ∧ decode [0x66, 0x0F, 0x6F, 0xCA] = .ok (.movdqaXmmCopyRm 1 2 4) ∧ 15 < 4 + 12
    ∧ decode (List.replicate 11 0x67 ++ [0xC5, 0xF9, 0x6F, 0xCA]) = .ok (.vmovdqaXmmCopyRm 1 2 15) ∧ 15 < 15 + 1
    ∧ decode (List.replicate 13 0x66 ++ [0x0F, 0x6F, 0xCA]) = .error .gp := by decide

/-- Each cause: LOCK, `66` before VEX, REX before VEX, `vvvv`, a reserved EVEX value, zeroing a memory destination. -/
theorem witness_InvalidOpcodeOnlyForTheEighteenEncodings :
    decode [0xF0, 0x66, 0x0F, 0x6F, 0xCA] = .error .ud ∧ decode [0x66, 0xC5, 0xF9, 0x6F, 0xCA] = .error .ud
    ∧ decode [0x48, 0xC4, 0xE1, 0x79, 0x6F, 0xCA] = .error .ud ∧ decode [0xC5, 0xF1, 0x7F, 0xCA] = .error .ud
    ∧ decode [0x62, 0xF1, 0x7D, 0x18, 0x7F, 0xCA] = .error .ud ∧ decode [0x62, 0xF1, 0x7D, 0x89, 0x7F, 0x08] = .error .ud := by
  decide

/-- A 15-byte instruction that ends its text, and one with more text after it. -/
theorem witness_StepRunsTheDecodedInstruction :
    (let s := start (List.replicate 12 0x66 ++ [0x0F, 0x6F, 0xCA])
     s.outcome = .running ∧ (∀ b < 15, fetchable s (byteAddr s.pc b))
      ∧ decode (bytesAt s.mem s.pc 15) = .ok (.movdqaXmmCopyRm 1 2 15)
      ∧ (ran (.movdqaXmmCopyRm 1 2 15) s).pc.toNat = s.cfg.textBase.toNat + s.cfg.textLen)
    ∧ (let s := start [0xC5, 0xF9, 0x6F, 0xCA, 0x90]
     s.outcome = .running ∧ (∀ b < 4, fetchable s (byteAddr s.pc b))
      ∧ decode (bytesAt s.mem s.pc 4) = .ok (.vmovdqaXmmCopyRm 1 2 4)
      ∧ (ran (.vmovdqaXmmCopyRm 1 2 4) s).outcome = .running) := by decide +kernel

theorem witness_StepRunsTheDecodedInstruction_exec (s : State) :
    exec (.movdqaXmmCopyRm 1 2 15) s = .next (ran (.movdqaXmmCopyRm 1 2 15) s)
    ∧ exec (.vmovdqaXmmCopyRm 1 2 4) s = .next (ran (.vmovdqaXmmCopyRm 1 2 4) s) := ⟨rfl, rfl⟩

/-- Each of the rejections, at its shortest; the `#GP` at 16 bytes. -/
theorem witness_RejectedBytesBecomeTheOutcome :
    ∀ p ∈ [(([0xC5, 0xF1, 0x6F, 0xCA] : List Byte), Reject.ud), (List.replicate 13 0x66 ++ [0x0F, 0x6F, 0xCA], .gp),
        ([0x64, 0x66, 0x0F, 0x6F, 0x08], .notInScope .segmentOverride), ([0x90], .notInScope .opcode),
        ([0x0F, 0x6F], .notInScope .otherMandatoryPrefix)],
      let s := start p.1
      s.outcome = .running ∧ (∀ b < p.1.length, fetchable s (byteAddr s.pc b))
        ∧ decode (bytesAt s.mem s.pc p.1.length) = .error p.2 := by decide +kernel

/-- `pc` one byte past the text of the reset state; a non-canonical byte after 3 bytes; a byte that may not be loaded, as the first and as the fourth
byte of an instruction and as the first past a text of 3 bytes; and a text of 3 bytes when all can be fetched. -/
theorem witness_FetchStopsBecomeTheOutcome :
    (let s : State := { State.reset with pc := 0x400001 }
     s.outcome = .running ∧ inText s.cfg s.pc = false)
    ∧ (let s := loadText { State.reset with pc := 0x7FFFFFFFFFFD } [0x66, 0x0F, 0x6F, 0xCA]
      s.outcome = .running ∧ inText s.cfg s.pc = true ∧ (∀ b < 3, readable s (byteAddr s.pc b))
      ∧ decode (bytesAt s.mem s.pc 3) = .error .truncated ∧ canonical s.cfg.linearBits (byteAddr s.pc 3) = false)
    ∧ (∀ p ∈ [(0, 4), (3, 4), (3, 3)],
      let s := withRegion ⟨0x400000 + p.1, 1, false, true⟩ <| start (([0x66, 0x0F, 0x6F, 0xCA] : List Byte).take p.2)
      s.outcome = .running ∧ inText s.cfg s.pc = true ∧ (∀ b < p.1, readable s (byteAddr s.pc b))
      ∧ decode (bytesAt s.mem s.pc p.1) = .error .truncated ∧ canonical s.cfg.linearBits (byteAddr s.pc p.1) = true
      ∧ accessibleByte s.cfg .load (byteAddr s.pc p.1) = false)
    ∧ let s := start [0x66, 0x0F, 0x6F]
      s.outcome = .running ∧ inText s.cfg s.pc = true ∧ (∀ b < 4, readable s (byteAddr s.pc b))
      ∧ decode (bytesAt s.mem s.pc 4) ≠ .error .truncated ∧ decode (bytesAt s.mem s.pc 3) = .error .truncated
      ∧ inText s.cfg (byteAddr s.pc 3) = false := by decide +kernel

theorem witness_OnlyRunningStatesStep :
    State.reset.outcome = .running ∧ ({ State.reset with outcome := .ended } : State).outcome ≠ .running := by decide

/-- One byte of text, and text that ends at the last address but one. -/
theorem witness_EveryRunEndsWithinTheText :
    ∀ s ∈ [start [0x90], loadText { State.reset with pc := 0xFFFFFFFFFFFFFFFB } [0x66, 0x0F, 0x6F, 0xCA]],
      s.outcome = .running ∧ inText s.cfg s.pc = true ∧ s.cfg.textBase.toNat + s.cfg.textLen < 2 ^ 64 := by decide +kernel

/-- A step to the end of the text and a step to a point inside it. -/
theorem witness_EndedExactlyAtTheEndOfTheText :
    ((match step (start [0x66, 0x0F, 0x6F, 0xCA]) with
      | .next t => decide (t.outcome = .ended)
      | _ => false) = true)
    ∧ (match step (start [0x66, 0x0F, 0x6F, 0xCA, 0x66]) with
      | .next t => decide (t.outcome = .running)
      | _ => false) = true := by decide +kernel

theorem witness_MovdqaCopyResult :
    gateOpen readyState.cfg .legacy ∧ completes readyState (ran (.movdqaXmmCopyRm 0 15 4) readyState) 4 := by
  decide +kernel

theorem witness_MovdqaLoadResult :
    gateOpen readyState.cfg .legacy ∧ Operand.ready ⟨⟨false, .base 0 .none⟩, .load, 16, 1, 4, 16, 0#3⟩ readyState := by
  decide +kernel

theorem witness_MovdqaStoreResult :
    gateOpen readyState.cfg .legacy ∧ Operand.ready ⟨⟨false, .base 0 .none⟩, .store, 16, 1, 4, 16, 0#3⟩ readyState := by
  decide +kernel

theorem witness_VmovdqaCopyResult : gateOpen readyState.cfg .vex := by decide +kernel

theorem witness_VmovdqaLoadResult :
    gateOpen readyState.cfg .vex ∧ ∀ n ∈ [16, 32],
      Operand.ready ⟨⟨false, .base 0 .none⟩, .load, n, 1, 4, n, 0#3⟩ readyState := by decide +kernel

theorem witness_VmovdqaStoreResult :
    gateOpen readyState.cfg .vex ∧ ∀ n ∈ [16, 32],
      Operand.ready ⟨⟨false, .base 0 .none⟩, .store, n, 1, 4, n, 0#3⟩ readyState := by decide +kernel

theorem witness_Vmovdqa32CopyResult : ∀ vl ∈ [VecLen.l128, .l256, .l512], gateOpen readyState.cfg (.evex vl) := by
  decide +kernel

/-- With and without a mask, and with suppression where only the first doubleword is accessible and selected. -/
theorem witness_Vmovdqa32LoadResult :
    allOpen readyState.cfg ∧ allOpen suppressed.cfg
    ∧ ([16, 32, 64].all fun n =>
      ([0, 1, 7].all fun aaa => isReady readyState ⟨⟨false, .base 0 .none⟩, .load, n, n, 6, 4, aaa⟩)
      && isReady suppressed ⟨⟨false, .base 0 .none⟩, .load, n, n, 6, 4, 1⟩) = true := by decide +kernel

theorem witness_Vmovdqa32StoreResult :
    allOpen readyState.cfg ∧ allOpen suppressed.cfg
    ∧ ([16, 32, 64].all fun n =>
      ([0, 1, 7].all fun aaa => isReady readyState ⟨⟨false, .base 0 .none⟩, .store, n, n, 6, 4, aaa⟩)
      && isReady suppressed ⟨⟨false, .base 0 .none⟩, .store, n, n, 6, 4, 1⟩) = true := by decide +kernel

theorem witness_Vmovdqa64CopyResult : ∀ vl ∈ [VecLen.l128, .l256, .l512], gateOpen readyState.cfg (.evex vl) := by
  decide +kernel

theorem witness_Vmovdqa64LoadResult :
    allOpen readyState.cfg ∧ allOpen suppressed.cfg
    ∧ ([16, 32, 64].all fun n =>
      ([0, 1, 7].all fun aaa => isReady readyState ⟨⟨false, .base 0 .none⟩, .load, n, n, 6, 8, aaa⟩)
      && isReady suppressed ⟨⟨false, .base 0 .none⟩, .load, n, n, 6, 8, 2⟩) = true := by decide +kernel

theorem witness_Vmovdqa64StoreResult :
    allOpen readyState.cfg ∧ allOpen suppressed.cfg
    ∧ ([16, 32, 64].all fun n =>
      ([0, 1, 7].all fun aaa => isReady readyState ⟨⟨false, .base 0 .none⟩, .store, n, n, 6, 8, aaa⟩)
      && isReady suppressed ⟨⟨false, .base 0 .none⟩, .store, n, n, 6, 8, 2⟩) = true := by decide +kernel

/-- Reset with changed parameters. -/
def withCfg (f : Config → Config) (s : State) : State := { s with cfg := f s.cfg }

/-- Each cause (e), (f) and (g) of R201 alone. -/
theorem witness_DisabledInstructionIsInvalidOpcode :
    (∀ c ∈ [{ Config.default with hasSse2 := false }, { Config.default with cr0Em := true },
        { Config.default with cr4Osfxsr := false }], ¬ enabled c .legacy)
    ∧ (∀ c ∈ [{ Config.default with hasAvx := false }, { Config.default with cr4Osxsave := false },
        { Config.default with xcr0AvxSse := 0b01#2 }], ¬ enabled c .vex)
    ∧ (∀ vl ∈ [VecLen.l128, .l256, .l512],
        ∀ c ∈ [{ Config.default with hasAvx512f := false }, { Config.default with cr4Osxsave := false },
          { Config.default with xcr0AvxSse := 0b10#2 }, { Config.default with xcr0Evex := 0b110#3 }], ¬ enabled c (.evex vl))
    ∧ ¬ enabled { Config.default with hasAvx512vl := false } (.evex .l128)
    ∧ ¬ enabled { Config.default with hasAvx512vl := false } (.evex .l256)
    ∧ enabled { Config.default with hasAvx512vl := false } (.evex .l512) := by decide

/-- The three clauses: enabled and disabled with `CR0_TS = 1`; bytes that are `#UD` with `CR0_TS = 1`; a step with
`CR0_TS = 0`. -/
theorem witness_TaskSwitchedRaisesDeviceNotAvailable :
    (let c : Config := { Config.default with cr0Ts := true };
      enabled c .legacy ∧ enabled c .vex ∧ enabled c (.evex .l128) ∧ enabled c (.evex .l256) ∧ enabled c (.evex .l512))
    ∧ ¬ enabled { Config.default with cr0Ts := true, cr0Em := true } .legacy
    ∧ (let s := withCfg (fun c => { c with cr0Ts := true }) <| start [0xC5, 0xF1, 0x6F, 0xCA]
      s.outcome = .running ∧ s.cfg.cr0Ts = true ∧ (∀ b < 4, fetchable s (byteAddr s.pc b))
      ∧ decode (bytesAt s.mem s.pc 4) = .error .ud)
    ∧ (let s := start [0x66, 0x0F, 0x6F, 0xCA]
      s.cfg.cr0Ts = false ∧ (match step s with
      | .next _ => true
      | _ => false) = true) := by decide +kernel

/-- The clauses: the first non-canonical address through `RSP` and through `RBP`, with a SIB byte too; a step that raises
`#SS`; the rule's example through `RBP` and through `RAX`. -/
theorem witness_StackFaultIsNonCanonicalStackOperand :
    (∀ f ∈ [AddrForm.sib 4 4 0 .none, .base 5 (.disp8 0), .sib 5 0 0 (.disp8 0)],
      let s := withX 4 0x0000800000000000 <| withX 5 0x0000800000000000 State.reset
      let o : Operand := ⟨⟨false, f⟩, .load, 16, 1, 6, 16, 0#3⟩
      gateOpen s.cfg .legacy ∧ operandOf (.movdqaXmmLoad 0 ⟨false, f⟩ 6) = some o ∧ ¬ o.canon s ∧ stackSegment o.m.form = true)
    ∧ (match step (withX 5 0x0000800000000000 <| start [0x66, 0x0F, 0x6F, 0x45, 0x00]) with
      | .next t => decide (t.outcome = .fault 12 .zero)
      | _ => false) = true
    ∧ (let s := withX 0 0x0000800000000000 <| withX 5 0x0000800000000000 State.reset
      gateOpen s.cfg .legacy ∧ s.cfg.linearBits = 48 ∧ s.gpr 5 = 0x0000800000000000 ∧ s.gpr 0 = 0x0000800000000000) := by
  decide +kernel

/-- The first and the last non-canonical address, for the memory form of every row. -/
theorem witness_NonCanonicalDataOperandIsGeneralProtection :
    allOpen State.reset.cfg ∧ ∀ n ∈ [0x0000800000000000, 0xFFFF7FFFFFFFFFFF],
      let s := withX 0 (BitVec.ofNat 64 n) State.reset
      s.cfg = State.reset.cfg ∧ ∀ i ∈ shortest, ∀ o ∈ operandOf i, ¬ o.canon s ∧ stackSegment o.m.form = false := by
  decide +kernel

/-- One byte after an aligned address, one byte before one, for every size; the second address is not accessible either. -/
theorem witness_MisalignedOperandIsGeneralProtection :
    allOpen State.reset.cfg ∧ ∀ n ∈ [0x1001, 0x6FFF],
      let s := withX 0 (BitVec.ofNat 64 n) <| withRegion ⟨0x6000, 0x1000, false, false⟩ State.reset
      s.cfg = { State.reset.cfg with regions := [⟨0x6000, 0x1000, false, false⟩] }
        ∧ ∀ i ∈ shortest, ∀ o ∈ operandOf i, o.canon s ∧ ¬ o.aligned s := by decide +kernel

/-- The text is the first byte or the last byte of the operand; the writemask `k[1] = 0` of the EVEX rows selects no element. -/
theorem witness_StoreToProgramTextIsRefused :
    ∀ p ∈ [((0x400000 : Addr), 16), (0x40000F, 16), (0x40001F, 32), (0x40003F, 64)],
      let s := withX 0 0x400000 <| loadText { State.reset with pc := p.1 } [0x90]
      allOpen s.cfg ∧ ∀ i ∈ everyInstr ⟨false, .base 0 .none⟩ 0 1 false 4 6, ∀ o ∈ operandOf i,
        o.kind = .store → o.bytes = p.2 → o.canon s ∧ o.aligned s ∧ o.hitsText s := by decide +kernel

/-- No byte accessible; only the last byte not accessible; with `MASK_FAULT_SUPPRESSION`, the selected element 0 not
accessible. -/
theorem witness_InaccessibleOperandIsPageFault :
    ∀ p ∈ [((⟨0x7000, 64, false, false⟩ : Region), false), (⟨0x700F, 49, false, false⟩, false), (⟨0x7003, 1, false, false⟩, true)],
      let s := withK 1 1 <| withX 0 0x7000 <| withRegion p.1 <|
        withCfg (fun c => { c with maskFaultSuppression := p.2 }) State.reset
      allOpen s.cfg ∧ ∀ i ∈ everyInstr ⟨false, .base 0 .none⟩ 0 1 false 4 6, ∀ o ∈ operandOf i,
        o.canon s ∧ o.aligned s ∧ ¬ o.hitsText s ∧ ¬ o.reachable s := by decide +kernel

/-- A step for each cause: an illegal encoding and a disabled instruction; `CR0_TS`; an instruction of 16 bytes, a
non-canonical fetch, a misaligned operand and a non-canonical one; a fetch and an operand that are not accessible. -/
theorem witness_ExceptionsHaveTheirCauses :
    ∀ p ∈ [(start [0xC5, 0xF1, 0x6F, 0xCA], 6, ErrorCode.none),
        (withCfg (fun c => { c with hasAvx := false }) <| start [0xC5, 0xF9, 0x6F, 0xCA], 6, .none),
        (withCfg (fun c => { c with cr0Ts := true }) <| start [0x66, 0x0F, 0x6F, 0xCA], 7, .none),
        (start (List.replicate 13 0x66 ++ [0x0F, 0x6F, 0xCA]), 13, .zero),
        (loadText { State.reset with pc := 0x7FFFFFFFFFFD } [0x66, 0x0F, 0x6F, 0xCA], 13, .zero),
        (withX 0 0x1008 <| start [0x66, 0x0F, 0x6F, 0x08], 13, .zero),
        (withX 0 0x0000800000000000 <| start [0x66, 0x0F, 0x6F, 0x08], 13, .zero),
        (withRegion ⟨0x400003, 1, false, true⟩ <| start [0x66, 0x0F, 0x6F, 0xCA], 14, .unmodelled),
        (withRegion ⟨0, 1, true, false⟩ <| start [0x66, 0x0F, 0x7F, 0x08], 14, .unmodelled)],
      (match step p.1 with
        | .next t => decide (t.outcome = .fault p.2.1 p.2.2)
        | _ => false) = true := by decide +kernel

theorem witness_NothingElseStopsAnInstruction :
    allOpen readyState.cfg ∧ ∀ i ∈ shortest, ∀ o ∈ operandOf i, isReady readyState o = true := by decide +kernel

/-- A step for each exception of R200. -/
theorem witness_ExceptionsArePrecise :
    ∀ p ∈ [(start [0xC5, 0xF1, 0x6F, 0xCA], 6, ErrorCode.none),
        (withCfg (fun c => { c with cr0Ts := true }) <| start [0x66, 0x0F, 0x6F, 0xCA], 7, .none),
        (withX 4 0x0000800000000000 <| start [0x66, 0x44, 0x0F, 0x6F, 0x3C, 0x24], 12, .zero),
        (withX 0 0x1008 <| start [0x66, 0x0F, 0x6F, 0x08], 13, .zero),
        (withRegion ⟨0, 1, true, false⟩ <| start [0x66, 0x0F, 0x7F, 0x08], 14, .unmodelled)],
      (match step p.1 with
        | .next t => decide (t.outcome = .fault p.2.1 p.2.2)
        | _ => false) = true := by decide +kernel

/-- A running state; one instruction completes from it and one does not. -/
theorem witness_CompletesOrChangesOnlyTheOutcome :
    readyState.outcome = .running ∧ (ran (.movdqaXmmCopyRm 0 1 4) readyState).outcome = .running
    ∧ (ran (.movdqaXmmLoad 0 ⟨false, .base 0 (.disp8 1)⟩ 5) readyState).outcome = .fault 13 .zero := by decide +kernel

theorem witness_SelfCopiesThatChangeOnlyThePc :
    gateOpen readyState.cfg .legacy ∧ gateOpen readyState.cfg (.evex .l512) := by decide

/-- A step of a masked store over memory that holds something: what the statements about every step quantify over. -/
theorem witness_StepKeepsMemoryCanonical :
    let s := withMem 0x2000 16 ones <| withK 1 9 <| withX 0 0x2000 <| start [0x62, 0xF1, 0x7D, 0x09, 0x7F, 0x08]
    memWf s.mem ∧ (match step s with | .next t => decide (t.mem ≠ s.mem ∧ t.outcome = .ended) | _ => false) = true := by
  decide +kernel

theorem witness_StepKeepsParametersMasksAndGeneralRegisters :
    (match step (withK 1 9 <| start [0x62, 0xF1, 0x7D, 0x09, 0x6F, 0xCA]) with
      | .next t => decide (t.outcome = .ended)
      | _ => false) = true := by decide +kernel

/-- The first and the last byte of a text, and a store next to it. -/
theorem witness_StepKeepsTheProgramText :
    let s := withV 0 ones <| withX 0 0x400010 <| start [0x66, 0x0F, 0x7F, 0x00]
    inText s.cfg 0x400000 = true ∧ inText s.cfg 0x400003 = true
    ∧ (match step s with | .next t => decide (t.outcome = .ended ∧ t.mem ≠ s.mem) | _ => false) = true := by decide +kernel

/-- A launch state, and a step from it that stays inside the text and one that ends the text. -/
theorem witness_StepKeepsRunningStatesInsideTheText :
    (let s := start [0x66, 0x0F, 0x6F, 0xCA, 0x66]
     isLaunch s ∧ textInv s ∧ (match step s with | .next t => decide (t.outcome = .running) | _ => false) = true)
    ∧ let s := start [0x66, 0x0F, 0x6F, 0xCA]
      textInv s ∧ (match step s with | .next t => decide (t.outcome = .ended) | _ => false) = true := by decide +kernel

/-- Register 16, the first one out of reach, for a legacy SSE and a VEX instruction that complete; and a register file that
differs in it alone. -/
theorem witness_NarrowEncodingsReachOnlyTheLowRegisters :
    encodingOf (.movdqaXmmCopyRm 15 1 5) = .legacy ∧ encodingOf (.vmovdqaYmmCopyRm 15 1 4) = .vex
    ∧ 16 ≤ (16 : VReg32).toNat
    ∧ completes readyState (ran (.movdqaXmmCopyRm 15 1 5) readyState) 5
    ∧ completes readyState (ran (.vmovdqaYmmCopyRm 15 1 4) readyState) 4
    ∧ (let v' := readyState.v.set 16 ones
      (∀ n < 16, State.vec { readyState with v := v' } (BitVec.ofNat 5 n) = readyState.vec (BitVec.ofNat 5 n))
        ∧ State.vec { readyState with v := v' } 16 ≠ readyState.vec 16) := by decide +kernel

theorem witness_OnlyStoresWriteMemory :
    (∃ o, operandOf (.movdqaXmmLoad 0 ⟨false, .base 0 .none⟩ 4) = some o ∧ o.kind = .load)
    ∧ operandOf (.movdqaXmmCopyRm 0 1 4) = none
    ∧ (∃ o, operandOf (.movdqaXmmStore ⟨false, .base 0 .none⟩ 0 4) = some o ∧ o.kind = .store)
    ∧ completes readyState (ran (.movdqaXmmLoad 0 ⟨false, .base 0 .none⟩ 4) readyState) 4
    ∧ completes readyState (ran (.movdqaXmmStore ⟨false, .base 0 .none⟩ 0 4) readyState) 4 :=
  ⟨⟨_, rfl, rfl⟩, rfl, ⟨_, rfl, rfl⟩, by decide +kernel, by decide +kernel⟩

/-- Two opmask files that differ in every bit the instruction does not read: bit 15 of `k[1]` is the last it reads. -/
theorem witness_OnlySelectedMaskBitsAreRead :
    let k' : Vector (BitVec 64) 8 := #v[5, 0xFFFFFFFFFFFF8001, 7, 0, 0, 0, 0, 0]
    let s := withK 1 0x8001 State.reset
    maskRead (.vmovdqa32ZmmCopyRm 0 1 ⟨1, false⟩ 6) = (1, 16)
    ∧ (∀ j < 16, (k'.get (1 : OpmaskSel).toFin).getLsbD j = (s.k.get (1 : OpmaskSel).toFin).getLsbD j)
    ∧ completes s (ran (.vmovdqa32ZmmCopyRm 0 1 ⟨1, false⟩ 6) s) 6 := by decide +kernel

/-- `aaa = 0`: the mask premise is empty, and the instruction completes with no opmask register read. -/
theorem witness_OnlySelectedMaskBitsAreRead_noMask :
    (maskRead (.vmovdqa32ZmmCopyRm 0 1 ⟨0, false⟩ 6)).1 = 0
    ∧ completes readyState (ran (.vmovdqa32ZmmCopyRm 0 1 ⟨0, false⟩ 6) readyState) 6
    ∧ exec (.vmovdqa32ZmmCopyRm 0 1 ⟨0, false⟩ 6) { readyState with k := Vector.replicate 8 (BitVec.allOnes 64) } =
        .next { ran (.vmovdqa32ZmmCopyRm 0 1 ⟨0, false⟩ 6) readyState with k := Vector.replicate 8 (BitVec.allOnes 64) } :=
  ⟨by decide, by decide +kernel, rfl⟩

/-- The first and the last element; the inputs differ in every other place. -/
theorem witness_MaskedMoveWorksElementByElement :
    ∀ j ∈ [0, 15], elemOf .dword ones j = elemOf .dword (ones &&& 0xFFFFFFFF ||| 0xFFFFFFFF <<< 480) j
      ∧ elemOf .dword 0 j = elemOf .dword (ones <<< 32 >>> 64 <<< 32) j
      ∧ (fun _ => true) j = (fun i => decide (i = 0 ∨ i = 15)) j := by decide +kernel

/-- The smallest and the largest access, the first and the last byte and element, the last aligned block. -/
theorem witness_MemoryPrimitivesMoveBytes :
    (∀ n ∈ [0, 64], n ≤ 64) ∧ (∀ b < 64, (0x40 : Addr) ≠ byteAddr 0 b) ∧ elemCount .l512 .dword = 16
    ∧ elemCount .l128 .qword = 2 ∧ (fun j => decide (j = 15)) 15 = true
    ∧ (∀ j < 16, (fun j => decide (j = 15)) j = true → ∀ b < 4, (0x3B : Addr) ≠ byteAddr 0 (j * 4 + b))
    ∧ ∀ n ∈ [16, 32, 64], (0xFFFFFFFFFFFFFFC0 : Addr).toNat % n = 0 := by decide +kernel

theorem witness_NarrowReadSeesPartOfWideWrite :
    ∀ p ∈ [(0, 64), (16, 16), (63, 1), (64, 0)], p.1 + p.2 ≤ 64 := by decide

/-- `LINEAR_BITS` 1, 7, 48 and 64, and the last aligned block below the first non-canonical address. -/
theorem witness_CanonicalMeansEqualTopBits :
    (∀ lb ∈ [1, 7, 48, 64], 1 ≤ lb ∧ lb ≤ 64)
    ∧ ∀ n ∈ [16, 32, 64], (0x00007FFFFFFFFFC0 : Addr).toNat % n = 0 ∧ canonical 48 0x00007FFFFFFFFFC0 = true
      ∧ canonical 7 0xFFFFFFFFFFFFFFC0 = true := by decide

/-- One byte; and four bytes that end where the address after them is the last canonical one of the low half. -/
theorem witness_LoadingAProgramGivesALaunchState :
    ∀ p ∈ [((0x400000 : Addr), 1), (0x7FFFFFFFFFFB, 4)],
      let s : State := { State.reset with pc := p.1 }
      1 ≤ p.2 ∧ s.pc.toNat + p.2 < 2 ^ 64
      ∧ (∀ b ≤ p.2, canonical s.cfg.linearBits (byteAddr s.pc b) = true)
      ∧ ∀ b < p.2, accessibleByte s.cfg .load (byteAddr s.pc b) = true := by decide +kernel

/-- Log entry 2: with no program stored the first step refuses the opcode of the byte 0. -/
theorem test_reset_step : step State.reset = .next { State.reset with outcome := .refused (.notInScope .opcode) } := by rfl

/-- Not launch states (R240): an empty text, a text that ends at the last address, one that runs up to a non-canonical address,
one that cannot be loaded from. -/
theorem test_isLaunch :
    ¬ isLaunch (loadText State.reset [])
    ∧ ¬ isLaunch (loadText { State.reset with pc := 0xFFFFFFFFFFFFFFFF } [0x90])
    ∧ ¬ isLaunch (loadText { State.reset with pc := 0x7FFFFFFFFFFF } [0x90])
    ∧ ¬ isLaunch (withRegion ⟨0x400000, 1, false, true⟩ <| start [0x90]) := by decide +kernel

/-- `LINEAR_BITS = 33`, and two states that differ in the high halves of `x[0]` and `pc`. -/
theorem witness_ShortAddressIsCanonicalAndReadsLowHalves :
    let s := State.reset
    let t := withX 0 0xFFFFFFFF00000000 { State.reset with pc := 0xFFFFFFFF00400000 }
    33 ≤ 33 ∧ (∀ r, (t.gpr r).setWidth 32 = (s.gpr r).setWidth 32) ∧ t.pc.setWidth 32 = s.pc.setWidth 32
      ∧ t.gpr 0 ≠ s.gpr 0 ∧ t.pc ≠ s.pc := by decide +kernel

end Sys2Proof.Tests
end

section
/-! SUPPORT. `MaskedMove` element by element (spec/00_scope.md R12), and what an EVEX form does without a writemask, when every
element is selected (the preamble of spec/43_vmovdqa64_evex.md). -/

namespace Sys2Proof.Machine

/-! ## `MaskedMove` element by element -/

@[simp] theorem lowBits_lowBits (w : Nat) (e : VecWord) : lowBits w (lowBits w e) = lowBits w e := by
  apply BitVec.eq_of_getLsbD_eq
  intro i _
  simp only [getLsbD_lowBits, ← Bool.and_assoc, Bool.and_self]

/-- An element has no bits above its size. -/
@[simp] theorem lowBits_elemOf (es : ElemSize) (e : VecWord) (j : Nat) : lowBits es.bits (elemOf es e j) = elemOf es e j :=
  lowBits_lowBits _ _

/-- R12, for any source of elements: element `j` of `MaskedMove` on `n` elements that fit in a register. -/
theorem elemOf_maskedMove (es : ElemSize) (old : VecWord) (src : Nat → VecWord) (sel : Nat → Bool) (z : Bool) {n : Nat}
    (hn : n * es.bits ≤ 512) (j : Nat) :
    elemOf es (maskedMove es old src sel z n) j =
      if n ≤ j then 0 else if sel j then lowBits es.bits (src j) else if z then 0 else elemOf es old j := by
  apply BitVec.eq_of_getLsbD_eq
  intro i _
  rw [getLsbD_elemOf]
  by_cases hi : i < es.bits
  case neg => split_ifs <;> simp [getLsbD_elemOf, getLsbD_lowBits, hi]
  case pos =>
    have hdiv : (j * es.bits + i) / es.bits = j := by
      rw [Nat.div_eq_iff (by omega)]
      omega
    have hmod : (j * es.bits + i) % es.bits = i := by
      rw [Nat.mul_comm, Nat.mul_add_mod, Nat.mod_eq_of_lt hi]
    have habove : n * es.bits ≤ j * es.bits + i ↔ n ≤ j := by
      rw [← Nat.le_div_iff_mul_le (by omega), hdiv]
    by_cases h512 : j * es.bits + i < 512
    · rw [getLsbD_maskedMove es old src sel z n _ h512, hdiv, hmod]
      simp only [habove, hi, decide_true, Bool.true_and]
      split_ifs <;> simp [getLsbD_elemOf, getLsbD_lowBits, hi]
    · rw [if_pos (habove.1 (by omega)), BitVec.getLsbD_of_ge _ _ (by omega)]
      simp

theorem elemCount_mul_bits_le (vl : VecLen) (es : ElemSize) : elemCount vl es * es.bits ≤ 512 := by
  rw [elemCount_mul_bits]
  cases vl <;> decide

/-- Settles O50: both clauses are `elemOf_maskedMove`, whose right side names nothing but element `j` and bit `j`. -/
theorem maskedMoveWorksElementByElement : Obligations.MaskedMoveWorksElementByElement := by
  have helem (es vl old src sel z j) :=
    elemOf_maskedMove es old (elemOf es src) sel z (elemCount_mul_bits_le vl es) j
  simp only [lowBits_elemOf] at helem
  refine ⟨helem, fun es vl old src old' src' sel sel' z j hold hsrc hsel => ?_⟩
  rw [helem, helem, hold, hsrc, hsel]

/-! ## The data movements with every element selected -/

/-- With every element selected, `MaskedMove` returns its source, whatever the element size: `w` is the whole whose elements the
source gives. -/
theorem maskedMove_of_selected {es : ElemSize} {vl : VecLen} {src : Nat → VecWord} {sel : Nat → Bool} {w : VecWord}
    (old : VecWord) (z : Bool) (hsel : ∀ j, sel j = true)
    (hsrc : ∀ j < elemCount vl es, lowBits es.bits (src j) = elemOf es w j) :
    maskedMove es old src sel z (elemCount vl es) = lowBits vl.bits w := by
  have hpos : 0 < es.bits := by cases es <;> decide
  apply BitVec.eq_of_getLsbD_eq
  intro i hi
  rw [getLsbD_maskedMove _ _ _ _ _ _ _ hi, getLsbD_lowBits, elemCount_mul_bits, hsel]
  by_cases hvl : i < vl.bits
  · have hmod : i % es.bits < es.bits := Nat.mod_lt _ hpos
    have hj : i / es.bits < elemCount vl es := by
      rwa [Nat.div_lt_iff_lt_mul hpos, elemCount_mul_bits]
    have hbit := congrArg (·.getLsbD (i % es.bits)) (hsrc _ hj)
    simp only [getLsbD_lowBits, getLsbD_elemOf, hmod, Nat.div_add_mod', decide_true, Bool.true_and] at hbit
    simp [hvl, hbit]
  · simp [hvl, Nat.le_of_not_lt hvl]

/-- The elements of a memory operand are those of the whole operand. -/
theorem lowBits_memElem (m : List Host.Cell) (a : Addr) {es : ElemSize} {vl : VecLen} {j : Nat} (hj : j < elemCount vl es) :
    lowBits es.bits (memElem m a es j) = elemOf es (memRead m a vl.bytes) j := by
  have h8 : es.bits = 8 * es.bytes := by cases es <;> rfl
  have hend : j * es.bytes + es.bytes ≤ vl.bytes := by
    rw [← elemCount_mul_bytes vl es, ← Nat.succ_mul]
    exact Nat.mul_le_mul_right _ hj
  have hvl : vl.bytes ≤ 64 := by cases vl <;> decide
  apply BitVec.eq_of_getLsbD_eq
  intro i _
  rw [getLsbD_lowBits, getLsbD_elemOf]
  by_cases hi : i < es.bits
  case neg => simp [hi]
  case pos =>
    have hbit : j * es.bits + i = 8 * (j * es.bytes) + i := by rw [h8]; ring
    rw [getLsbD_memElem _ _ _ _ _ hi, hbit, getLsbD_memRead, Nat.mul_add_div (by decide), Nat.mul_add_mod]
    simp [hi, show 8 * (j * es.bytes) + i < 8 * vl.bytes by omega, show 8 * (j * es.bytes) + i < 512 by omega]

/-- A write of `n + k` bytes is one of `n` and, above it, one of `k`. -/
theorem memWrite_add (m : List Host.Cell) (a : Addr) {e e' : VecWord} {n k : Nat}
    (he : ∀ b < k, byteOf e' b = byteOf e (n + b)) :
    memWrite (memWrite m a e n) (byteAddr a n) e' k = memWrite m a e (n + k) := by
  induction k with
  | zero => rfl
  | succ k ih =>
    rw [memWrite, ih fun b hb => he b (by omega), byteAddr_byteAddr, he k (by omega)]
    rfl

/-- With every element selected, `MemWriteMasked` is `MemWrite`. -/
theorem memWriteMasked_of_selected (m : List Host.Cell) (a : Addr) (es : ElemSize) {sel : Nat → Bool} (e : VecWord) (n : Nat)
    (hsel : ∀ j, sel j = true) : memWriteMasked m a es sel e n = memWrite m a e (n * es.bytes) := by
  induction n with
  | zero => rw [Nat.zero_mul]; rfl
  | succ n ih =>
    rw [memWriteMasked, ih, if_pos (hsel n), memWrite_add _ _ fun b hb => byteOf_elemOf es e n b hb, Nat.succ_mul]

/-! ## EVEX forms without a writemask -/

/-- R107: without a writemask every element is selected. -/
theorem selected_noMask (s : State) (j : Nat) : s.selected 0 j = true := rfl

/-- A memory operand with every element selected is accessible when the whole of it is. -/
theorem operandAccessible_of_noMask {o : Operand} (hf : o.fits) (haaa : o.aaa = 0) (s : State) :
    operandAccessible s.cfg o.kind (o.ea s) o.bytes (o.elems s) =
      operandAccessible s.cfg o.kind (o.ea s) o.bytes (.whole o.bytes) := by
  rw [Bool.eq_iff_iff, operandAccessible_eq_true hf]
  simp only [Operand.reachable, haaa, selected_noMask, or_true, forall_const]
  simp [operandAccessible, ElemSel.whole, accessible_eq_true]

/-- Without a writemask `CheckMem` tests the whole operand. -/
theorem check_of_noMask {o : Operand} (hf : o.fits) (haaa : o.aaa = 0) (s : State) :
    o.check s = checkMem s.cfg (stackSegment o.m.form) o.kind (o.ea s) o.bytes (.whole o.bytes) := by
  simp only [Operand.check, checkMem, operandAccessible_of_noMask hf haaa]

theorem checkMem_evex_noMask (es : ElemSize) (vl : VecLen) (m : MemOperand) (k : AccessKind) (len : Nat) (s : State) :
    checkMem s.cfg (stackSegment m.form) k (s.effAddr m vl.bytes len) vl.bytes (s.evexElems vl es 0) =
      checkMem s.cfg (stackSegment m.form) k (s.effAddr m vl.bytes len) vl.bytes (.whole vl.bytes) := by
  have hf : Operand.fits ⟨m, k, vl.bytes, vl.bytes, len, es.bytes, 0⟩ :=
    ⟨show 0 < es.bytes by cases es <;> decide, Nat.div_mul_cancel (Dvd.intro_left _ (elemCount_mul_bytes vl es))⟩
  rw [← elems_evex m k es vl len]
  exact check_of_noMask hf rfl s

/-- Without a writemask a register copy moves the low `VL` bits. -/
theorem evexCopy_noMask (es : ElemSize) (vl : VecLen) (dst src : VReg32) (z : Bool) (len : Nat) (s : State) :
    evexCopy es vl dst src ⟨0, z⟩ len s =
      attempt (gateEvex vl s.cfg) s ((s.setVec dst (lowBits vl.bits (s.vec src))).advance len) := by
  simp only [evexCopy, maskedMove_of_selected _ _ (selected_noMask s) fun _ _ => lowBits_elemOf _ _ _, lowBits_lowBits]

/-- Without a writemask a load reads the whole operand. -/
theorem evexLoad_noMask (es : ElemSize) (vl : VecLen) (dst : VReg32) (z : Bool) (m : MemOperand) (len : Nat) (s : State) :
    evexLoad es vl dst ⟨0, z⟩ m len s =
      let ea := s.effAddr m vl.bytes len
      attempt ((gateEvex vl s.cfg).or (checkMem s.cfg (stackSegment m.form) .load ea vl.bytes (.whole vl.bytes))) s
        ((s.setVec dst (lowBits vl.bits (memRead s.mem ea vl.bytes))).advance len) := by
  simp only [evexLoad, checkMem_evex_noMask, maskedMove_of_selected _ _ (selected_noMask s) fun _ hj => lowBits_memElem _ _ hj,
    lowBits_lowBits]

/-- Without a writemask a store writes the whole operand. -/
theorem evexStore_noMask (es : ElemSize) (vl : VecLen) (m : MemOperand) (src : VReg32) (len : Nat) (s : State) :
    evexStore es vl m 0 src len s =
      let ea := s.effAddr m vl.bytes len
      attempt ((gateEvex vl s.cfg).or (checkMem s.cfg (stackSegment m.form) .store ea vl.bytes (.whole vl.bytes))) s
        (State.advance { s with mem := memWrite s.mem ea (s.vec src) vl.bytes } len) := by
  simp only [evexStore, checkMem_evex_noMask, memWriteMasked_of_selected _ _ _ _ _ (selected_noMask s), elemCount_mul_bytes]

/-- Settles O49: without a writemask the effect of a copy, a load and a store does not name the element size. -/
theorem unmaskedQuadwordAndDoublewordFormsAgree : Obligations.UnmaskedQuadwordAndDoublewordFormsAgree := by
  intro dst src m len s
  have copy (vl) : evexCopy .qword vl dst src ⟨0, false⟩ len s = evexCopy .dword vl dst src ⟨0, false⟩ len s := by
    rw [evexCopy_noMask, evexCopy_noMask]
  have load (vl) : evexLoad .qword vl dst ⟨0, false⟩ m len s = evexLoad .dword vl dst ⟨0, false⟩ m len s := by
    rw [evexLoad_noMask, evexLoad_noMask]
  have store (vl) : evexStore .qword vl m 0 src len s = evexStore .dword vl m 0 src len s := by
    rw [evexStore_noMask, evexStore_noMask]
  simp only [List.forall_mem_cons]
  exact ⟨copy .l128, copy .l256, copy .l512, copy .l128, copy .l256, copy .l512, load .l128, load .l256, load .l512,
    store .l128, store .l256, store .l512, fun _ h => nomatch h⟩

end Sys2Proof.Machine
end

section
/-! SUPPORT. How many bytes an instruction the decoder answers takes (spec/30_encoding.md R109, R115), and where the step finds
it (spec/70_reset_and_hazards.md R242). -/

namespace Sys2Proof

/-- The answer of `decodeBody` rests on a first part of its bytes, which are counted in the length. -/
theorem decodeBody_ok {p : Prefixes} {rex : Option Byte} {k : Nat} {bs : List Byte} {i : Instr}
    (e : decodeBody p rex k bs = .ok i) :
    ∃ c tl, bs = c ++ tl ∧ 0 < c.length ∧ i.len = k + c.length ∧ i.len ≤ 15
      ∧ ∀ tl', decodeBody p rex k (c ++ tl') = .ok i := by
  rcases decodeBody_cases p rex k bs with
    ⟨-, h⟩ | ⟨-, h | ⟨why, h⟩ | ⟨h, n, reg, rm, c, d, tl, rfl, hc, hn, hd, -, -, -, hj⟩⟩
  · rw [h] at e; cases e
  · rw [h] at e; cases e
  · have h0 := (h []).2
    rw [List.append_nil, e] at h0
    cases h0
  · rw [hj] at e
    obtain ⟨hle, -, -, rfl⟩ := judge_ok e
    rw [assemble_len]
    refine ⟨c ++ d, tl, (List.append_assoc ..).symm, ?_, ?_, hle, fun tl' => ?_⟩
    · rw [List.length_append]; omega
    · rw [List.length_append, hc, hd, Nat.add_assoc]
    · rw [List.append_assoc, hj, e]

/-- R109, R115: the instruction that the decoder answers rests on its `len` first bytes, 1 to 15 of them, and on no others. -/
theorem decode_ok {bs : List Byte} {i : Instr} (e : decode bs = .ok i) :
    ∃ c tl, bs = c ++ tl ∧ c.length = i.len ∧ 0 < i.len ∧ i.len ≤ 15 ∧ ∀ tl', decode (c ++ tl') = .ok i := by
  rcases prefixRun_cases bs with ⟨pre, q, b, t, rfl, hq, hb, hl⟩ | ⟨pre, q, t, rfl, hq, hl⟩ | ⟨q, hq, hl⟩
  · rw [decode_run hq hb t hl] at e
    by_cases hx : isRex b
    · rw [decodeRest_rex hx] at e
      obtain ⟨c, tl, rfl, hpos, hlen, hle, hc⟩ := decodeBody_ok e
      refine ⟨pre ++ b :: c, tl, by simp, ?_, by omega, hle, fun tl' => ?_⟩
      · rw [List.length_append, List.length_cons]
        omega
      · rw [List.append_assoc, List.cons_append, decode_run hq hb _ hl, decodeRest_rex hx, hc]
    · rw [decodeRest_other hx] at e
      obtain ⟨c, tl, hct, hpos, hlen, hle, hc⟩ := decodeBody_ok e
      obtain ⟨c, rfl⟩ : ∃ c', c = b :: c' := by
        cases c with
        | nil => cases hpos
        | cons a c => exact ⟨c, by rw [(List.cons.inj hct).1]⟩
      refine ⟨pre ++ b :: c, tl, by rw [hct, List.append_assoc], ?_, by omega, hle, fun tl' => ?_⟩
      · rw [List.length_append]
        omega
      · rw [List.append_assoc, List.cons_append, decode_run hq hb _ hl, decodeRest_other hx, ← List.cons_append, hc]
  · rw [decode_long hq t hl] at e; cases e
  · rw [decode_end hq hl] at e; cases e

end Sys2Proof

namespace Sys2Proof.Machine

theorem bytesAt_add (m : List Host.Cell) (a : Addr) (n k : Nat) :
    bytesAt m a (n + k) = bytesAt m a n ++ bytesAt m (byteAddr a n) k := by
  simp only [bytesAt, List.range_add, List.map_append, List.map_map, byteAddr_byteAddr, Function.comp_def]

/-- The bytes that the step decodes: `k` bytes at `pc`, as many as the window has room for and the text allows. -/
theorem fetch_text (s : State) :
    ∃ k, (fetchBytes (textStop s) s.mem windowSize s.pc).1 = bytesAt s.mem s.pc k
      ∧ (∀ b < k, fetchable s (byteAddr s.pc b)) ∧ (k = windowSize ∨ ¬ fetchable s (byteAddr s.pc k)) := by
  rcases fetchBytes_cases (textStop s) s.mem windowSize s.pc with ⟨h, e⟩ | ⟨k, st, -, h, hst, e⟩
  · exact ⟨windowSize, by rw [e], fun b hb => textStop_eq_none.1 (h b hb), .inl rfl⟩
  · refine ⟨k, by rw [e], fun b hb => textStop_eq_none.1 (h b hb), .inr fun hf => ?_⟩
    rw [textStop_eq_none.2 hf] at hst
    cases hst

/-- What `nextInstr` answers when `pc` is in the text. -/
theorem nextInstr_of_inText {s : State} (h : inText s.cfg s.pc = true) :
    nextInstr s = (decode (fetchBytes (textStop s) s.mem windowSize s.pc).1).mapError (rejectStop s) := by
  simp only [nextInstr, h, Bool.not_true, Bool.false_eq_true, if_false]
  cases decode (fetchBytes (textStop s) s.mem windowSize s.pc).1 <;> rfl

theorem nextInstr_of_not_inText {s : State} (h : inText s.cfg s.pc = false) :
    nextInstr s = .error (.refuse .pcOutsideProgramText) := by
  simp only [nextInstr, h, Bool.not_false, if_true]

/-- R211, R242: `i.len` bytes of the text that can be fetched and decode to `i` are the next instruction. -/
theorem nextInstr_of_decode {s : State} {i : Instr} (hf : ∀ b < i.len, fetchable s (byteAddr s.pc b))
    (hd : decode (bytesAt s.mem s.pc i.len) = .ok i) : nextInstr s = .ok i := by
  obtain ⟨c, tl, hc, hlen, hpos, hle, hi⟩ := decode_ok hd
  have htl : tl = [] := by
    have := congrArg List.length hc
    rw [length_bytesAt, List.length_append] at this
    exact List.eq_nil_of_length_eq_zero (by omega)
  rw [htl, List.append_nil] at hc
  have hpc : inText s.cfg s.pc = true := by
    have h0 := (hf 0 hpos).1
    rwa [byteAddr_zero] at h0
  obtain ⟨k, hk, -, hend⟩ := fetch_text s
  have hik : i.len ≤ k := by
    rcases hend with rfl | hnot
    · exact hle.trans (by decide)
    · exact Nat.le_of_not_lt fun hlt => hnot (hf k hlt)
  obtain ⟨n, rfl⟩ := Nat.exists_eq_add_of_le hik
  rw [nextInstr_of_inText hpc, hk, bytesAt_add, hc, hi]
  rfl

/-- R242: the next instruction is at least one byte of the text, and all its bytes are. -/
theorem nextInstr_ok {s : State} {i : Instr} (h : nextInstr s = .ok i) :
    0 < i.len ∧ ∀ b < i.len, fetchable s (byteAddr s.pc b) := by
  cases hpc : inText s.cfg s.pc with
  | false => rw [nextInstr_of_not_inText hpc] at h; cases h
  | true =>
    obtain ⟨k, hk, hf, -⟩ := fetch_text s
    rw [nextInstr_of_inText hpc, hk] at h
    cases hd : decode (bytesAt s.mem s.pc k) with
    | error r => rw [hd] at h; cases h
    | ok j =>
      rw [hd] at h
      cases h
      obtain ⟨c, tl, hc, hlen, hpos, -, -⟩ := decode_ok hd
      have hik := congrArg List.length hc
      rw [length_bytesAt, List.length_append] at hik
      exact ⟨hpos, fun b hb => hf b (by omega)⟩

end Sys2Proof.Machine
end

section
/-! SUPPORT. What every step keeps (spec/10_state.md R33 to R36, R39, R41; spec/70_reset_and_hazards.md R240, R242), from what a
step can answer: the state of a stop, or an effect and the end of the text. -/

namespace Sys2Proof.Machine

/-! ## Settling -/

@[simp] theorem settle_cfg (s : State) : (settle s).cfg = s.cfg := by rw [settle_eq]
@[simp] theorem settle_v (s : State) : (settle s).v = s.v := by rw [settle_eq]
@[simp] theorem settle_k (s : State) : (settle s).k = s.k := by rw [settle_eq]
@[simp] theorem settle_x (s : State) : (settle s).x = s.x := by rw [settle_eq]
@[simp] theorem settle_pc (s : State) : (settle s).pc = s.pc := by rw [settle_eq]
@[simp] theorem settle_mem (s : State) : (settle s).mem = s.mem := by rw [settle_eq]

theorem atTextEnd_iff (s : State) : atTextEnd s = true ↔ s.pc.toNat = s.cfg.textBase.toNat + s.cfg.textLen := by
  simp only [atTextEnd, beq_iff_eq]

/-- R242: a running state is settled by where it stands. -/
theorem settle_outcome_of_running {s : State} (h : s.outcome = .running) :
    ((settle s).outcome = .ended ∧ s.pc.toNat = s.cfg.textBase.toNat + s.cfg.textLen)
    ∨ ((settle s).outcome = .running ∧ s.pc.toNat ≠ s.cfg.textBase.toNat + s.cfg.textLen) := by
  rw [settle_outcome, h, Ne, ← atTextEnd_iff]
  cases atTextEnd s <;> simp

theorem stop_outcome_ne_ended (st : Stop) : st.outcome ≠ .ended := by cases st <;> simp [Stop.outcome]

/-! ## The step and the outcome -/

/-- Settles O12: `nextInstr_of_decode` finds the instruction, and settling is the last line of R242. -/
theorem stepRunsTheDecodedInstruction : Obligations.StepRunsTheDecodedInstruction := by
  intro s t i hr hf hd he
  simp only [step, hr, nextInstr_of_decode hf hd, he, settle, atTextEnd_iff]

/-- Settles O15: of the answers of a step only the first is a fault, and it is that of a state which is not running. -/
theorem onlyRunningStatesStep : Obligations.OnlyRunningStatesStep := by
  intro s
  rcases step_cases s with ⟨hr, e⟩ | ⟨hr, st, -, e⟩ | ⟨hr, i, st, -, -, e⟩ | ⟨hr, i, t, -, -, -, -, e⟩ <;> simp [e, hr]

/-- Settles O17: a stop is neither `Ended` nor `Running`, and settling tells these two apart by where the state stands. -/
theorem endedExactlyAtTheEndOfTheText : Obligations.EndedExactlyAtTheEndOfTheText := by
  intro s t h
  rcases step_next h with ⟨st, -, rfl⟩ | ⟨i, st, -, -, rfl⟩ | ⟨i, u, -, -, hr, hu, rfl⟩
  case inl | inr.inl => simp [stop_outcome_ne_ended, stop_outcome_ne_running]
  case inr.inr =>
    obtain ⟨-, -, -, ho, -⟩ := hu.completes
    rw [settle_pc, settle_cfg]
    rcases settle_outcome_of_running (ho.trans hr) with ⟨h, ht⟩ | ⟨h, ht⟩ <;> simp [h, ht]

/-! ## Memory, parameters and registers -/

/-- An effect writes memory through `MemWrite` and `MemWriteMasked`, which keep its canonical form. -/
theorem Effect.keeps_memWf {e : Encoding} {o : Option Operand} {len : Nat} {s t : State} (h : Effect e o len s t)
    (hm : memWf s.mem) : memWf t.mem := by
  cases h with
  | vec => exact hm
  | mem => exact memWf_memWrite _ _ _ _ hm
  | masked => exact memWf_memWriteMasked _ _ _ _ _ _ hm

/-- Settles O42: a stop and settling leave memory as it is, and an effect keeps its canonical form. -/
theorem stepKeepsMemoryCanonical : Obligations.StepKeepsMemoryCanonical := by
  intro s t hm h
  rcases step_next h with ⟨st, -, rfl⟩ | ⟨i, st, -, -, rfl⟩ | ⟨i, u, -, -, -, hu, rfl⟩
  · rwa [stop_mem]
  · rwa [stop_mem]
  · rw [settle_mem]
    exact hu.keeps_memWf hm

/-- Settles O43: neither a stop nor an effect nor settling writes them. -/
theorem stepKeepsParametersMasksAndGeneralRegisters : Obligations.StepKeepsParametersMasksAndGeneralRegisters := by
  intro s t h
  rcases step_next h with ⟨st, -, rfl⟩ | ⟨i, st, -, -, rfl⟩ | ⟨i, u, -, -, -, hu, rfl⟩
  case inl | inr.inl => simp
  case inr.inr =>
    obtain ⟨hc, hk, hx, -, -⟩ := hu.completes
    simp [hc, hk, hx]

/-! ## Inside the text -/

theorem inText_iff (c : Config) (a : Addr) :
    inText c a = true ↔ c.textBase.toNat ≤ a.toNat ∧ a.toNat < c.textBase.toNat + c.textLen := by
  simp only [inText, decide_eq_true_eq]

/-- The address after one of a text that does not wrap is in the text or the first after it. -/
theorem inText_succ {c : Config} {a : Addr} (hwrap : c.textBase.toNat + c.textLen < 2 ^ 64) (h : inText c a = true) :
    inText c (a + 1#64) = true ∨ (a + 1#64).toNat = c.textBase.toNat + c.textLen := by
  rw [inText_iff] at h ⊢
  have hsucc : (a + 1#64).toNat = a.toNat + 1 := by
    rw [BitVec.toNat_add, BitVec.toNat_ofNat]
    omega
  omega

/-- R242: past an instruction of a text that does not wrap stands the text or the first address after it. -/
theorem inText_next {s : State} {i : Instr} (hwrap : s.cfg.textBase.toNat + s.cfg.textLen < 2 ^ 64)
    (h : nextInstr s = .ok i) :
    inText s.cfg (byteAddr s.pc i.len) = true ∨ (byteAddr s.pc i.len).toNat = s.cfg.textBase.toNat + s.cfg.textLen := by
  obtain ⟨hpos, hf⟩ := nextInstr_ok h
  obtain ⟨n, hn⟩ : ∃ n, i.len = n + 1 := ⟨i.len - 1, by omega⟩
  have hlast : inText s.cfg (byteAddr s.pc n) = true := (hf n (by omega)).1
  have hsucc : byteAddr s.pc (n + 1) = byteAddr s.pc n + 1#64 := (byteAddr_byteAddr s.pc n 1).symm
  rw [hn, hsucc]
  exact inText_succ hwrap hlast

/-- Why a byte cannot be fetched is an exception, never a refusal. -/
theorem fetchStop_some {s : State} {a : Addr} {st : Stop} (h : fetchStop s a = some st) : ∃ x, st = .exc x := by
  unfold fetchStop at h
  split at h
  · exact ⟨_, (Option.some.inj h).symm⟩
  · split at h
    · exact ⟨_, (Option.some.inj h).symm⟩
    · cases h

/-- Bytes that end too early are a fetch fault, or the instruction runs past the text. -/
theorem truncatedStop_cases (s : State) :
    (∃ x, truncatedStop s = .exc x) ∨ truncatedStop s = .refuse .pastProgramText := by
  simp only [truncatedStop]
  split
  · rcases fetchBytes_cases (fetchStop s) s.mem windowSize s.pc with ⟨-, e⟩ | ⟨k, st, -, -, hst, e⟩
    · exact .inl ⟨.gp, by rw [e]; rfl⟩
    · obtain ⟨x, rfl⟩ := fetchStop_some hst
      exact .inl ⟨x, by rw [e]; rfl⟩
  · exact .inr rfl

/-- No rejection of the decoder is the refusal for a `pc` outside the text. -/
theorem rejectStop_ne_pcOutside (s : State) (r : Reject) : rejectStop s r ≠ .refuse .pcOutsideProgramText := by
  cases r with
  | truncated => rcases truncatedStop_cases s with ⟨x, e⟩ | e <;> simp [rejectStop, e]
  | gp | ud | notInScope => simp [rejectStop]

theorem nextInstr_ne_pcOutside {s : State} {st : Stop} (hpc : inText s.cfg s.pc = true) (h : nextInstr s = .error st) :
    st ≠ .refuse .pcOutsideProgramText := by
  rw [nextInstr_of_inText hpc] at h
  cases hd : decode (fetchBytes (textStop s) s.mem windowSize s.pc).1 with
  | ok i => rw [hd] at h; cases h
  | error r =>
    rw [hd] at h
    cases h
    exact rejectStop_ne_pcOutside s r

/-- The tests of an instruction do not refuse it for the place of `pc`. -/
theorem checkAll_ne_pcOutside {i : Instr} {s : State} {st : Stop}
    (h : checkAll (encodingOf i) (operandOf i) s = some st) : st ≠ .refuse .pcOutsideProgramText := by
  rintro rfl
  rw [checkAll, Option.or_eq_some_iff] at h
  rcases h with hg | ⟨-, hc⟩
  · rcases gateOf_some hg with h | ⟨h, -⟩ <;> cases h
  · obtain ⟨o, ho, hc⟩ := Option.bind_eq_some_iff.1 hc
    rcases @check_cases o s (operandOf_fits ho) with ⟨-, e⟩ | ⟨-, -, e⟩ | ⟨-, -, -, e⟩ | ⟨-, -, -, -, e⟩ | ⟨-, e⟩ <;>
      simp [e] at hc

theorem isLaunch_textInv {s : State} (h : isLaunch s) : textInv s := by
  obtain ⟨-, hpc, hlen, hwrap, -, -⟩ := h
  refine ⟨hwrap, fun _ => ?_⟩
  rw [hpc, inText_iff]
  omega

/-- A stop leaves no running state. -/
theorem textInv_stop {s : State} (h : textInv s) (st : Stop) : textInv (s.stop st) :=
  ⟨by rw [stop_cfg]; exact h.1, fun hr => absurd (stop_outcome s st ▸ hr) (stop_outcome_ne_running st)⟩

theorem stop_outcome_ne_pcOutside {st : Stop} (h : st ≠ .refuse .pcOutsideProgramText) :
    st.outcome ≠ .refused .pcOutsideProgramText := by
  cases st with
  | exc x => simp [Stop.outcome]
  | refuse r => simpa [Stop.outcome] using h

/-- Settles O45: an instruction in the text ends in the text or at its end, and settling ends the run there. -/
theorem stepKeepsRunningStatesInsideTheText : Obligations.StepKeepsRunningStatesInsideTheText := by
  refine ⟨fun s => isLaunch_textInv, fun s t hs h => ?_⟩
  have hr : s.outcome = .running := by
    by_contra hne
    rw [(onlyRunningStatesStep s).1.2 hne] at h
    cases h
  obtain ⟨hwrap, hpc⟩ := hs
  rcases step_next h with ⟨st, hn, rfl⟩ | ⟨i, st, -, hc, rfl⟩ | ⟨i, u, hn, -, -, hu, rfl⟩
  · refine ⟨textInv_stop ⟨hwrap, hpc⟩ st, ?_⟩
    rw [stop_outcome]
    exact stop_outcome_ne_pcOutside (nextInstr_ne_pcOutside (hpc hr) hn)
  · refine ⟨textInv_stop ⟨hwrap, hpc⟩ st, ?_⟩
    rw [stop_outcome]
    exact stop_outcome_ne_pcOutside (checkAll_ne_pcOutside hc)
  · obtain ⟨hcfg, -, -, ho, hupc⟩ := hu.completes
    have hwrap' : (settle u).cfg.textBase.toNat + (settle u).cfg.textLen < 2 ^ 64 := by rwa [settle_cfg, hcfg]
    have hplace := inText_next hwrap hn
    rw [byteAddr, ← hupc, ← hcfg] at hplace
    rcases settle_outcome_of_running (ho.trans hr) with ⟨he, -⟩ | ⟨he, hin⟩
    · exact ⟨⟨hwrap', fun hrun => nomatch he.symm.trans hrun⟩, fun href => nomatch he.symm.trans href⟩
    · refine ⟨⟨hwrap', fun _ => ?_⟩, fun href => nomatch he.symm.trans href⟩
      rw [settle_cfg, settle_pc]
      exact hplace.resolve_right hin

end Sys2Proof.Machine
end

section
/-! SUPPORT. What one instruction does and does not do (spec/10_state.md R36, R43; spec/60_exceptions.md R211), and the state at
reset (spec/70_reset_and_hazards.md R240). -/

namespace Sys2Proof.Machine

/-! ## Completion -/

/-- Settles O38: the tests find nothing, so the answer is an effect. -/
theorem nothingElseStopsAnInstruction : Obligations.NothingElseStopsAnInstruction := by
  intro i s hg ho
  rcases exec_cases i s with ⟨st, hc, -⟩ | ⟨-, t, he, ht⟩
  · rw [checkAll_eq_none.2 ⟨hg, ho⟩] at hc
    cases hc
  · exact ⟨t, he, ht.completes⟩

/-- Settles O40: an effect completes the instruction, and a stop changes only the outcome. -/
theorem completesOrChangesOnlyTheOutcome : Obligations.CompletesOrChangesOnlyTheOutcome := by
  intro i s hr
  rcases exec_cases i s with ⟨st, -, he⟩ | ⟨-, t, he, ht⟩
  · refine ⟨_, he, .inr ⟨?_, ?_⟩⟩
    · rw [stop_outcome]
      exact stop_outcome_ne_running st
    · rw [stop_outcome, stop_eq]
  · obtain ⟨-, -, -, ho, hpc⟩ := ht.completes
    exact ⟨t, he, .inl ⟨ho.trans hr, hpc⟩⟩

/-! ## What an instruction writes -/

/-- What an instruction leaves: the state of a stop, or an effect. -/
theorem exec_next {i : Instr} {s t : State} (h : exec i s = .next t) :
    (∃ st, t = s.stop st) ∨ Effect (encodingOf i) (operandOf i) i.len s t := by
  rcases exec_cases i s with ⟨st, -, he⟩ | ⟨-, u, he, hu⟩ <;> rw [he] at h <;> cases h
  · exact .inl ⟨st, rfl⟩
  · exact .inr hu

/-- No instruction writes a parameter, an opmask register or a general register (R33, R35, R217). -/
theorem exec_keeps {i : Instr} {s t : State} (h : exec i s = .next t) : t.cfg = s.cfg ∧ t.k = s.k ∧ t.x = s.x := by
  rcases exec_next h with ⟨st, rfl⟩ | ht
  · exact ⟨stop_cfg s st, stop_k s st, stop_x s st⟩
  · obtain ⟨hc, hk, hx, -, -⟩ := ht.completes
    exact ⟨hc, hk, hx⟩

/-- Only a store writes memory. -/
theorem Effect.mem_of_not_store {e : Encoding} {o : Option Operand} {len : Nat} {s t : State} (h : Effect e o len s t)
    (ho : ∀ p, o = some p → p.kind = .load) : t.mem = s.mem := by
  cases h with
  | vec => rfl
  | mem p _ hp hkind | masked p _ _ _ hp hkind => exact nomatch (ho p hp).symm.trans hkind

/-- A store writes no vector register. -/
theorem Effect.v_of_store {e : Encoding} {o : Option Operand} {len : Nat} {s t : State} (h : Effect e o len s t)
    {p : Operand} (ho : o = some p) (hkind : p.kind = .store) : t.v = s.v := by
  cases h with
  | vec _ _ hload => exact nomatch (hload p ho).symm.trans hkind
  | mem | masked => rfl

/-- A legacy SSE or VEX instruction writes none of `v[16]` to `v[31]` (R32). -/
theorem Effect.vec_of_high {e : Encoding} {o : Option Operand} {len : Nat} {s t : State} (h : Effect e o len s t)
    (he : e = .legacy ∨ e = .vex) {n : VReg32} (hn : 16 ≤ n.toNat) : t.vec n = s.vec n := by
  cases h with
  | vec dst x _ hreach =>
    have hlow := hreach he
    have hne : n ≠ dst := by
      rintro rfl
      omega
    rw [advance_vec, setVec_vec_ne _ _ _ _ hne]
  | mem | masked => rfl

/-- A stop writes no vector register. -/
@[simp] theorem stop_vec (s : State) (st : Stop) (n : VReg32) : (s.stop st).vec n = s.vec n := by
  simp only [State.vec, stop_v]

/-- Settles O47: the two clauses are those of `Effect`; a stop writes nothing. -/
theorem onlyStoresWriteMemory : Obligations.OnlyStoresWriteMemory := by
  intro i s t h
  obtain ⟨-, hk, hx⟩ := exec_keeps h
  refine ⟨fun hload a => ?_, fun ⟨o, ho, hstore⟩ => ⟨fun n => ?_, hk, hx⟩⟩ <;> rcases exec_next h with ⟨st, rfl⟩ | ht
  · rw [stop_mem]
  · rw [ht.mem_of_not_store hload]
  · rw [stop_vec]
  · simp only [State.vec, ht.v_of_store ho hstore]

/-! ## Reset -/

/-- Settles O57: the parameters are closed terms, and every register file is 0 in each place. -/
theorem resetIsTheLaunchState : Obligations.ResetIsTheLaunchState := by
  have hlaunch : isLaunch State.reset := by decide
  have hgate : ∀ e, gateOpen State.reset.cfg e := by
    intro e
    cases e with
    | legacy | vex => decide
    | evex vl => cases vl <;> decide
  refine ⟨hlaunch, isLaunch_textInv hlaunch, ⟨.nil, nofun⟩, hgate, rfl, rfl, rfl, fun n => ?_, fun n => ?_, fun n => ?_⟩
  · simp [State.vec, State.reset, Vector.get_eq_getElem]
  · simp [State.opmask, State.reset, Vector.get_eq_getElem]
  · simp [State.gpr, State.reset, Vector.get_eq_getElem]

end Sys2Proof.Machine
end

section
/-! SUPPORT. What an instruction reads of the vector and opmask registers (spec/10_state.md R32, R33, R34): two states that
differ only in registers and mask bits that it does not read stay so. -/

namespace Sys2Proof.Machine

/-! ## The writemask -/

/-- Bit `j` of an opmask register, for an element that exists: `KW` does not matter (R33, R34). -/
theorem getLsbD_opmask (s : State) (aaa : OpmaskSel) {j : Nat} (hj : j < 16) :
    (s.opmask aaa).getLsbD j = (s.k.get aaa.toFin).getLsbD j := by
  have hkw : j < s.cfg.kw.bits := hj.trans_le (by cases s.cfg.kw <;> decide)
  simp only [State.opmask, BitVec.getLsbD_setWidth, hkw, show j < 64 by omega, decide_true, Bool.true_and]

theorem maskedMove_congr {es : ElemSize} {old : VecWord} {src : Nat → VecWord} {sel sel' : Nat → Bool} {z : Bool} {n : Nat}
    (h : ∀ j < n, sel j = sel' j) : maskedMove es old src sel z n = maskedMove es old src sel' z n := by
  induction n with
  | zero => rfl
  | succ n ih => rw [maskedMove, maskedMove, ih fun j hj => h j (by omega), h n (by omega)]

theorem memWriteMasked_congr {m : List Host.Cell} {a : Addr} {es : ElemSize} {sel sel' : Nat → Bool} {e : VecWord} {n : Nat}
    (h : ∀ j < n, sel j = sel' j) : memWriteMasked m a es sel e n = memWriteMasked m a es sel' e n := by
  induction n with
  | zero => rfl
  | succ n ih => rw [memWriteMasked, memWriteMasked, ih fun j hj => h j (by omega), h n (by omega)]

theorem checkMem_congr {c : Config} {stack : Bool} {kind : AccessKind} {a : Addr} {n bytes count : Nat} {sel sel' : Nat → Bool}
    (h : ∀ j < count, sel j = sel' j) :
    checkMem c stack kind a n ⟨bytes, count, sel⟩ = checkMem c stack kind a n ⟨bytes, count, sel'⟩ := by
  have hacc : operandAccessible c kind a n ⟨bytes, count, sel⟩ = operandAccessible c kind a n ⟨bytes, count, sel'⟩ := by
    rw [Bool.eq_iff_iff]
    simp +contextual [operandAccessible, h]
  rw [checkMem, checkMem, hacc]

/-! ## A state with other registers -/

/-- The state with another vector file, opmask file and `KW`. -/
def State.varied (s : State) (v : Vector (BitVec 512) 32) (k : Vector (BitVec 64) 8) (w : OpmaskWidth) : State :=
  { s with v := v, k := k, cfg := { s.cfg with kw := w } }

/-- `t` and `t'` differ in `k`, `KW` and the vector registers outside `V` at most, and `t'` has the opmask file `k` and the `KW`
of `w`. -/
def Alike (V : VReg32 → Prop) (k : Vector (BitVec 64) 8) (w : OpmaskWidth) (t t' : State) : Prop :=
  ∃ v, t' = t.varied v k w ∧ ∀ n, V n → (t.varied v k w).vec n = t.vec n

/-- Two answers are next states that are alike. -/
def AlikeNext (V : VReg32 → Prop) (k : Vector (BitVec 64) 8) (w : OpmaskWidth) (r r' : Host.Outcome State Fault Refusal) :
    Prop :=
  ∃ t t', r = .next t ∧ r' = .next t' ∧ Alike V k w t t'

section alike

variable {V : VReg32 → Prop} {k : Vector (BitVec 64) 8} {w : OpmaskWidth} {s s' : State}

theorem Alike.vec_eq (h : Alike V k w s s') {n : VReg32} (hn : V n) : s'.vec n = s.vec n := by
  obtain ⟨v, rfl, hv⟩ := h
  exact hv n hn

theorem Alike.mem_eq (h : Alike V k w s s') : s'.mem = s.mem := by
  obtain ⟨v, rfl, -⟩ := h
  rfl

theorem Alike.effAddr_eq (h : Alike V k w s s') (m : MemOperand) (n len : Nat) : s'.effAddr m n len = s.effAddr m n len := by
  obtain ⟨v, rfl, -⟩ := h
  rfl

theorem Alike.gateSse_eq (h : Alike V k w s s') : gateSse s'.cfg = gateSse s.cfg := by
  obtain ⟨v, rfl, -⟩ := h
  rfl

theorem Alike.gateVex_eq (h : Alike V k w s s') : gateVex s'.cfg = gateVex s.cfg := by
  obtain ⟨v, rfl, -⟩ := h
  rfl

theorem Alike.gateEvex_eq (h : Alike V k w s s') (vl : VecLen) : gateEvex vl s'.cfg = gateEvex vl s.cfg := by
  obtain ⟨v, rfl, -⟩ := h
  rfl

theorem Alike.checkMem_eq (h : Alike V k w s s') (stack : Bool) (kind : AccessKind) (a : Addr) (n : Nat) (es : ElemSel) :
    checkMem s'.cfg stack kind a n es = checkMem s.cfg stack kind a n es := by
  obtain ⟨v, rfl, -⟩ := h
  rfl

theorem Alike.stop (h : Alike V k w s s') (st : Stop) : Alike V k w (s.stop st) (s'.stop st) := by
  obtain ⟨v, rfl, hv⟩ := h
  refine ⟨v, by simp only [stop_eq]; rfl, fun n hn => ?_⟩
  rw [stop_vec, ← hv n hn]
  rfl

theorem Alike.advance (h : Alike V k w s s') (len : Nat) : Alike V k w (s.advance len) (s'.advance len) := by
  obtain ⟨v, rfl, hv⟩ := h
  exact ⟨v, rfl, hv⟩

theorem Alike.withMem (h : Alike V k w s s') (μ : List Host.Cell) :
    Alike V k w { s with mem := μ } { s' with mem := μ } := by
  obtain ⟨v, rfl, hv⟩ := h
  exact ⟨v, rfl, hv⟩

/-- The same value written to the same register. -/
theorem Alike.setVec (h : Alike V k w s s') (d : VReg32) (e : VecWord) : Alike V k w (s.setVec d e) (s'.setVec d e) := by
  obtain ⟨v, rfl, hv⟩ := h
  refine ⟨((s.varied v k w).setVec d e).v, rfl, fun n hn => ?_⟩
  show ((s.varied v k w).setVec d e).vec n = (s.setVec d e).vec n
  by_cases hd : n = d
  · rw [hd, setVec_vec_self, setVec_vec_self]
  · rw [setVec_vec_ne _ _ _ _ hd, setVec_vec_ne _ _ _ _ hd, hv n hn]

/-- The same tests before effects that are alike. -/
theorem alikeNext_attempt {t t' : State} (c : Option Stop) (h : Alike V k w s s') (ht : Alike V k w t t') :
    AlikeNext V k w (attempt c s t) (attempt c s' t') := by
  cases c with
  | some st => exact ⟨_, _, rfl, rfl, h.stop st⟩
  | none => exact ⟨_, _, rfl, rfl, ht⟩

/-! ## The nine shared operations -/

theorem legacyCopy_alike (h : Alike V k w s s') (hV : ∀ n, n.toNat < 16 → V n) (dst src : VReg16) (len : Nat) :
    AlikeNext V k w (legacyCopy dst src len s) (legacyCopy dst src len s') := by
  simp only [legacyCopy, h.gateSse_eq, h.vec_eq (hV _ (vreg_lt _))]
  exact alikeNext_attempt _ h ((h.setVec _ _).advance _)

theorem legacyLoad_alike (h : Alike V k w s s') (hV : ∀ n, n.toNat < 16 → V n) (dst : VReg16) (m : MemOperand) (len : Nat) :
    AlikeNext V k w (legacyLoad dst m len s) (legacyLoad dst m len s') := by
  simp only [legacyLoad, h.gateSse_eq, h.checkMem_eq, h.effAddr_eq, h.mem_eq, h.vec_eq (hV _ (vreg_lt _))]
  exact alikeNext_attempt _ h ((h.setVec _ _).advance _)

theorem legacyStore_alike (h : Alike V k w s s') (hV : ∀ n, n.toNat < 16 → V n) (m : MemOperand) (src : VReg16) (len : Nat) :
    AlikeNext V k w (legacyStore m src len s) (legacyStore m src len s') := by
  simp only [legacyStore, h.gateSse_eq, h.checkMem_eq, h.effAddr_eq, h.mem_eq, h.vec_eq (hV _ (vreg_lt _))]
  exact alikeNext_attempt _ h ((h.withMem _).advance _)

theorem vexCopy_alike (h : Alike V k w s s') (hV : ∀ n, n.toNat < 16 → V n) (vl : VecLen) (dst src : VReg16) (len : Nat) :
    AlikeNext V k w (vexCopy vl dst src len s) (vexCopy vl dst src len s') := by
  simp only [vexCopy, h.gateVex_eq, h.vec_eq (hV _ (vreg_lt _))]
  exact alikeNext_attempt _ h ((h.setVec _ _).advance _)

theorem vexLoad_alike (h : Alike V k w s s') (vl : VecLen) (dst : VReg16) (m : MemOperand) (len : Nat) :
    AlikeNext V k w (vexLoad vl dst m len s) (vexLoad vl dst m len s') := by
  simp only [vexLoad, h.gateVex_eq, h.checkMem_eq, h.effAddr_eq, h.mem_eq]
  exact alikeNext_attempt _ h ((h.setVec _ _).advance _)

theorem vexStore_alike (h : Alike V k w s s') (hV : ∀ n, n.toNat < 16 → V n) (vl : VecLen) (m : MemOperand) (src : VReg16)
    (len : Nat) : AlikeNext V k w (vexStore vl m src len s) (vexStore vl m src len s') := by
  simp only [vexStore, h.gateVex_eq, h.checkMem_eq, h.effAddr_eq, h.mem_eq, h.vec_eq (hV _ (vreg_lt _))]
  exact alikeNext_attempt _ h ((h.withMem _).advance _)

variable (es : ElemSize) (vl : VecLen) {mask : Masking} {aaa : OpmaskSel}

theorem evexCopy_alike (h : Alike V k w s s') (hV : ∀ n, V n)
    (hsel : ∀ j < elemCount vl es, s'.selected mask.aaa j = s.selected mask.aaa j) (dst src : VReg32) (len : Nat) :
    AlikeNext V k w (evexCopy es vl dst src mask len s) (evexCopy es vl dst src mask len s') := by
  simp only [evexCopy, h.gateEvex_eq, h.vec_eq (hV _), maskedMove_congr hsel]
  exact alikeNext_attempt _ h ((h.setVec _ _).advance _)

theorem evexLoad_alike (h : Alike V k w s s') (hV : ∀ n, V n)
    (hsel : ∀ j < elemCount vl es, s'.selected mask.aaa j = s.selected mask.aaa j) (dst : VReg32) (m : MemOperand) (len : Nat) :
    AlikeNext V k w (evexLoad es vl dst mask m len s) (evexLoad es vl dst mask m len s') := by
  simp only [evexLoad, State.evexElems, h.gateEvex_eq, h.checkMem_eq, h.effAddr_eq, h.mem_eq, h.vec_eq (hV _),
    checkMem_congr hsel, maskedMove_congr hsel]
  exact alikeNext_attempt _ h ((h.setVec _ _).advance _)

theorem evexStore_alike (h : Alike V k w s s') (hV : ∀ n, V n)
    (hsel : ∀ j < elemCount vl es, s'.selected aaa j = s.selected aaa j) (m : MemOperand) (src : VReg32) (len : Nat) :
    AlikeNext V k w (evexStore es vl m aaa src len s) (evexStore es vl m aaa src len s') := by
  simp only [evexStore, State.evexElems, h.gateEvex_eq, h.checkMem_eq, h.effAddr_eq, h.mem_eq, h.vec_eq (hV _),
    checkMem_congr hsel, memWriteMasked_congr hsel]
  exact alikeNext_attempt _ h ((h.withMem _).advance _)

/-! ## The 36 instructions -/

/-- R32, R34: an instruction reads no vector register out of the reach of its encoding and no mask bit but those of its opmask
field and elements. -/
theorem exec_alike {i : Instr} (h : Alike V k w s s')
    (hV : ∀ n, (encodingOf i = .legacy ∨ encodingOf i = .vex → n.toNat < 16) → V n)
    (hsel : ∀ j < (maskRead i).2, s'.selected (maskRead i).1 j = s.selected (maskRead i).1 j) :
    AlikeNext V k w (exec i s) (exec i s') := by
  have low (n : VReg32) (hn : n.toNat < 16) : V n := hV n fun _ => hn
  cases i
  case movdqaXmmCopyRm | movdqaXmmCopyMr => exact legacyCopy_alike h low _ _ _
  case movdqaXmmLoad => exact legacyLoad_alike h low _ _ _
  case movdqaXmmStore => exact legacyStore_alike h low _ _ _
  case vmovdqaXmmCopyRm | vmovdqaXmmCopyMr => exact vexCopy_alike h low .l128 _ _ _
  case vmovdqaYmmCopyRm | vmovdqaYmmCopyMr => exact vexCopy_alike h low .l256 _ _ _
  case vmovdqaXmmLoad => exact vexLoad_alike h .l128 _ _ _
  case vmovdqaYmmLoad => exact vexLoad_alike h .l256 _ _ _
  case vmovdqaXmmStore => exact vexStore_alike h low .l128 _ _ _
  case vmovdqaYmmStore => exact vexStore_alike h low .l256 _ _ _
  all_goals have all (n : VReg32) : V n := hV n nofun
  case vmovdqa32XmmCopyRm | vmovdqa32XmmCopyMr => exact evexCopy_alike .dword .l128 h all hsel _ _ _
  case vmovdqa32YmmCopyRm | vmovdqa32YmmCopyMr => exact evexCopy_alike .dword .l256 h all hsel _ _ _
  case vmovdqa32ZmmCopyRm | vmovdqa32ZmmCopyMr => exact evexCopy_alike .dword .l512 h all hsel _ _ _
  case vmovdqa32XmmLoad => exact evexLoad_alike .dword .l128 h all hsel _ _ _
  case vmovdqa32YmmLoad => exact evexLoad_alike .dword .l256 h all hsel _ _ _
  case vmovdqa32ZmmLoad => exact evexLoad_alike .dword .l512 h all hsel _ _ _
  case vmovdqa32XmmStore => exact evexStore_alike .dword .l128 h all hsel _ _ _
  case vmovdqa32YmmStore => exact evexStore_alike .dword .l256 h all hsel _ _ _
  case vmovdqa32ZmmStore => exact evexStore_alike .dword .l512 h all hsel _ _ _
  case vmovdqa64XmmCopyRm | vmovdqa64XmmCopyMr => exact evexCopy_alike .qword .l128 h all hsel _ _ _
  case vmovdqa64YmmCopyRm | vmovdqa64YmmCopyMr => exact evexCopy_alike .qword .l256 h all hsel _ _ _
  case vmovdqa64ZmmCopyRm | vmovdqa64ZmmCopyMr => exact evexCopy_alike .qword .l512 h all hsel _ _ _
  case vmovdqa64XmmLoad => exact evexLoad_alike .qword .l128 h all hsel _ _ _
  case vmovdqa64YmmLoad => exact evexLoad_alike .qword .l256 h all hsel _ _ _
  case vmovdqa64ZmmLoad => exact evexLoad_alike .qword .l512 h all hsel _ _ _
  case vmovdqa64XmmStore => exact evexStore_alike .qword .l128 h all hsel _ _ _
  case vmovdqa64YmmStore => exact evexStore_alike .qword .l256 h all hsel _ _ _
  case vmovdqa64ZmmStore => exact evexStore_alike .qword .l512 h all hsel _ _ _

end alike

/-! ## The vector registers out of reach -/

/-- Settles O46: `Effect` bounds what is written, and `exec_alike` what is read. -/
theorem narrowEncodingsReachOnlyTheLowRegisters : Obligations.NarrowEncodingsReachOnlyTheLowRegisters := by
  intro i s t henc h
  refine ⟨fun n hn => ?_, fun v' hv' => ?_⟩
  · rcases exec_next h with ⟨st, rfl⟩ | ht
    · exact stop_vec s st n
    · exact ht.vec_of_high henc hn
  · have hs : Alike (·.toNat < 16) s.k s.cfg.kw s { s with v := v' } := ⟨v', rfl, hv'⟩
    obtain ⟨u, t', hu, ht', halike⟩ := exec_alike hs (fun n hn => hn henc) fun _ _ => rfl
    obtain rfl : t = u := Host.Outcome.next.inj (h.symm.trans hu)
    obtain ⟨v, rfl, hv⟩ := halike
    obtain ⟨hcfg, hk, -⟩ := exec_keeps h
    refine ⟨_, ht', ?_, hv⟩
    rw [State.varied, ← hcfg, ← hk]

/-! ## The mask bits that are not selected -/

/-- No instruction has more than 16 elements. -/
theorem maskRead_le (i : Instr) : (maskRead i).2 ≤ 16 := by
  cases i <;> simp [maskRead]

/-- The selection of an instruction rests on the bits `KL-1:0` of its opmask register, and on none without a writemask. -/
theorem selected_congr {i : Instr} {s s' : State}
    (h : (maskRead i).1 ≠ 0 → ∀ j < (maskRead i).2,
      (s'.k.get (maskRead i).1.toFin).getLsbD j = (s.k.get (maskRead i).1.toFin).getLsbD j) :
    ∀ j < (maskRead i).2, s'.selected (maskRead i).1 j = s.selected (maskRead i).1 j := by
  intro j hj
  have h16 : j < 16 := hj.trans_le (maskRead_le i)
  by_cases h0 : (maskRead i).1 = 0
  · rw [h0]
    rfl
  · rw [State.selected, State.selected, getLsbD_opmask s' _ h16, getLsbD_opmask s _ h16, h h0 j hj]

/-- With another opmask file and `KW` that agree on the bits it reads, an instruction does the same. -/
theorem exec_varied {i : Instr} {s t : State} (h : exec i s = .next t) (k : Vector (BitVec 64) 8) (w : OpmaskWidth)
    (hk : (maskRead i).1 ≠ 0 → ∀ j < (maskRead i).2,
      (k.get (maskRead i).1.toFin).getLsbD j = (s.k.get (maskRead i).1.toFin).getLsbD j) :
    exec i (s.varied s.v k w) = .next (t.varied t.v k w) := by
  have hs : Alike (fun _ => True) k w s (s.varied s.v k w) := ⟨s.v, rfl, fun _ _ => rfl⟩
  obtain ⟨u, t', hu, ht', halike⟩ := exec_alike hs (fun _ _ => trivial) (selected_congr hk)
  obtain rfl : t = u := Host.Outcome.next.inj (h.symm.trans hu)
  obtain ⟨v, rfl, hv⟩ := halike
  have hvt : v = t.v := Vector.ext fun n hn => by
    simpa [State.vec, Vector.get_eq_getElem, State.varied, Nat.mod_eq_of_lt hn] using hv (BitVec.ofNat 5 n) trivial
  rw [ht', hvt]

/-- Settles O48: `exec_varied` with another opmask file alone, and with another `KW` alone. -/
theorem onlySelectedMaskBitsAreRead : Obligations.OnlySelectedMaskBitsAreRead := by
  intro i s t h
  obtain ⟨hcfg, hk, -⟩ := exec_keeps h
  refine ⟨fun k' hk' => ?_, hk, fun w => ?_⟩
  · have ht : t.varied t.v k' s.cfg.kw = { t with k := k' } := by rw [State.varied, ← hcfg]
    rw [← ht]
    exact exec_varied h k' s.cfg.kw hk'
  · have ht : t.varied t.v s.k w = { t with cfg := { t.cfg with kw := w } } := by rw [State.varied, ← hk]
    rw [← ht]
    exact exec_varied h s.k w fun _ _ _ => rfl

end Sys2Proof.Machine
end

section
/-! SUPPORT. What `CheckMem` answers and how the instruction then ends, and which bytes of memory an instruction leaves as they
were (spec/20_memory.md R63, R64, R69 to R71, R77; spec/60_exceptions.md R203, R205). -/

namespace Sys2Proof.Machine

/-! ## The tests of a memory operand -/

/-- R70: the first test that fails decides what `CheckMem` answers. -/
theorem check_eq {o : Operand} (hf : o.fits) (s : State) :
    o.check s =
      if ¬ o.canon s then some (.exc (if stackSegment o.m.form then .ss else .gp))
      else if ¬ o.aligned s then some (.exc .gp)
      else if o.hitsText s then some (.refuse .storeToProgramText)
      else if ¬ o.reachable s then some (.exc .pf)
      else none := by
  rcases check_cases (s := s) hf with ⟨h, e⟩ | ⟨hc, h, e⟩ | ⟨hc, ha, h, e⟩ | ⟨hc, ha, ht, h, e⟩ | ⟨⟨hc, ha, ht, hr⟩, e⟩
  · rw [e, if_pos h]
  · rw [e, if_neg (not_not.2 hc), if_pos h]
  · rw [e, if_neg (not_not.2 hc), if_neg (not_not.2 ha), if_pos h]
  · rw [e, if_neg (not_not.2 hc), if_neg (not_not.2 ha), if_neg ht, if_pos h]
  · rw [e, if_neg (not_not.2 hc), if_neg (not_not.2 ha), if_neg ht, if_neg (not_not.2 hr)]

/-- With the gate open, an instruction ends in the stop that `CheckMem` answers. -/
theorem exec_of_check {i : Instr} {o : Operand} {s : State} {st : Stop} (hg : gateOpen s.cfg (encodingOf i))
    (ho : operandOf i = some o) (h : o.check s = some st) : exec i s = .next (s.stop st) :=
  exec_of_stop (by rw [ho, checkAll_of_open hg, h])

/-- Settles O33: the first test of `CheckMem`, outside the stack segment. -/
theorem nonCanonicalDataOperandIsGeneralProtection : Obligations.NonCanonicalDataOperandIsGeneralProtection := by
  intro i o s hg ho hcanon hseg
  have hcheck : o.check s = some (.exc .gp) := by
    rw [check_eq (operandOf_fits ho), if_pos hcanon, hseg]
    rfl
  exact exec_of_check hg ho hcheck

/-- Settles O34: the second test of `CheckMem`, which comes before accessibility and does not look at the writemask. -/
theorem misalignedOperandIsGeneralProtection : Obligations.MisalignedOperandIsGeneralProtection := by
  intro i o s hg ho hcanon haligned
  have hcheck : o.check s = some (.exc .gp) := by
    rw [check_eq (operandOf_fits ho), if_neg (not_not.2 hcanon), if_pos haligned]
  exact exec_of_check hg ho hcheck

/-- Settles O35: the third test of `CheckMem`, which does not look at the writemask. -/
theorem storeToProgramTextIsRefused : Obligations.StoreToProgramTextIsRefused := by
  intro i o s hg ho hcanon haligned htext
  have hcheck : o.check s = some (.refuse .storeToProgramText) := by
    rw [check_eq (operandOf_fits ho), if_neg (not_not.2 hcanon), if_neg (not_not.2 haligned), if_pos htext]
  exact exec_of_check hg ho hcheck

/-- Settles O36: the last test of `CheckMem`. -/
theorem inaccessibleOperandIsPageFault : Obligations.InaccessibleOperandIsPageFault := by
  intro i o s hg ho hcanon haligned htext hreach
  have hcheck : o.check s = some (.exc .pf) := by
    rw [check_eq (operandOf_fits ho), if_neg (not_not.2 hcanon), if_neg (not_not.2 haligned), if_neg htext, if_pos hreach]
  exact exec_of_check hg ho hcheck

/-! ## The bytes that no instruction writes -/

/-- R60: no operand is larger than a vector register. -/
theorem operandOf_bytes_le {i : Instr} {o : Operand} (h : operandOf i = some o) : o.bytes ≤ 64 := by
  cases i <;> cases h <;> norm_num

/-- A byte of an element that exists is a byte of the whole. -/
theorem elemByte_lt {n w j b : Nat} (hj : j < n) (hb : b < w) : j * w + b < n * w :=
  calc j * w + b < j * w + w := Nat.add_lt_add_left hb _
    _ = (j + 1) * w := (Nat.succ_mul j w).symm
    _ ≤ n * w := Nat.mul_le_mul_right w hj

/-- An effect changes no byte outside the operand of a store. -/
theorem Effect.readByte_of_outside {e : Encoding} {o : Option Operand} {len : Nat} {s t : State} {a : Addr}
    (h : Effect e o len s t) (hsize : ∀ p, o = some p → p.bytes ≤ 64)
    (hout : ∀ p, o = some p → p.kind = .store → ∀ b < p.bytes, a ≠ byteAddr (p.ea s) b) :
    readByte t.mem a = readByte s.mem a := by
  cases h with
  | vec => rfl
  | mem p x hp hkind =>
    have hle := hsize p hp
    exact (readByte_memWrite _ _ _ _ _ (by omega)).2 (hout p hp hkind)
  | masked p es n x hp hkind _ hn =>
    have hle := hsize p hp
    exact (readByte_memWriteMasked _ _ _ _ _ _ _ (by omega)).2 fun j hj _ b hb =>
      hout p hp hkind _ (hn ▸ elemByte_lt hj hb)

/-- Settles O44: an instruction that no test stops has no byte of a store in the text, by the third test of `CheckMem`; a stop
and settling leave memory as it is. -/
theorem stepKeepsTheProgramText : Obligations.StepKeepsTheProgramText := by
  intro s t a h ha
  rcases step_next h with ⟨st, -, rfl⟩ | ⟨i, st, -, -, rfl⟩ | ⟨i, u, -, hc, -, hu, rfl⟩
  · rw [stop_mem]
  · rw [stop_mem]
  · rw [settle_mem]
    refine hu.readByte_of_outside (fun p => operandOf_bytes_le) fun p hp hkind b hb hab => ?_
    obtain ⟨-, -, htext, -⟩ := (checkAll_eq_none.1 hc).2 p hp
    exact htext ⟨hkind, b, hb, hab ▸ ha⟩

end Sys2Proof.Machine
end

section
/-! SUPPORT. The memory primitives (spec/20_memory.md R61, R62) and the canonical form of an address (R69). -/

namespace Sys2Proof.Machine

/-! ## Reads, writes and the selection -/

/-- `MemRead` has nothing above its `n` bytes. -/
theorem lowBits_memRead (m : List Host.Cell) (a : Addr) (n : Nat) : lowBits (8 * n) (memRead m a n) = memRead m a n := by
  apply BitVec.eq_of_getLsbD_eq
  intro j _
  rw [getLsbD_lowBits, getLsbD_memRead]
  by_cases hj : j < 8 * n <;> simp [hj]

/-- R62: element `j` of a masked read is `MemRead` of that element, where it is selected. -/
theorem elemOf_maskedMove_memElem (m : List Host.Cell) (a : Addr) (es : ElemSize) (old : VecWord) (sel : Nat → Bool) (z : Bool)
    {n j : Nat} (hn : n * es.bits ≤ 512) (hj : j < n) :
    elemOf es (maskedMove es old (memElem m a es) sel z n) j =
      if sel j then memRead m (byteAddr a (j * es.bytes)) es.bytes else if z then 0 else elemOf es old j := by
  have h8 : es.bits = 8 * es.bytes := by cases es <;> rfl
  have hread : lowBits es.bits (memElem m a es j) = memRead m (byteAddr a (j * es.bytes)) es.bytes := by
    rw [h8, memElem, lowBits_memRead]
  rw [elemOf_maskedMove es old _ sel z hn, if_neg (by omega), hread]

/-- R62, R107: the writemask selects an element that exists by its bit, whatever `KW` is; without a writemask every element is
selected. -/
theorem selected_iff (s : State) (aaa : OpmaskSel) {j : Nat} (hj : j < 16) :
    s.selected aaa j = true ↔ aaa = 0 ∨ (s.k.get aaa.toFin).getLsbD j = true := by
  rw [State.selected, getLsbD_opmask s aaa hj, Bool.or_eq_true, beq_iff_eq]
  rfl

/-- R63: an operand of any size divides a block of 64 bytes or more. -/
theorem dvd_of_mem_operandSizes {n : Nat} (hn : n ∈ [16, 32, 64]) {k : Nat} (hk : 6 ≤ k) : n ∣ 2 ^ k := by
  have h64 : n ∣ 2 ^ 6 := by fin_cases hn <;> norm_num
  exact h64.trans (pow_dvd_pow 2 hk)

/-- Settles O51: each clause is the law of its primitive. -/
theorem memoryPrimitivesMoveBytes : Obligations.MemoryPrimitivesMoveBytes := by
  intro m a e
  refine ⟨fun n hn => ⟨fun j hj => ?_, fun b hb => ?_, fun c => ?_⟩, fun es vl sel => ⟨fun old z j hj => ?_, ?_⟩,
    fun s aaa j hj => selected_iff s aaa hj, fun n hn ha b hb => ?_⟩
  · rw [getLsbD_memRead, decide_eq_true hj, Bool.true_and]
  · exact (readByte_memWrite m a _ e n (by omega)).1 b hb rfl
  · exact (readByte_memWrite m a c e n (by omega)).2
  · exact elemOf_maskedMove_memElem m a es old sel z (elemCount_mul_bits_le vl es) hj
  · have hsize : elemCount vl es * es.bytes ≤ 2 ^ 64 := by
      rw [elemCount_mul_bytes]
      cases vl <;> decide
    exact ⟨fun j hj hsel b hb => (readByte_memWriteMasked m a _ es sel e _ hsize).1 j hj b hb hsel rfl,
      fun c => (readByte_memWriteMasked m a c es sel e _ hsize).2⟩
  · exact byteAddr_toNat (dvd_of_mem_operandSizes hn (by decide)) ha hb

/-- R61: a read inside the bytes of a write sees its part of the value. -/
theorem memRead_memWrite (m : List Host.Cell) (a : Addr) (e : VecWord) {w o n : Nat} (hw : w ≤ 2 ^ 64) (h : o + n ≤ w) :
    memRead (memWrite m a e w) (byteAddr a o) n = lowBits (8 * n) (e >>> (8 * o)) := by
  apply BitVec.eq_of_getLsbD_eq
  intro j hj
  rw [getLsbD_memRead, getLsbD_lowBits, byteAddr_byteAddr]
  by_cases hn : j < 8 * n
  case neg => simp [hn]
  case pos =>
    have hbyte : readByte (memWrite m a e w) (byteAddr a (o + j / 8)) = byteOf e (o + j / 8) :=
      (readByte_memWrite m a _ e w hw).1 _ (by omega) rfl
    have hbit : 8 * (o + j / 8) + j % 8 = 8 * o + j := by omega
    rw [hbyte, byteOf, BitVec.getLsbD_extractLsb', BitVec.getLsbD_ushiftRight, hbit]
    simp [hj, hn, show j % 8 < 8 by omega]

/-- Settles O52: `memRead_memWrite` for a write of 64 bytes. -/
theorem narrowReadSeesPartOfWideWrite : Obligations.NarrowReadSeesPartOfWideWrite := by
  intro m a e o n h
  exact memRead_memWrite m a e (by norm_num) h

/-! ## The canonical form of an address -/

/-- A shifted address is the number of its upper bits. -/
theorem toNat_shiftRight_eq_iff (a : Addr) (k : Nat) {y : Nat} (hy : ∀ i, 64 - k ≤ i → y.testBit i = false) :
    a.toNat >>> k = y ↔ ∀ i, k ≤ i → i < 64 → a.getLsbD i = y.testBit (i - k) := by
  constructor
  · rintro rfl i hk _
    rw [Nat.testBit_shiftRight, Nat.add_sub_cancel' hk, BitVec.testBit_toNat]
  · intro h
    refine Nat.eq_of_testBit_eq fun i => ?_
    rw [Nat.testBit_shiftRight, BitVec.testBit_toNat]
    by_cases hi : k + i < 64
    · rw [h _ (Nat.le_add_right k i) hi, Nat.add_sub_cancel_left]
    · rw [BitVec.getLsbD_of_ge _ _ (Nat.le_of_not_lt hi), hy i (by omega)]

/-- R69: the bits from `LINEAR_BITS - 1` up are all 0 or all 1. -/
theorem canonical_iff (lb : Nat) (a : Addr) :
    canonical lb a = true ↔
      (∀ i, lb - 1 ≤ i → i < 64 → a.getLsbD i = false) ∨ ∀ i, lb - 1 ≤ i → i < 64 → a.getLsbD i = true := by
  have hzeros : a.toNat >>> (lb - 1) = 0 ↔ ∀ i, lb - 1 ≤ i → i < 64 → a.getLsbD i = false := by
    rw [toNat_shiftRight_eq_iff a _ (by simp)]
    simp only [Nat.zero_testBit]
  have hones : a.toNat >>> (lb - 1) = 2 ^ (64 - (lb - 1)) - 1 ↔ ∀ i, lb - 1 ≤ i → i < 64 → a.getLsbD i = true := by
    rw [toNat_shiftRight_eq_iff a _ (by simp)]
    refine forall₃_congr fun i hlo hhi => ?_
    rw [Nat.testBit_two_pow_sub_one, decide_eq_true (show i - (lb - 1) < 64 - (lb - 1) by omega)]
  rw [← hzeros, ← hones]
  simp only [canonical, Bool.or_eq_true, beq_iff_eq]

/-- Whether an address is canonical rests on its bits from `LINEAR_BITS - 1` up. -/
theorem canonical_congr {lb : Nat} {a c : Addr} (h : a.toNat >>> (lb - 1) = c.toNat >>> (lb - 1)) :
    canonical lb a = canonical lb c := by
  rw [canonical, canonical, h]

/-- R69: no boundary of the canonical ranges lies inside an aligned block of a size that divides `2 ^ (LINEAR_BITS - 1)`. -/
theorem canonical_byteAddr {lb n b : Nat} {a : Addr} (hn : n ∣ 2 ^ 64) (hlb : n ∣ 2 ^ (lb - 1)) (ha : a.toNat % n = 0)
    (hb : b < n) : canonical lb (byteAddr a b) = canonical lb a := by
  have hblock : (a.toNat + b) / n = a.toNat / n := by
    rw [Nat.add_div_of_dvd_right (Nat.dvd_of_mod_eq_zero ha), Nat.div_eq_of_lt hb, Nat.add_zero]
  obtain ⟨q, hq⟩ := hlb
  apply canonical_congr
  rw [byteAddr_toNat hn ha hb, Nat.shiftRight_eq_div_pow, Nat.shiftRight_eq_div_pow, hq, ← Nat.div_div_eq_div_mul, hblock,
    Nat.div_div_eq_div_mul]

/-- Settles O53: bits that are equal are those of `canonical_iff`; no boundary of the ranges lies inside an operand. -/
theorem canonicalMeansEqualTopBits : Obligations.CanonicalMeansEqualTopBits := by
  intro lb a _ hle
  refine ⟨?_, fun hlb n hn ha hcanon b hb => ?_⟩
  · rw [canonical_iff]
    constructor
    · rintro (h | h) i j hi hi64 hj hj64 <;> rw [h i hi hi64, h j hj hj64]
    · intro h
      have htop (i) (hi : lb - 1 ≤ i) (hi64 : i < 64) : a.getLsbD i = a.getLsbD 63 :=
        h i 63 hi hi64 (by omega) (by decide)
      cases h63 : a.getLsbD 63 with
      | false => exact .inl fun i hi hi64 => (htop i hi hi64).trans h63
      | true => exact .inr fun i hi hi64 => (htop i hi hi64).trans h63
  · rwa [canonical_byteAddr (dvd_of_mem_operandSizes hn (by decide)) (dvd_of_mem_operandSizes hn (by omega)) ha hb]

end Sys2Proof.Machine
end

section
/-! SUPPORT. The legacy prefixes as a whole (spec/30_encoding.md R93, R109 steps 1 and 2): which set a run of them makes, and
what the decoder does after them. -/

namespace Sys2Proof
open Machine

/-! ## The set of a run of prefixes -/

/-- The set `seen` of R109 step 1, by membership. -/
def seen (pre : List Byte) : Prefixes where
  opsize := decide (0x66#8 ∈ pre)
  addrsize := decide (0x67#8 ∈ pre)
  lock := decide (0xF0#8 ∈ pre)
  repne := decide (0xF2#8 ∈ pre)
  rep := decide (0xF3#8 ∈ pre)
  segment := pre.any isSegmentByte

theorem seen_cons (b : Byte) (pre : List Byte) : seen (b :: pre) = (seen [b]).or (seen pre) := by
  simp [seen, Prefixes.or]

/-- The legacy prefixes and the set of one byte, as R93 lists them. -/
theorem prefixOf_eq (b : Byte) : prefixOf b = if isLegacyPrefix b then some (seen [b]) else none := by
  revert b
  decide +kernel

/-- A run of prefixes makes the set of its members, and no other bytes make one. -/
theorem prefixRun_eq (pre : List Byte) : prefixRun pre = if ∀ b ∈ pre, isLegacyPrefix b then some (seen pre) else none := by
  induction pre with
  | nil => rfl
  | cons b pre ih =>
    rw [prefixRun, ih, prefixOf_eq, seen_cons b pre]
    by_cases hb : isLegacyPrefix b
    · by_cases hpre : ∀ b ∈ pre, isLegacyPrefix b
      · rw [if_pos hb, if_pos hpre, if_pos (List.forall_mem_cons.2 ⟨hb, hpre⟩)]
      · rw [if_pos hb, if_neg hpre, if_neg fun h => hpre (List.forall_mem_cons.1 h).2]
    · rw [if_neg hb, if_neg fun h => hb (List.forall_mem_cons.1 h).1]

theorem prefixRun_of_prefixes {pre : List Byte} (h : ∀ b ∈ pre, isLegacyPrefix b) : prefixRun pre = some (seen pre) := by
  rw [prefixRun_eq, if_pos h]

theorem prefixRun_eq_some {pre : List Byte} {q : Prefixes} (h : prefixRun pre = some q) :
    (∀ b ∈ pre, isLegacyPrefix b) ∧ q = seen pre := by
  rw [prefixRun_eq] at h
  split at h
  next hpre => exact ⟨hpre, (Option.some.inj h).symm⟩
  · cases h

/-- The operand-size and the address-size byte are two bytes. -/
theorem seen_length (pre : List Byte) : (seen pre).opsize.toNat + (seen pre).addrsize.toNat ≤ pre.length := by
  induction pre with
  | nil => decide
  | cons b pre ih =>
    have hb : (seen [b]).opsize.toNat + (seen [b]).addrsize.toNat ≤ 1 := by
      revert b
      decide +kernel
    have hor (c d : Bool) : (c || d).toNat ≤ c.toNat + d.toNat := by cases c <;> cases d <;> decide
    have h66 := hor (seen [b]).opsize (seen pre).opsize
    have h67 := hor (seen [b]).addrsize (seen pre).addrsize
    rw [seen_cons b pre, List.length_cons]
    simp only [Prefixes.or]
    omega

/-! ## After the prefixes -/

/-- R109 step 1, R115: fifteen prefixes or more are too many, whatever follows. -/
theorem decode_too_many_prefixes {pre : List Byte} (hpre : ∀ b ∈ pre, isLegacyPrefix b) (hl : 15 ≤ pre.length)
    (t : List Byte) :
    decode (pre ++ t) = .error .gp := by
  have htake : ∀ b ∈ pre.take 15, isLegacyPrefix b := fun b hb => hpre b (List.mem_of_mem_take hb)
  rw [← List.take_append_drop 15 pre, List.append_assoc]
  exact decode_long (prefixRun_of_prefixes htake) _ (List.length_take_of_le hl)

/-- R109 steps 1 and 2 on prefixes and a byte that is neither one of them nor a REX byte. -/
theorem decode_prefixes {pre : List Byte} (hpre : ∀ b ∈ pre, isLegacyPrefix b) {c : Byte} (hc : prefixOf c = none)
    (hrex : ¬ isRex c) (t : List Byte) :
    decode (pre ++ c :: t) =
      if pre.length < 15 then decodeBody (seen pre) none pre.length (c :: t) else .error .gp := by
  split
  next hl => rw [decode_run (prefixRun_of_prefixes hpre) hc t hl, decodeRest_other hrex]
  next hl => exact decode_too_many_prefixes hpre (Nat.le_of_not_lt hl) _

/-- R109 steps 1 and 2 on prefixes and a REX byte. -/
theorem decode_prefixes_rex {pre : List Byte} (hpre : ∀ b ∈ pre, isLegacyPrefix b) {r : Byte} (hr : isRex r)
    (t : List Byte) :
    decode (pre ++ r :: t) =
      if pre.length < 15 then decodeBody (seen pre) (some r) (pre.length + 1) t else .error .gp := by
  split
  next hl => rw [decode_run (prefixRun_of_prefixes hpre) (prefixOf_rex hr) t hl, decodeRest_rex hr]
  next hl => exact decode_too_many_prefixes hpre (Nat.le_of_not_lt hl) _

end Sys2Proof
end

section
/-! SUPPORT. The bytes that the decoder reads to the end (spec/30_encoding.md R109 steps 1 to 5): prefixes, REX byte, the
bytes up to and with the opcode, and ModRM with what follows it. What it answers for them is the judgement of steps 6 to 8. -/

namespace Sys2Proof
open Machine

/-! ## The bytes up to and with the opcode -/

/-- The fields of a legacy SSE encoding (R93, R94). -/
def legacyFields (p : Prefixes) (rex : Option Byte) (op : Byte) : Head :=
  ⟨.legacy, op == 0x7F#8, false, rexBit rex 2, rexBit rex 1, rexBit rex 0, p.lock⟩

/-- The fields of a VEX encoding; `pay` is the byte that holds `vvvv` (R95, R96). -/
def vexFields (p : Prefixes) (rex : Option Byte) (r x b : Bool) (pay op : Byte) : Head :=
  ⟨.vex (pay.getLsbD 2), op == 0x7F#8, false, r, x, b, rex.isSome || p.illegalBeforeVex || pay.extractLsb' 3 4 != 0b1111#4⟩

/-- The fields of an EVEX encoding (R97). -/
def evexFields (p : Prefixes) (rex : Option Byte) (p0 p1 p2 op : Byte) : Head :=
  ⟨.evex (if p1.getLsbD 7 then .qword else .dword) (evexVecLen (p2.extractLsb' 5 2)) ⟨p2.extractLsb' 0 3, p2.getLsbD 7⟩,
    op == 0x7F#8, !p0.getLsbD 4, !p0.getLsbD 7, !p0.getLsbD 6, !p0.getLsbD 5,
    rex.isSome || p.illegalBeforeVex || evexReserved p0 p1 p2⟩

/-- The bytes up to and with the opcode of one of the eighteen encodings, and what they say (R93 to R97, R109 step 4). -/
inductive HeadForm (p : Prefixes) (rex : Option Byte) : List Byte → Head → Prop where
  | legacy {op : Byte} (hop : isMoveOpcode op = true) (h66 : p.opsize = true) (hF2 : p.repne = false) (hF3 : p.rep = false) :
      HeadForm p rex [0x0F, op] (legacyFields p rex op)
  | vex2 {pay op : Byte} (hop : isMoveOpcode op = true) (hpp : pay.extractLsb' 0 2 = 0b01#2) :
      HeadForm p rex [0xC5, pay, op] (vexFields p rex (!pay.getLsbD 7) false false pay op)
  | vex3 {b1 pay op : Byte} (hop : isMoveOpcode op = true) (hpp : pay.extractLsb' 0 2 = 0b01#2)
      (hmap : b1.extractLsb' 0 5 = 0b00001#5) :
      HeadForm p rex [0xC4, b1, pay, op] (vexFields p rex (!b1.getLsbD 7) (!b1.getLsbD 6) (!b1.getLsbD 5) pay op)
  | evex {p0 p1 p2 op : Byte} (hop : isMoveOpcode op = true) (hmap : p0.extractLsb' 0 2 = 0b01#2)
      (hpp : p1.extractLsb' 0 2 = 0b01#2) :
      HeadForm p rex [0x62, p0, p1, p2, op] (evexFields p rex p0 p1 p2 op)

theorem isMoveOpcode_iff (op : Byte) : isMoveOpcode op = true ↔ op = 0x6F ∨ op = 0x7F := by
  simp [isMoveOpcode]

theorem vexHead_eq_ok {p : Prefixes} {rex : Option Byte} {r x b : Bool} {map : BitVec 5} {pay op : Byte} {h : Head} :
    vexHead p rex r x b map pay op = .ok h ↔
      map = 0b00001#5 ∧ pay.extractLsb' 0 2 = 0b01#2 ∧ isMoveOpcode op = true ∧ h = vexFields p rex r x b pay op := by
  unfold vexHead
  split
  next hbad =>
    simp only [Bool.or_eq_true, bne_iff_ne, Bool.not_eq_true'] at hbad
    simp only [reduceCtorEq, false_iff]
    rintro ⟨hmap, hpp, hop, -⟩
    simp [hmap, hpp, hop] at hbad
  next hgood =>
    simp only [Bool.or_eq_true, bne_iff_ne, Bool.not_eq_true', not_or, not_not, Bool.not_eq_false] at hgood
    obtain ⟨⟨hmap, hpp⟩, hop⟩ := hgood
    simp only [Except.ok.injEq, hmap, hpp, hop, true_and]
    exact eq_comm

/-- R109 step 4 on the bytes of a head. -/
theorem HeadForm.decodeHead {p : Prefixes} {rex : Option Byte} {c : List Byte} {h : Head} (hf : HeadForm p rex c h)
    (tl : List Byte) : decodeHead p rex (c ++ tl) = .ok (h, c.length, tl) := by
  have hvex {r x b map pay op} (hmap : map = 0b00001#5) (hpp : pay.extractLsb' 0 2 = 0b01#2) (hop : isMoveOpcode op = true) :
      vexHead p rex r x b map pay op = .ok (vexFields p rex r x b pay op) := vexHead_eq_ok.2 ⟨hmap, hpp, hop, rfl⟩
  cases hf with
  | legacy hop h66 hF2 hF3 => simp [Sys2Proof.decodeHead, legacyHead, legacyFields, hop, h66, hF2, hF3]
  | vex2 hop hpp => simp [Sys2Proof.decodeHead, vex2Head, hvex rfl hpp hop, bind, Except.bind]
  | vex3 hop hpp hmap => simp [Sys2Proof.decodeHead, vex3Head, hvex hmap hpp hop, bind, Except.bind]
  | evex hop hmap hpp => simp [Sys2Proof.decodeHead, evexHead, evexFields, hop, hmap, hpp]

/-- What step 4 accepts is the head of one of the eighteen encodings. -/
theorem headForm_of_decodeHead {p : Prefixes} {rex : Option Byte} {bs : List Byte} {h : Head} {n : Nat} {tl : List Byte}
    (e : decodeHead p rex bs = .ok (h, n, tl)) : ∃ c, bs = c ++ tl ∧ c.length = n ∧ HeadForm p rex c h := by
  have hvex {r x b map pay op} {m : Nat} {t : List Byte}
      (e : (vexHead p rex r x b map pay op >>= fun h => (Except.ok (h, m, t) : Except Reject _)) = .ok (h, n, tl)) :
      vexHead p rex r x b map pay op = .ok h ∧ m = n ∧ t = tl := by
    cases hv : vexHead p rex r x b map pay op with
    | error r => rw [hv] at e; cases e
    | ok h' => rw [hv] at e; cases e; exact ⟨rfl, rfl, rfl⟩
  cases bs with
  | nil => cases e
  | cons a bs =>
    simp only [Sys2Proof.decodeHead] at e
    split_ifs at e with h0F hC5 hC4 h62
    · subst h0F
      match bs with
      | [] => cases e
      | op :: t =>
        simp only [legacyHead] at e
        split_ifs at e with hop hmand
        cases e
        simp only [Bool.or_eq_true, Bool.not_eq_true', not_or, Bool.not_eq_true, Bool.not_eq_false] at hmand hop
        exact ⟨[0x0F, op], rfl, rfl, .legacy hop hmand.2 hmand.1.1 hmand.1.2⟩
    · subst hC5
      match bs with
      | [] | [_] => cases e
      | pay :: op :: t =>
        obtain ⟨hv, rfl, rfl⟩ := hvex e
        obtain ⟨-, hpp, hop, rfl⟩ := vexHead_eq_ok.1 hv
        exact ⟨[0xC5, pay, op], rfl, rfl, .vex2 hop hpp⟩
    · subst hC4
      match bs with
      | [] | [_] | [_, _] => cases e
      | b1 :: pay :: op :: t =>
        obtain ⟨hv, rfl, rfl⟩ := hvex e
        obtain ⟨hmap, hpp, hop, rfl⟩ := vexHead_eq_ok.1 hv
        exact ⟨[0xC4, b1, pay, op], rfl, rfl, .vex3 hop hpp hmap⟩
    · subst h62
      match bs with
      | [] | [_] | [_, _] | [_, _, _] => cases e
      | p0 :: p1 :: p2 :: op :: t =>
        simp only [evexHead] at e
        split at e
        next => cases e
        next hbad =>
          cases e
          simp only [Bool.or_eq_true, bne_iff_ne, Bool.not_eq_true', not_or, not_not, Bool.not_eq_false] at hbad
          exact ⟨[0x62, p0, p1, p2, op], rfl, rfl, .evex hbad.2 hbad.1.1 hbad.1.2⟩

/-- A head begins with a byte that is none of the legacy prefixes and no REX byte. -/
theorem HeadForm.first {p : Prefixes} {rex : Option Byte} {c : List Byte} {h : Head} (hf : HeadForm p rex c h) :
    ∃ a t, c = a :: t ∧ a ∈ [(0x0F : Byte), 0xC5, 0xC4, 0x62] ∧ prefixOf a = none ∧ ¬ isRex a := by
  cases hf <;> exact ⟨_, _, rfl, by decide⟩

/-- A legacy SSE head rests on the mandatory `66` and the REX byte; a VEX or EVEX head is there whatever stands before it. Only
the flag `bad` differs: it is set by `F0`, and in a VEX or EVEX head by every byte that R108 forbids before it. -/
theorem HeadForm.recast {p p' : Prefixes} {rex rex' : Option Byte} {c : List Byte} {h : Head} (hf : HeadForm p rex c h)
    (hlegacy : h.kind = .legacy → p'.opsize = true ∧ p'.repne = false ∧ p'.rep = false ∧ rex' = rex) :
    ∃ bad, HeadForm p' rex' c { h with bad } ∧ (p'.lock = true → bad = true)
      ∧ (h.kind ≠ .legacy → rex'.isSome = true ∨ p'.illegalBeforeVex = true → bad = true) := by
  have hlock (own : Bool) (hl : p'.lock = true) : (rex'.isSome || p'.illegalBeforeVex || own) = true := by
    simp [Prefixes.illegalBeforeVex, hl]
  have hbefore (own : Bool) (h : rex'.isSome = true ∨ p'.illegalBeforeVex = true) :
      (rex'.isSome || p'.illegalBeforeVex || own) = true := by
    rcases h with h | h <;> simp [h]
  cases hf with
  | legacy hop =>
    obtain ⟨h66, hF2, hF3, rfl⟩ := hlegacy rfl
    exact ⟨_, .legacy hop h66 hF2 hF3, id, fun hk => absurd rfl hk⟩
  | vex2 hop hpp => exact ⟨_, .vex2 hop hpp, hlock _, fun _ => hbefore _⟩
  | vex3 hop hpp hmap => exact ⟨_, .vex3 hop hpp hmap, hlock _, fun _ => hbefore _⟩
  | evex hop hmap hpp => exact ⟨_, .evex hop hmap hpp, hlock _, fun _ => hbefore _⟩

/-! ## ModRM and what follows it -/

/-- The bytes of ModRM, SIB and displacement, and what they say (R98, R99, R109 step 5). -/
structure OperandForm (x b : Bool) (d : List Byte) (reg : BitVec 3) (rm : RmOperand) : Prop where
  ok : rm.ok x b
  length : d.length = rm.size
  decodeModRm : ∀ tl, decodeModRm x b (d ++ tl) = .ok (reg, rm)

theorem operandForm_of_decodeModRm {x b : Bool} {bs : List Byte} {reg : BitVec 3} {rm : RmOperand}
    (e : decodeModRm x b bs = .ok (reg, rm)) : ∃ d tl, bs = d ++ tl ∧ OperandForm x b d reg rm := by
  obtain ⟨hok, d, tl, hbs, hlen, hd⟩ := decodeModRm_ok e
  exact ⟨d, tl, hbs, hok, hlen, hd⟩

/-! ## The whole -/

/-- The part of R109 after the prefixes and the REX byte, read to the end. -/
structure Body (p : Prefixes) (rex : Option Byte) where
  code : List Byte
  head : Head
  tail : List Byte
  reg : BitVec 3
  rm : RmOperand
  headForm : HeadForm p rex code head
  operandForm : OperandForm head.x head.b tail reg rm

variable {p : Prefixes} {rex : Option Byte}

/-- Its length when `k` bytes stand before it (R115). -/
def Body.len (B : Body p rex) (k : Nat) : Nat := k + B.code.length + B.rm.size

/-- What R109 steps 6 to 8 answer. -/
def Body.judge (B : Body p rex) (k : Nat) : Except Reject Instr :=
  Sys2Proof.judge B.head p.addrsize B.reg B.rm (B.len k)

/-- The instruction, if nothing is wrong with it (R109 step 8). -/
def Body.instr (B : Body p rex) (k : Nat) : Instr := assemble B.head p.addrsize B.reg B.rm (B.len k)

/-- A field that is illegal (R103, R104, R108). -/
def Body.bad (B : Body p rex) : Bool := B.head.bad || zeroingStore B.head B.rm

theorem Body.judge_eq (B : Body p rex) (k : Nat) :
    B.judge k = if 15 < B.len k then .error .gp else if B.bad then .error .ud else .ok (B.instr k) := rfl

theorem Body.judge_eq_ok {B : Body p rex} {k : Nat} {i : Instr} :
    B.judge k = .ok i ↔ B.len k ≤ 15 ∧ B.bad = false ∧ i = B.instr k := by
  rw [B.judge_eq]
  split_ifs with hlen hbad
  · simp only [false_iff]; omega
  · simp [hbad]
  · simp only [Except.ok.injEq, Nat.le_of_not_lt hlen, hbad, true_and, eq_comm]

theorem Body.instr_len (B : Body p rex) (k : Nat) : (B.instr k).len = B.len k := assemble_len ..

theorem Body.decodeBody (B : Body p rex) (hseg : p.segment = false) (k : Nat) (rest : List Byte) :
    decodeBody p rex k (B.code ++ (B.tail ++ rest)) = B.judge k := by
  simp only [Sys2Proof.decodeBody, hseg, B.headForm.decodeHead, B.operandForm.decodeModRm, bind, Except.bind]
  rfl

/-- What the decoder answers after the prefixes: an instruction, `#UD` and `#GP` for bytes that it reads to the end. -/
theorem decodeBody_answers (p : Prefixes) (rex : Option Byte) (k : Nat) (bs : List Byte) :
    decodeBody p rex k bs = .error .truncated ∨ (∃ why, decodeBody p rex k bs = .error (.notInScope why))
    ∨ p.segment = false ∧ ∃ (B : Body p rex) (rest : List Byte), bs = B.code ++ (B.tail ++ rest)
      ∧ decodeBody p rex k bs = B.judge k := by
  cases hseg : p.segment with
  | true => exact .inr (.inl ⟨.segmentOverride, by simp [Sys2Proof.decodeBody, hseg]⟩)
  | false =>
    cases hh : decodeHead p rex bs with
    | error r =>
      have hbody : Sys2Proof.decodeBody p rex k bs = .error r := by simp [Sys2Proof.decodeBody, hseg, hh, bind, Except.bind]
      rcases decodeHead_error hh with rfl | ⟨⟨why, rfl⟩, -⟩
      · exact .inl hbody
      · exact .inr (.inl ⟨why, hbody⟩)
    | ok q =>
      obtain ⟨h, n, tl⟩ := q
      obtain ⟨c, rfl, hc, hform⟩ := headForm_of_decodeHead hh
      cases hm : decodeModRm h.x h.b tl with
      | error r =>
        obtain rfl := decodeModRm_error hm
        exact .inl (by simp [Sys2Proof.decodeBody, hseg, hh, hm, bind, Except.bind])
      | ok q =>
        obtain ⟨reg, rm⟩ := q
        obtain ⟨d, rest, rfl, hd⟩ := operandForm_of_decodeModRm hm
        let B : Body p rex := ⟨c, h, d, reg, rm, hform, hd⟩
        exact .inr (.inr ⟨rfl, B, rest, rfl, B.decodeBody hseg k rest⟩)

/-- An instruction is answered for bytes that are read to the end, not too long and without an illegal field. -/
theorem decodeBody_eq_ok {k : Nat} {bs : List Byte} {i : Instr} (e : Sys2Proof.decodeBody p rex k bs = .ok i) :
    p.segment = false ∧ ∃ (B : Body p rex) (rest : List Byte), bs = B.code ++ (B.tail ++ rest) ∧ B.len k ≤ 15
      ∧ B.bad = false ∧ i = B.instr k := by
  rcases decodeBody_answers p rex k bs with h | ⟨_, h⟩ | ⟨hseg, B, rest, hbs, h⟩ <;> rw [h] at e
  · cases e
  · cases e
  · exact ⟨hseg, B, rest, hbs, Body.judge_eq_ok.1 e⟩

/-- R109 steps 1 and 2 before a byte that begins a head. -/
theorem decode_lead {pre : List Byte} {rex : Option Byte} (hpre : ∀ b ∈ pre, isLegacyPrefix b)
    (hrex : ∀ r, rex = some r → isRex r) {a : Byte} (ha : prefixOf a = none ∧ ¬ isRex a) (t : List Byte) :
    decode (pre ++ (rex.toList ++ a :: t)) =
      if pre.length < 15 then decodeBody (seen pre) rex (pre.length + rex.isSome.toNat) (a :: t) else .error .gp := by
  cases rex with
  | none => exact decode_prefixes hpre ha.1 ha.2 t
  | some r => exact decode_prefixes_rex hpre (hrex r rfl) (a :: t)

/-- Bytes that the decoder reads to the end. -/
structure Parse where
  pre : List Byte
  rex : Option Byte
  body : Body (seen pre) rex
  prefixes : ∀ b ∈ pre, isLegacyPrefix b
  length_lt : pre.length < 15
  noSegment : (seen pre).segment = false
  isRex : ∀ r, rex = some r → isRex r

/-- The bytes themselves. -/
def Parse.bytes (P : Parse) : List Byte := P.pre ++ (P.rex.toList ++ (P.body.code ++ P.body.tail))

/-- How many bytes stand before the body. -/
def Parse.before (P : Parse) : Nat := P.pre.length + P.rex.isSome.toNat

theorem Parse.length_bytes (P : Parse) : P.bytes.length = P.body.len P.before := by
  have hrex : P.rex.toList.length = P.rex.isSome.toNat := by cases P.rex <;> rfl
  simp only [Parse.bytes, Body.len, Parse.before, List.length_append, P.body.operandForm.length, hrex]
  omega

theorem Parse.decode (P : Parse) (rest : List Byte) : decode (P.bytes ++ rest) = P.body.judge P.before := by
  obtain ⟨pre, rex, B, hpre, hlt, hseg, hrex⟩ := P
  obtain ⟨a, t, hat, -, ha⟩ := B.headForm.first
  have hbody := B.decodeBody hseg (pre.length + rex.isSome.toNat) rest
  simp only [Parse.bytes, Parse.before, List.append_assoc]
  rw [hat, List.cons_append] at hbody ⊢
  rw [decode_lead hpre hrex ha, if_pos hlt, hbody]

/-- What the decoder answers: `#GP` for fifteen prefixes, and else an instruction, `#UD` and `#GP` only for bytes that it reads
to the end. -/
theorem decode_answers (bs : List Byte) :
    Sys2Proof.decode bs = .error .truncated ∨ (∃ why, Sys2Proof.decode bs = .error (.notInScope why))
    ∨ (∃ pre rest, bs = pre ++ rest ∧ (∀ b ∈ pre, isLegacyPrefix b) ∧ pre.length = 15
      ∧ Sys2Proof.decode bs = .error .gp)
    ∨ ∃ (P : Parse) (rest : List Byte), bs = P.bytes ++ rest := by
  rcases prefixRun_cases bs with ⟨pre, q, c, t, rfl, hq, hc, hl⟩ | ⟨pre, q, t, rfl, hq, hl⟩ | ⟨q, hq, hl⟩
  · obtain ⟨hpre, rfl⟩ := prefixRun_eq_some hq
    by_cases hr : Sys2Proof.isRex c
    · rw [decode_prefixes_rex hpre hr, if_pos hl]
      rcases decodeBody_answers (seen pre) (some c) (pre.length + 1) t with h | h | ⟨hseg, B, rest, rfl, -⟩
      · exact .inl h
      · exact .inr (.inl h)
      · let P : Parse := ⟨pre, some c, B, hpre, hl, hseg, fun _ h => Option.some.inj h ▸ hr⟩
        exact .inr (.inr (.inr ⟨P, rest, by simp [P, Parse.bytes]⟩))
    · rw [decode_prefixes hpre hc hr, if_pos hl]
      rcases decodeBody_answers (seen pre) none pre.length (c :: t) with h | h | ⟨hseg, B, rest, hct, -⟩
      · exact .inl h
      · exact .inr (.inl h)
      · let P : Parse := ⟨pre, none, B, hpre, hl, hseg, nofun⟩
        exact .inr (.inr (.inr ⟨P, rest, by simp [P, Parse.bytes, hct]⟩))
  · exact .inr (.inr (.inl ⟨pre, t, rfl, (prefixRun_eq_some hq).1, hl, decode_long hq t hl⟩))
  · exact .inl (decode_end hq hl)

/-- An instruction is answered for bytes that are read to the end, not too long and without an illegal field. -/
theorem decode_eq_ok {bs : List Byte} {i : Instr} (e : Sys2Proof.decode bs = .ok i) :
    ∃ (P : Parse) (rest : List Byte), bs = P.bytes ++ rest ∧ P.body.len P.before ≤ 15 ∧ P.body.bad = false
      ∧ i = P.body.instr P.before := by
  rcases decode_answers bs with h | ⟨_, h⟩ | ⟨_, _, _, _, _, h⟩ | ⟨P, rest, rfl⟩
  · rw [h] at e; cases e
  · rw [h] at e; cases e
  · rw [h] at e; cases e
  · rw [P.decode] at e
    exact ⟨P, rest, rfl, Body.judge_eq_ok.1 e⟩

end Sys2Proof
end

section
/-! SUPPORT. The encoder (spec/30_encoding.md R93 to R101, R115): the six forms of an instruction, by encoding family and by the
operand in `ModRM:r/m`, and for each the bytes that encode it, as bytes that the decoder reads to the end. -/

namespace Sys2Proof
open Machine

/-! ## The six forms -/

/-- R91, R110: every row of the opcode table is a register form or a memory form of one of the three families. -/
theorem Instr.form_cases {motive : Instr → Prop}
    (legacyCopy : ∀ op reg rm len, motive (legacyInstr op reg rm none len))
    (legacyMem : ∀ op reg m len, motive (legacyInstr op reg 0 (some m) len))
    (vexCopy : ∀ l256 op reg rm len, motive (vexInstr l256 op reg rm none len))
    (vexMem : ∀ l256 op reg m len, motive (vexInstr l256 op reg 0 (some m) len))
    (evexCopy : ∀ es vl op mask reg rm len, motive (evexInstr es vl op mask reg rm none len))
    (evexMem : ∀ es vl op mask reg m len, (mask.z && op) = false → motive (evexInstr es vl op mask reg 0 (some m) len))
    (i : Instr) : motive i := by
  cases i
  case movdqaXmmCopyRm => exact legacyCopy false _ _ _
  case movdqaXmmCopyMr => exact legacyCopy true _ _ _
  case movdqaXmmLoad => exact legacyMem false _ _ _
  case movdqaXmmStore => exact legacyMem true _ _ _
  case vmovdqaXmmCopyRm => exact vexCopy false false _ _ _
  case vmovdqaXmmCopyMr => exact vexCopy false true _ _ _
  case vmovdqaXmmLoad => exact vexMem false false _ _ _
  case vmovdqaXmmStore => exact vexMem false true _ _ _
  case vmovdqaYmmCopyRm => exact vexCopy true false _ _ _
  case vmovdqaYmmCopyMr => exact vexCopy true true _ _ _
  case vmovdqaYmmLoad => exact vexMem true false _ _ _
  case vmovdqaYmmStore => exact vexMem true true _ _ _
  case vmovdqa32XmmCopyRm => exact evexCopy .dword .l128 false _ _ _ _
  case vmovdqa32XmmCopyMr => exact evexCopy .dword .l128 true _ _ _ _
  case vmovdqa32XmmLoad => exact evexMem .dword .l128 false _ _ _ _ (Bool.and_false _)
  case vmovdqa32XmmStore => exact evexMem .dword .l128 true ⟨_, false⟩ _ _ _ rfl
  case vmovdqa32YmmCopyRm => exact evexCopy .dword .l256 false _ _ _ _
  case vmovdqa32YmmCopyMr => exact evexCopy .dword .l256 true _ _ _ _
  case vmovdqa32YmmLoad => exact evexMem .dword .l256 false _ _ _ _ (Bool.and_false _)
  case vmovdqa32YmmStore => exact evexMem .dword .l256 true ⟨_, false⟩ _ _ _ rfl
  case vmovdqa32ZmmCopyRm => exact evexCopy .dword .l512 false _ _ _ _
  case vmovdqa32ZmmCopyMr => exact evexCopy .dword .l512 true _ _ _ _
  case vmovdqa32ZmmLoad => exact evexMem .dword .l512 false _ _ _ _ (Bool.and_false _)
  case vmovdqa32ZmmStore => exact evexMem .dword .l512 true ⟨_, false⟩ _ _ _ rfl
  case vmovdqa64XmmCopyRm => exact evexCopy .qword .l128 false _ _ _ _
  case vmovdqa64XmmCopyMr => exact evexCopy .qword .l128 true _ _ _ _
  case vmovdqa64XmmLoad => exact evexMem .qword .l128 false _ _ _ _ (Bool.and_false _)
  case vmovdqa64XmmStore => exact evexMem .qword .l128 true ⟨_, false⟩ _ _ _ rfl
  case vmovdqa64YmmCopyRm => exact evexCopy .qword .l256 false _ _ _ _
  case vmovdqa64YmmCopyMr => exact evexCopy .qword .l256 true _ _ _ _
  case vmovdqa64YmmLoad => exact evexMem .qword .l256 false _ _ _ _ (Bool.and_false _)
  case vmovdqa64YmmStore => exact evexMem .qword .l256 true ⟨_, false⟩ _ _ _ rfl
  case vmovdqa64ZmmCopyRm => exact evexCopy .qword .l512 false _ _ _ _
  case vmovdqa64ZmmCopyMr => exact evexCopy .qword .l512 true _ _ _ _
  case vmovdqa64ZmmLoad => exact evexMem .qword .l512 false _ _ _ _ (Bool.and_false _)
  case vmovdqa64ZmmStore => exact evexMem .qword .l512 true ⟨_, false⟩ _ _ _ rfl

/-! ### How they are put together -/

section
variable (op l256 rHi r x b bad addr32 : Bool) (es : ElemSize) (vl : VecLen) (mask : Masking) (reg rm : BitVec 3) (f : AddrForm)
  (len : Nat)

theorem assemble_legacyReg : assemble ⟨.legacy, op, rHi, r, x, b, bad⟩ addr32 reg (.reg rm) len =
    legacyInstr op (num4 r reg) (num4 b rm) none len := rfl

theorem assemble_legacyMem : assemble ⟨.legacy, op, rHi, r, x, b, bad⟩ addr32 reg (.mem f) len =
    legacyInstr op (num4 r reg) 0 (some ⟨addr32, f⟩) len := by
  cases op <;> rfl

theorem assemble_vexReg : assemble ⟨.vex l256, op, rHi, r, x, b, bad⟩ addr32 reg (.reg rm) len =
    vexInstr l256 op (num4 r reg) (num4 b rm) none len := rfl

theorem assemble_vexMem : assemble ⟨.vex l256, op, rHi, r, x, b, bad⟩ addr32 reg (.mem f) len =
    vexInstr l256 op (num4 r reg) 0 (some ⟨addr32, f⟩) len := by
  cases l256 <;> cases op <;> rfl

theorem assemble_evexReg : assemble ⟨.evex es vl mask, op, rHi, r, x, b, bad⟩ addr32 reg (.reg rm) len =
    evexInstr es vl op mask (num5 rHi r reg) (num5 x b rm) none len := rfl

theorem assemble_evexMem : assemble ⟨.evex es vl mask, op, rHi, r, x, b, bad⟩ addr32 reg (.mem f) len =
    evexInstr es vl op mask (num5 rHi r reg) 0 (some ⟨addr32, f⟩) len := by
  cases es <;> cases vl <;> cases op <;> rfl

end

/-! ### What is well-formed -/

/-- The length of a VEX memory form says which of the two heads it has, and whether `67` bytes stand before it. -/
theorem vexMemLenOk_iff {m : MemOperand} {len : Nat} :
    vexMemLenOk m len = true ↔
      let long := m.form.xBit || m.form.bBit || (!m.addr32 && len == 4 + m.form.tailSize)
      3 + long.toNat + m.form.tailSize ≤ len ∧ len ≤ 15 ∧ decide (3 + long.toNat + m.form.tailSize < len) = m.addr32 := by
  obtain ⟨addr32, form⟩ := m
  have htail := Laws.LengthBounds.tailSize_le form
  simp only [vexMemLenOk]
  generalize (form.xBit || form.bBit) = need3
  cases addr32 with
  | true =>
    simp only [if_true, decide_eq_true_eq, Bool.not_true, Bool.false_and, Bool.or_false]
    omega
  | false =>
    simp only [Bool.false_eq_true, if_false, Bool.not_false, Bool.true_and, Bool.or_eq_true, Bool.and_eq_true, Bool.not_eq_true',
      beq_iff_eq, decide_eq_false_iff_not]
    cases need3 with
    | true => simp; omega
    | false =>
      by_cases h4 : len = 4 + form.tailSize
      · simp [h4]; omega
      · have hne : (len == 4 + form.tailSize) = false := by simpa using h4
        simp [h4, hne]; omega

/-- The length of an EVEX memory form says whether `67` bytes stand before it. -/
theorem evexMemLenOk_iff {m : MemOperand} {len : Nat} :
    evexMemLenOk m len = true ↔
      5 + m.form.tailSize ≤ len ∧ len ≤ 15 ∧ decide (5 + m.form.tailSize < len) = m.addr32 := by
  obtain ⟨addr32, form⟩ := m
  have htail := Laws.LengthBounds.tailSize_le form
  cases addr32 <;> simp [evexMemLenOk] <;> omega

section
variable (op l256 : Bool) (es : ElemSize) (vl : VecLen) (mask : Masking) (r16 s16 : VReg16) (r32 s32 : VReg32) (m : MemOperand)
  (len : Nat)

theorem wf_legacyCopy : (legacyInstr op r16 s16 none len).wf = legacyCopyLenOk r16 s16 len := by
  cases op
  · rfl
  · simp only [legacyInstr, Instr.wf, legacyCopyLenOk, Bool.or_comm]

theorem wf_legacyMem : (legacyInstr op r16 s16 (some m) len).wf = (m.form.wf && legacyMemLenOk r16 m len) := by
  cases op <;> rfl

theorem wf_vexCopy : (vexInstr l256 op r16 s16 none len).wf = vexCopyLenOk s16 len := by
  cases l256 <;> cases op <;> rfl

theorem wf_vexMem : (vexInstr l256 op r16 s16 (some m) len).wf = (m.form.wf && vexMemLenOk m len) := by
  cases l256 <;> cases op <;> rfl

theorem wf_evexCopy : (evexInstr es vl op mask r32 s32 none len).wf = (mask.wf && evexCopyLenOk len) := by
  cases es <;> cases vl <;> cases op <;> rfl

/-- A store only merges, so that its masking is always well-formed (R104). -/
theorem wf_evexMem (hz : (mask.z && op) = false) :
    (evexInstr es vl op mask r32 s32 (some m) len).wf = (mask.wf && m.form.wf && evexMemLenOk m len) := by
  cases op
  · cases es <;> cases vl <;> rfl
  · have hmask : mask.wf = true := by simp_all [Masking.wf]
    rw [hmask]
    cases es <;> cases vl <;> rfl

/-! ### How they are encoded -/

theorem encode_legacyCopy : encode (legacyInstr op r16 s16 none len) = encodeLegacyCopy op r16 s16 len := by
  cases op <;> rfl

theorem encode_legacyMem : encode (legacyInstr op r16 s16 (some m) len) = encodeLegacyMem op r16 m len := by
  cases op <;> rfl

theorem encode_vexCopy : encode (vexInstr l256 op r16 s16 none len) = encodeVexCopy l256 op r16 s16 len := by
  cases l256 <;> cases op <;> rfl

theorem encode_vexMem : encode (vexInstr l256 op r16 s16 (some m) len) = encodeVexMem l256 op r16 m len := by
  cases l256 <;> cases op <;> rfl

theorem encode_evexCopy : encode (evexInstr es vl op mask r32 s32 none len) = encodeEvexCopy es vl op mask r32 s32 len := by
  cases es <;> cases vl <;> cases op <;> rfl

theorem encode_evexMem (hz : (mask.z && op) = false) :
    encode (evexInstr es vl op mask r32 s32 (some m) len) = encodeEvexMem es vl op mask r32 m len := by
  cases op
  · cases es <;> cases vl <;> rfl
  · obtain ⟨aaa, z⟩ := mask
    obtain rfl : z = false := by simpa using hz
    cases es <;> cases vl <;> rfl

end

/-! ## The fields of the bytes that the encoder makes -/

theorem packByte_fields (hi : BitVec 2) (mid lo : BitVec 3) :
    (packByte hi mid lo).extractLsb' 6 2 = hi ∧ (packByte hi mid lo).extractLsb' 3 3 = mid
      ∧ (packByte hi mid lo).extractLsb' 0 3 = lo := by
  revert hi mid lo
  decide +kernel

theorem num4_low3 (r : BitVec 4) : num4 (r.getLsbD 3) (low3 r) = r := by
  revert r
  decide

theorem num5_low3 (r : BitVec 5) : num5 (r.getLsbD 4) (r.getLsbD 3) (low3 r) = r := by
  revert r
  decide

theorem takeDisp32_disp32Bytes (d : BitVec 32) (tl : List Byte) : takeDisp32 (disp32Bytes d ++ tl) = .ok d := by
  simp only [disp32Bytes, List.cons_append, takeDisp32, Except.ok.injEq]
  apply BitVec.eq_of_getLsbD_eq
  intro i hi
  simp only [BitVec.getLsbD_append, BitVec.getLsbD_extractLsb']
  grind

theorem takeDisp_bytes (d : Disp) (tl : List Byte) : takeDisp d.modField (d.bytes ++ tl) = .ok d := by
  cases d with
  | none => rfl
  | disp8 b => rfl
  | disp32 d =>
    have h := takeDisp32_disp32Bytes d tl
    simp [takeDisp, Disp.modField, Disp.bytes, h, bind, Except.bind]

theorem modField_ne (d : Disp) : d.modField ≠ 0b11#2 := by
  cases d <;> simp [Disp.modField]

theorem modField_eq_zero (d : Disp) : d.modField = 0b00#2 ↔ d = .none := by
  cases d <;> simp [Disp.modField]

/-- R99: the bytes of a memory form say the form. -/
theorem decodeModRm_formBytes {f : AddrForm} (hf : f.wf = true) (reg : BitVec 3) (tl : List Byte) :
    decodeModRm f.xBit f.bBit (f.bytes reg ++ tl) = .ok (reg, .mem f) := by
  cases f with
  | base b d =>
    simp only [AddrForm.wf, Bool.and_eq_true, Bool.or_eq_true, bne_iff_ne] at hf
    obtain ⟨h4, h5⟩ := hf
    obtain ⟨hmod, hreg, hrm⟩ := packByte_fields d.modField reg (low3 b)
    have hrip : ¬ (low3 b = 0b101#3 ∧ d.modField = 0b00#2) := fun ⟨hb, hd⟩ =>
      h5.elim (fun h => h ((modField_eq_zero d).1 hd)) (fun h => h hb)
    simp only [AddrForm.bytes, List.cons_append, decodeModRm, decodeAddr, hmod, hreg, hrm, if_neg (modField_ne d), if_neg h4,
      if_neg hrip, takeDisp_bytes, AddrForm.bBit, bind, Except.bind, num4_low3]
  | sib b i s d =>
    simp only [AddrForm.wf, Bool.or_eq_true, bne_iff_ne] at hf
    obtain ⟨hmod, hreg, hrm⟩ := packByte_fields d.modField reg 0b100#3
    obtain ⟨hscale, hindex, hbase⟩ := packByte_fields s (low3 i) (low3 b)
    have hnoBase : ¬ (low3 b = 0b101#3 ∧ d.modField = 0b00#2) := fun ⟨hb, hd⟩ =>
      hf.elim (fun h => h ((modField_eq_zero d).1 hd)) (fun h => h hb)
    simp only [AddrForm.bytes, List.cons_append, decodeModRm, decodeAddr, hmod, hreg, hrm, hscale, hindex, hbase,
      if_neg (modField_ne d), if_true, if_neg hnoBase, takeDisp_bytes, AddrForm.bBit, AddrForm.xBit, bind, Except.bind, num4_low3]
  | sibNoBase i s d =>
    obtain ⟨hmod, hreg, hrm⟩ := packByte_fields 0b00#2 reg 0b100#3
    obtain ⟨hscale, hindex, hbase⟩ := packByte_fields s (low3 i) 0b101#3
    have hne : ¬ (0b00#2 : BitVec 2) = 0b11#2 := by decide
    simp only [AddrForm.bytes, List.cons_append, decodeModRm, decodeAddr, hmod, hreg, hrm, hscale, hindex, hbase, if_neg hne,
      if_true, and_self, takeDisp32_disp32Bytes, AddrForm.xBit, bind, Except.bind, num4_low3]
  | ripRel d =>
    obtain ⟨hmod, hreg, hrm⟩ := packByte_fields 0b00#2 reg 0b101#3
    simp [AddrForm.bytes, decodeModRm, decodeAddr, hmod, hreg, hrm, takeDisp32_disp32Bytes, bind, Except.bind]

theorem length_dispBytes (d : Disp) : d.bytes.length = d.size := by
  cases d <;> rfl

theorem operandForm_mem {f : AddrForm} (hf : f.wf = true) (reg : BitVec 3) :
    OperandForm f.xBit f.bBit (f.bytes reg) reg (.mem f) where
  ok := ⟨hf, id, id⟩
  length := by
    cases f <;> simp [AddrForm.bytes, RmOperand.size, AddrForm.tailSize, length_dispBytes, disp32Bytes] <;> omega
  decodeModRm := decodeModRm_formBytes hf reg

theorem operandForm_reg (x b : Bool) (reg rm : BitVec 3) : OperandForm x b (regFormBytes reg rm) reg (.reg rm) where
  ok := trivial
  length := rfl
  decodeModRm tl := by
    obtain ⟨hmod, hreg, hrm⟩ := packByte_fields 0b11#2 reg rm
    simp [regFormBytes, decodeModRm, hmod, hreg, hrm]

end Sys2Proof
end

section
/-! SUPPORT. Decoding what was encoded (spec/30_encoding.md R93 to R101, R107, R110, R115). -/

namespace Sys2Proof
open Machine

/-! ## Bytes that encode an instruction -/

/-- The decoder reads the bytes to the end, all of them, and answers the instruction. -/
def Encodes (bs : List Byte) (i : Instr) : Prop := ∃ P : Parse, bs = P.bytes ∧ P.body.judge P.before = .ok i

theorem Encodes.decode {bs : List Byte} {i : Instr} (h : Encodes bs i) (rest : List Byte) : decode (bs ++ rest) = .ok i := by
  obtain ⟨P, rfl, hi⟩ := h
  rw [P.decode, hi]

theorem Encodes.length {bs : List Byte} {i : Instr} (h : Encodes bs i) : bs.length = i.len := by
  obtain ⟨P, rfl, hi⟩ := h
  obtain ⟨-, -, rfl⟩ := Body.judge_eq_ok.1 hi
  rw [P.length_bytes, Body.instr_len]

/-- Prefix bytes, REX byte, head and operand with nothing illegal encode the instruction that is put together from them. -/
theorem encodes_of_forms {pre : List Byte} {rex : Option Byte} {c d : List Byte} {h : Head} {reg : BitVec 3} {rm : RmOperand}
    {len : Nat} {i : Instr} (hpre : ∀ b ∈ pre, isLegacyPrefix b) (hseg : (seen pre).segment = false)
    (hrex : ∀ r, rex = some r → isRex r) (hc : HeadForm (seen pre) rex c h) (hd : OperandForm h.x h.b d reg rm)
    (hbad : h.bad = false) (hz : zeroingStore h rm = false) (hlen : pre.length + rex.isSome.toNat + c.length + rm.size = len)
    (h15 : len ≤ 15) (hi : assemble h (seen pre).addrsize reg rm len = i) :
    Encodes (pre ++ (rex.toList ++ (c ++ d))) i := by
  have hpos : 0 < c.length := by
    obtain ⟨a, t, rfl, -⟩ := hc.first
    exact Nat.succ_pos _
  let P : Parse := ⟨pre, rex, ⟨c, h, d, reg, rm, hc, hd⟩, hpre, by omega, hseg, hrex⟩
  have hP : P.body.len P.before = len := hlen
  refine ⟨P, rfl, Body.judge_eq_ok.2 ⟨by omega, ?_, ?_⟩⟩
  · simp only [Body.bad, P, hbad, hz, Bool.or_self]
  · rw [Body.instr, hP]
    exact hi.symm

theorem opcodeByte_move (op : Bool) : isMoveOpcode (opcodeByte op) = true ∧ (opcodeByte op == 0x7F#8) = op := by
  cases op <;> decide

/-! ## Legacy SSE -/

/-- The REX byte that `encodeLegacy` puts where a register number needs it. -/
def rexFor (r x b : Bool) : Option Byte := if r || x || b then some (bits8 false true false false false r x b) else none

theorem rexFor_isRex {r x b : Bool} : ∀ c, rexFor r x b = some c → isRex c := by
  cases r <;> cases x <;> cases b <;> decide

theorem rexFor_isSome (r x b : Bool) : (rexFor r x b).isSome = (r || x || b) := by
  unfold rexFor
  split <;> simp_all

theorem rexBit_rexFor (r x b : Bool) :
    rexBit (rexFor r x b) 2 = r ∧ rexBit (rexFor r x b) 1 = x ∧ rexBit (rexFor r x b) 0 = b := by
  cases r <;> cases x <;> cases b <;> decide

/-- R93, R94: a legacy SSE encoding of a length that leaves room for one `66`. -/
theorem encodeLegacy_encodes {op r x b addr32 : Bool} {d : List Byte} {reg : BitVec 3} {rm : RmOperand} {len : Nat}
    (hd : OperandForm x b d reg rm) (hlen : 3 + addr32.toNat + (r || x || b).toNat + rm.size ≤ len) (h15 : len ≤ 15) :
    Encodes (encodeLegacy op r x b addr32 d len) (assemble ⟨.legacy, op, false, r, x, b, false⟩ addr32 reg rm len) := by
  obtain ⟨hop, h7F⟩ := opcodeByte_move op
  obtain ⟨hr, hx, hb⟩ := rexBit_rexFor r x b
  let n := len - (2 + addr32.toNat + (r || x || b).toNat + rm.size)
  let pre : List Byte := (if addr32 then [0x67#8] else []) ++ List.replicate n 0x66#8
  have hn : n ≠ 0 := by omega
  have hseen : seen pre = ⟨true, addr32, false, false, false, false⟩ := by
    cases addr32 <;> simp [pre, seen, hn, List.any_replicate, isSegmentByte]
  have hhead : HeadForm (seen pre) (rexFor r x b) [0x0F, opcodeByte op] ⟨.legacy, op, false, r, x, b, false⟩ := by
    have h := HeadForm.legacy (p := seen pre) (rex := rexFor r x b) hop (by rw [hseen]) (by rw [hseen]) (by rw [hseen])
    rwa [legacyFields, h7F, hr, hx, hb, show (seen pre).lock = false by rw [hseen]] at h
  have hpre : ∀ c ∈ pre, isLegacyPrefix c := by
    cases addr32 <;> simp +contextual [pre, isLegacyPrefix]
  have hprelen : pre.length = addr32.toNat + n := by
    cases addr32 <;> simp [pre, Nat.add_comm]
  have hbytes : encodeLegacy op r x b addr32 d len = pre ++ ((rexFor r x b).toList ++ ([0x0F, opcodeByte op] ++ d)) := by
    have hrex : (if r || x || b then [bits8 false true false false false r x b] else []) = (rexFor r x b).toList := by
      unfold rexFor
      split <;> rfl
    have hrexlen : (rexFor r x b).toList.length = (r || x || b).toNat := by
      rw [← rexFor_isSome]
      cases rexFor r x b <;> rfl
    have hfrontlen : (if addr32 then [0x67#8] else []).length = addr32.toNat := by
      cases addr32 <;> rfl
    have hfill : len - (addr32.toNat + ((r || x || b).toNat + (rm.size + 2))) = n := by omega
    simp only [encodeLegacy, hrex, List.length_append, List.length_cons, hrexlen, hfrontlen, hd.length, hfill, pre,
      List.append_assoc, List.cons_append, List.nil_append]
    rfl
  rw [hbytes]
  refine encodes_of_forms (len := len) hpre (by rw [hseen]) rexFor_isRex hhead hd rfl rfl ?_ h15 (by rw [hseen])
  rw [hprelen, rexFor_isSome, List.length_cons, List.length_singleton]
  omega

/-! ## VEX and EVEX -/

/-- The prefixes that fill a VEX or EVEX encoding (R100, R108). -/
theorem seen_replicate67 (n : Nat) : seen (List.replicate n 0x67#8) = ⟨false, decide (n ≠ 0), false, false, false, false⟩ := by
  simp [seen, List.any_replicate, isSegmentByte]

/-- A VEX or EVEX head and its operand, after `67` bytes that fill the encoding up to its length. -/
theorem encodes_of_fill {c d : List Byte} {h : Head} {reg : BitVec 3} {rm : RmOperand} {len : Nat}
    (hc : ∀ p : Prefixes, p.illegalBeforeVex = false → HeadForm p none c h) (hd : OperandForm h.x h.b d reg rm)
    (hbad : h.bad = false) (hz : zeroingStore h rm = false) (hlen : c.length + rm.size ≤ len) (h15 : len ≤ 15) :
    Encodes (List.replicate (len - (c ++ d).length) 0x67#8 ++ (c ++ d))
      (assemble h (decide (c.length + rm.size < len)) reg rm len) := by
  have hseen := seen_replicate67 (len - (c ++ d).length)
  have hcd : (c ++ d).length = c.length + rm.size := by rw [List.length_append, hd.length]
  refine encodes_of_forms (rex := none) (len := len) ?_ (by rw [hseen]) nofun (hc _ (by rw [hseen]; rfl)) hd hbad hz ?_ h15 ?_
  · intro b hb
    rw [List.eq_of_mem_replicate hb]
    decide
  · rw [List.length_replicate, hcd, Option.isSome_none, Bool.toNat_false]
    omega
  · have haddr : decide (len - (c ++ d).length ≠ 0) = decide (c.length + rm.size < len) := by
      rw [hcd, decide_eq_decide]
      omega
    rw [hseen]
    exact congrArg (assemble h · reg rm len) haddr

/-- The payload byte after `C5` (R95). -/
theorem vexPay2_fields (r l256 : Bool) :
    let pay := bits8 (!r) true true true true l256 false true
    pay.extractLsb' 0 2 = 0b01#2 ∧ (!pay.getLsbD 7) = r ∧ pay.getLsbD 2 = l256 ∧ pay.extractLsb' 3 4 = 0b1111#4 := by
  revert r l256
  decide

/-- The payload bytes after `C4` (R96). -/
theorem vexPay3_fields (r x b l256 : Bool) :
    let b1 := bits8 (!r) (!x) (!b) false false false false true
    let pay := bits8 false true true true true l256 false true
    b1.extractLsb' 0 5 = 0b00001#5 ∧ (!b1.getLsbD 7) = r ∧ (!b1.getLsbD 6) = x ∧ (!b1.getLsbD 5) = b
      ∧ pay.extractLsb' 0 2 = 0b01#2 ∧ pay.getLsbD 2 = l256 ∧ pay.extractLsb' 3 4 = 0b1111#4 := by
  revert r x b l256
  decide

/-- R95, R96, R108: a VEX encoding of a length that leaves room for its head; the one after `C5` has neither `X` nor `B`. -/
theorem encodeVex_encodes {l256 op r x b long : Bool} {d : List Byte} {reg : BitVec 3} {rm : RmOperand} {len : Nat}
    (hd : OperandForm x b d reg rm) (hlong : long = false → x = false ∧ b = false) (hlen : 3 + long.toNat + rm.size ≤ len)
    (h15 : len ≤ 15) :
    Encodes (encodeVex l256 op r x b long d len)
      (assemble ⟨.vex l256, op, false, r, x, b, false⟩ (decide (3 + long.toNat + rm.size < len)) reg rm len) := by
  obtain ⟨hop, h7F⟩ := opcodeByte_move op
  cases long with
  | false =>
    obtain ⟨rfl, rfl⟩ := hlong rfl
    obtain ⟨hpp, hr, hl, hv⟩ := vexPay2_fields r l256
    refine encodes_of_fill (c := [0xC5, bits8 (!r) true true true true l256 false true, opcodeByte op]) (fun p hp => ?_) hd
      rfl rfl hlen h15
    have h := HeadForm.vex2 (p := p) (rex := none) hop hpp
    simp only [vexFields, hr, hl, hv, h7F, hp] at h
    exact h
  | true =>
    obtain ⟨hmap, hr, hx, hb, hpp, hl, hv⟩ := vexPay3_fields r x b l256
    refine encodes_of_fill (c := [0xC4, bits8 (!r) (!x) (!b) false false false false true,
      bits8 false true true true true l256 false true, opcodeByte op]) (fun p hp => ?_) hd rfl rfl hlen h15
    have h := HeadForm.vex3 (p := p) (rex := none) hop hpp hmap
    simp only [vexFields, hr, hx, hb, hl, hv, h7F, hp] at h
    exact h

/-- The payload bytes after `62` (R97). -/
theorem evexPay_fields (es : ElemSize) (rHi r x b : Bool) :
    let p0 := bits8 (!r) (!x) (!b) (!rHi) false false false true
    let p1 := bits8 (es == .qword) true true true true true false true
    (!p0.getLsbD 4) = rHi ∧ (!p0.getLsbD 7) = r ∧ (!p0.getLsbD 6) = x ∧ (!p0.getLsbD 5) = b
      ∧ p0.extractLsb' 0 2 = 0b01#2 ∧ p0.extractLsb' 2 2 = 0b00#2 ∧ p1.extractLsb' 0 2 = 0b01#2 ∧ p1.getLsbD 2 = true
      ∧ p1.extractLsb' 3 4 = 0b1111#4 ∧ (if p1.getLsbD 7 then ElemSize.qword else .dword) = es := by
  revert rHi r x b
  cases es <;> decide

theorem evexPay2_fields (vl : VecLen) (aaa : OpmaskSel) (z : Bool) :
    let p2 := bits8 z (vl == .l512) (vl == .l256) false true (aaa.getLsbD 2) (aaa.getLsbD 1) (aaa.getLsbD 0)
    p2.extractLsb' 0 3 = aaa ∧ p2.getLsbD 3 = true ∧ p2.getLsbD 4 = false ∧ (p2.extractLsb' 5 2 == 0b11#2) = false
      ∧ evexVecLen (p2.extractLsb' 5 2) = vl ∧ p2.getLsbD 7 = z := by
  revert aaa z
  cases vl <;> decide

/-- R97, R108: an EVEX encoding. -/
theorem encodeEvex_encodes {es : ElemSize} {vl : VecLen} {op rHi r x b : Bool} {mask : Masking} {d : List Byte} {reg : BitVec 3}
    {rm : RmOperand} {len : Nat} (hd : OperandForm x b d reg rm) (hmask : mask.wf = true)
    (hz : zeroingStore ⟨.evex es vl mask, op, rHi, r, x, b, false⟩ rm = false) (hlen : 5 + rm.size ≤ len) (h15 : len ≤ 15) :
    Encodes (encodeEvex es vl op rHi r x b mask d len)
      (assemble ⟨.evex es vl mask, op, rHi, r, x, b, false⟩ (decide (5 + rm.size < len)) reg rm len) := by
  obtain ⟨hop, h7F⟩ := opcodeByte_move op
  obtain ⟨hrHi, hr, hx, hb, hmap, hp0, hpp, hp1, hv, hes⟩ := evexPay_fields es rHi r x b
  obtain ⟨haaa, hp2, hp2', hll, hvl, hzbit⟩ := evexPay2_fields vl mask.aaa mask.z
  refine encodes_of_fill (c := [0x62, bits8 (!r) (!x) (!b) (!rHi) false false false true,
    bits8 (es == .qword) true true true true true false true, bits8 mask.z (vl == .l512) (vl == .l256) false true
      (mask.aaa.getLsbD 2) (mask.aaa.getLsbD 1) (mask.aaa.getLsbD 0), opcodeByte op]) (fun p hp => ?_) hd rfl hz hlen h15
  have hzero : (mask.z && mask.aaa == 0b000#3) = false := by
    rw [← Bool.not_eq_true', Bool.not_and]
    exact hmask
  have h := HeadForm.evex (p := p) (rex := none) (p2 := bits8 mask.z (vl == .l512) (vl == .l256) false true
      (mask.aaa.getLsbD 2) (mask.aaa.getLsbD 1) (mask.aaa.getLsbD 0)) hop hmap hpp
  simp only [evexFields, evexReserved, hrHi, hr, hx, hb, hp0, hp1, hv, hes, haaa, hp2, hp2', hll, hvl, hzbit, hzero, h7F, hp] at h
  exact h

/-! ## The six forms -/

/-- An encoding is read to the end, and is the encoding of the instruction. -/
theorem encode_encodes (i : Instr) (hi : i.wf = true) : Encodes (encode i) i := by
  induction i using Instr.form_cases with
  | legacyCopy op reg rm len =>
    rw [wf_legacyCopy, legacyCopyLenOk, decide_eq_true_eq] at hi
    have h := encodeLegacy_encodes (op := op) (r := reg.getLsbD 3) (addr32 := false) (len := len)
      (operandForm_reg false (rm.getLsbD 3) (low3 reg) (low3 rm))
      (by simp only [RmOperand.size, Bool.or_false, Bool.toNat_false]; omega) hi.2
    rw [assemble_legacyReg, num4_low3, num4_low3] at h
    rwa [encode_legacyCopy]
  | legacyMem op reg m len =>
    rw [wf_legacyMem, Bool.and_eq_true, legacyMemLenOk, decide_eq_true_eq] at hi
    obtain ⟨hform, hlen, h15⟩ := hi
    have h := encodeLegacy_encodes (op := op) (r := reg.getLsbD 3) (addr32 := m.addr32) (len := len)
      (operandForm_mem hform (low3 reg)) hlen h15
    rw [assemble_legacyMem, num4_low3] at h
    rwa [encode_legacyMem]
  | vexCopy l256 op reg rm len =>
    rw [wf_vexCopy, vexCopyLenOk, decide_eq_true_eq] at hi
    have h := encodeVex_encodes (l256 := l256) (op := op) (r := reg.getLsbD 3) (long := rm.getLsbD 3) (len := len)
      (operandForm_reg false (rm.getLsbD 3) (low3 reg) (low3 rm)) (fun h => ⟨rfl, h⟩)
      (by simp only [RmOperand.size]; omega) hi.2
    rw [assemble_vexReg, num4_low3, num4_low3] at h
    rwa [encode_vexCopy]
  | vexMem l256 op reg m len =>
    rw [wf_vexMem, Bool.and_eq_true] at hi
    obtain ⟨hform, hlenOk⟩ := hi
    have hlen := vexMemLenOk_iff.1 hlenOk
    have h := encodeVex_encodes (l256 := l256) (op := op) (r := reg.getLsbD 3) (len := len)
      (long := m.form.xBit || m.form.bBit || (!m.addr32 && len == 4 + m.form.tailSize)) (operandForm_mem hform (low3 reg))
      (by simp +contextual) hlen.1 hlen.2.1
    rw [assemble_vexMem, num4_low3, RmOperand.size, hlen.2.2] at h
    rwa [encode_vexMem]
  | evexCopy es vl op mask reg rm len =>
    rw [wf_evexCopy, Bool.and_eq_true, evexCopyLenOk, decide_eq_true_eq] at hi
    obtain ⟨hmask, hlen, h15⟩ := hi
    have h := encodeEvex_encodes (es := es) (vl := vl) (op := op) (rHi := reg.getLsbD 4) (r := reg.getLsbD 3)
      (operandForm_reg (rm.getLsbD 4) (rm.getLsbD 3) (low3 reg) (low3 rm)) hmask rfl hlen h15
    rw [assemble_evexReg, num5_low3, num5_low3] at h
    rwa [encode_evexCopy]
  | evexMem es vl op mask reg m len hz =>
    rw [wf_evexMem _ _ _ _ _ _ _ _ hz, Bool.and_eq_true, Bool.and_eq_true] at hi
    obtain ⟨⟨hmask, hform⟩, hlenOk⟩ := hi
    obtain ⟨hlen, h15, haddr⟩ := evexMemLenOk_iff.1 hlenOk
    have h := encodeEvex_encodes (es := es) (vl := vl) (op := op) (rHi := reg.getLsbD 4) (r := reg.getLsbD 3)
      (operandForm_mem hform (low3 reg)) hmask hz hlen h15
    rw [assemble_evexMem, num5_low3, RmOperand.size, haddr] at h
    rwa [encode_evexMem _ _ _ _ _ _ _ _ hz]

/-- Settles O1: an encoding is read to the end and answered (`encode_encodes`), whatever follows. -/
theorem decodeOfEncodeIsIdentity : Obligations.DecodeOfEncodeIsIdentity := by
  intro i rest hi
  exact (encode_encodes i hi).decode rest

end Sys2Proof
end

section
/-! SUPPORT. The length of an encoding, and what the decoder answers as an instruction (spec/30_encoding.md R90, R109, R115). -/

namespace Sys2Proof
open Machine

/-! ## Lengths -/

theorem legacyInstr_len (op : Bool) (reg rm : VReg16) (mem : Option MemOperand) (len : Nat) :
    (legacyInstr op reg rm mem len).len = len := by
  cases op <;> cases mem <;> rfl

theorem vexInstr_len (l256 op : Bool) (reg rm : VReg16) (mem : Option MemOperand) (len : Nat) :
    (vexInstr l256 op reg rm mem len).len = len := by
  cases l256 <;> cases op <;> cases mem <;> rfl

theorem evexInstr_len (es : ElemSize) (vl : VecLen) (op : Bool) (mask : Masking) (reg rm : VReg32) (mem : Option MemOperand)
    (len : Nat) : (evexInstr es vl op mask reg rm mem len).len = len := by
  cases es <;> cases vl <;> cases op <;> cases mem <;> rfl

open Laws.LengthBounds in
/-- R90, R115: a well-formed instruction is 4 to 15 bytes long. -/
theorem wf_len_bounds (i : Instr) (hi : i.wf = true) : 4 ≤ i.len ∧ i.len ≤ 15 := by
  induction i using Instr.form_cases with
  | legacyCopy op reg rm len =>
    rw [wf_legacyCopy] at hi
    rw [legacyInstr_len]
    exact legacyCopyLenOk_bounds hi
  | legacyMem op reg m len =>
    rw [wf_legacyMem, Bool.and_eq_true] at hi
    rw [legacyInstr_len]
    exact legacyMemLenOk_bounds hi.2
  | vexCopy l256 op reg rm len =>
    rw [wf_vexCopy] at hi
    rw [vexInstr_len]
    exact vexCopyLenOk_bounds hi
  | vexMem l256 op reg m len =>
    rw [wf_vexMem, Bool.and_eq_true] at hi
    rw [vexInstr_len]
    exact vexMemLenOk_bounds hi.2
  | evexCopy es vl op mask reg rm len =>
    rw [wf_evexCopy, Bool.and_eq_true] at hi
    rw [evexInstr_len]
    exact evexCopyLenOk_bounds hi.2
  | evexMem es vl op mask reg m len hz =>
    rw [wf_evexMem _ _ _ _ _ _ _ _ hz, Bool.and_eq_true] at hi
    rw [evexInstr_len]
    exact evexMemLenOk_bounds hi.2

/-- Settles O5: the bytes of an encoding are all read (`encode_encodes`), and the conditions of `wf` bound their number. -/
theorem encodingHasTheInstructionLength : Obligations.EncodingHasTheInstructionLength := by
  intro i hi
  exact ⟨(encode_encodes i hi).length, wf_len_bounds i hi⟩

/-! ## What is answered as an instruction is well-formed -/

/-- R94: an extension bit of a legacy SSE encoding is one of a REX byte. -/
theorem rexBit_isSome {rex : Option Byte} {i : Nat} (h : rexBit rex i = true) : rex.isSome = true := by
  cases rex with
  | none => cases h
  | some r => rfl

/-- R108: before a VEX or EVEX encoding that decodes there are `67` bytes and no others. -/
theorem seen_of_legal {pre : List Byte} (hpre : ∀ b ∈ pre, isLegacyPrefix b) (hseg : (seen pre).segment = false)
    (hleg : (seen pre).illegalBeforeVex = false) : (seen pre).addrsize = decide (pre.length ≠ 0) := by
  have h67 : ∀ b ∈ pre, b = 0x67 := by
    intro b hb
    have hb' := hpre b hb
    simp only [seen, List.any_eq_false] at hseg
    have hsegb := hseg b hb
    simp only [seen, Prefixes.illegalBeforeVex, Bool.or_eq_false_iff, decide_eq_false_iff_not] at hleg
    obtain ⟨⟨⟨h66, hF2⟩, hF3⟩, hF0⟩ := hleg
    simp only [isLegacyPrefix, List.mem_cons, List.not_mem_nil, or_false] at hb'
    rcases hb' with rfl | rfl | rfl | rfl | rfl | hs
    · exact absurd hb h66
    · rfl
    · exact absurd hb hF0
    · exact absurd hb hF2
    · exact absurd hb hF3
    · exact absurd (by rcases hs with rfl | rfl | rfl | rfl | rfl | rfl <;> rfl) hsegb
  cases pre with
  | nil => rfl
  | cons b pre => simp [seen, h67 b]

/-- R95, R96, R115: after `n` bytes `67`, the length of a VEX memory form whose head has `k` bytes. -/
theorem vexMemLenOk_of_head {f : AddrForm} {n k : Nat} (hk : k = 3 ∧ f.xBit = false ∧ f.bBit = false ∨ k = 4)
    (h15 : n + k + f.tailSize ≤ 15) : vexMemLenOk ⟨decide (n ≠ 0), f⟩ (n + k + f.tailSize) = true := by
  rw [vexMemLenOk_iff]
  by_cases hn : n = 0
  · rcases hk with ⟨rfl, hx, hb⟩ | rfl
    · simp [hn, hx, hb]; omega
    · simp [hn]; omega
  · rcases hk with ⟨rfl, hx, hb⟩ | rfl
    · simp [hn, hx, hb]; omega
    · have hle := Bool.toNat_le (f.xBit || f.bBit)
      simp [hn]; omega

theorem evexMemLenOk_of_head {f : AddrForm} {n : Nat} (h15 : n + 5 + f.tailSize ≤ 15) :
    evexMemLenOk ⟨decide (n ≠ 0), f⟩ (n + 5 + f.tailSize) = true := by
  rw [evexMemLenOk_iff]
  refine ⟨by simp only; omega, h15, decide_eq_decide.2 ?_⟩
  simp only
  omega

/-- R93, R94, R115: a legacy SSE encoding with a `66`, and with a REX byte where an extension bit is set. -/
theorem legacy_wf {p : Prefixes} {rex : Option Byte} {op : Byte} {addr32 : Bool} {reg : BitVec 3} {rm : RmOperand} {len : Nat}
    (hok : rm.ok (rexBit rex 1) (rexBit rex 0)) (hlen : 3 + addr32.toNat + rex.isSome.toNat + rm.size ≤ len)
    (h15 : len ≤ 15) : (assemble (legacyFields p rex op) addr32 reg rm len).wf = true := by
  have hbit {c : Bool} (hc : c = true → rex.isSome = true) : c.toNat ≤ rex.isSome.toNat := by
    cases c
    · exact Nat.zero_le _
    · rw [hc rfl]
  have hR := @rexBit_isSome rex
  cases rm with
  | reg rm =>
    have hneed := hbit (c := rexBit rex 2 || rexBit rex 0) fun h => (Bool.or_eq_true_iff.1 h).elim hR hR
    rw [legacyFields, assemble_legacyReg, wf_legacyCopy, legacyCopyLenOk, decide_eq_true_eq, num4_bit, num4_bit]
    simp only [RmOperand.size] at hlen
    omega
  | mem f =>
    obtain ⟨hf, hx, hb⟩ := hok
    have hneed := hbit (c := rexBit rex 2 || f.xBit || f.bBit) fun h =>
      (Bool.or_eq_true_iff.1 h).elim (fun h => (Bool.or_eq_true_iff.1 h).elim hR (hR ∘ hx)) (hR ∘ hb)
    rw [legacyFields, assemble_legacyMem, wf_legacyMem, hf, Bool.true_and, legacyMemLenOk, decide_eq_true_eq, num4_bit]
    simp only [RmOperand.size] at hlen ⊢
    omega

/-- R95, R96, R115: a VEX encoding after `n` bytes `67`, with a head of `k` bytes. -/
theorem vex_wf {p : Prefixes} {rex : Option Byte} {r x b : Bool} {pay op : Byte} {n k : Nat} {reg : BitVec 3} {rm : RmOperand}
    (hok : rm.ok x b) (hk : k = 3 ∧ x = false ∧ b = false ∨ k = 4) (h15 : n + k + rm.size ≤ 15) :
    (assemble (vexFields p rex r x b pay op) (decide (n ≠ 0)) reg rm (n + k + rm.size)).wf = true := by
  cases rm with
  | reg rm =>
    rw [vexFields, assemble_vexReg, wf_vexCopy, vexCopyLenOk, decide_eq_true_eq, num4_bit]
    simp only [RmOperand.size] at h15 ⊢
    rcases hk with ⟨rfl, -, rfl⟩ | rfl
    · rw [Bool.toNat_false]
      omega
    · have hle := Bool.toNat_le b
      omega
  | mem f =>
    obtain ⟨hf, hx, hb⟩ := hok
    rw [vexFields, assemble_vexMem, wf_vexMem, hf, Bool.true_and]
    refine vexMemLenOk_of_head (hk.imp_left ?_) h15
    rintro ⟨rfl, rfl, rfl⟩
    exact ⟨rfl, by simpa using hx, by simpa using hb⟩

/-- R97, R104, R115: an EVEX encoding after `n` bytes `67`, with no reserved value. -/
theorem evex_wf {p : Prefixes} {rex : Option Byte} {p0 p1 p2 op : Byte} {n : Nat} {reg : BitVec 3} {rm : RmOperand} {x b : Bool}
    (hok : rm.ok x b) (hres : evexReserved p0 p1 p2 = false) (hz : zeroingStore (evexFields p rex p0 p1 p2 op) rm = false)
    (h15 : n + 5 + rm.size ≤ 15) :
    (assemble (evexFields p rex p0 p1 p2 op) (decide (n ≠ 0)) reg rm (n + 5 + rm.size)).wf = true := by
  have hmask : Masking.wf ⟨p2.extractLsb' 0 3, p2.getLsbD 7⟩ = true := by
    simp only [evexReserved, Bool.or_eq_false_iff] at hres
    obtain ⟨-, hzero⟩ := hres
    rw [← Bool.not_eq_true', Bool.not_and] at hzero
    exact hzero
  cases rm with
  | reg rm =>
    rw [evexFields, assemble_evexReg, wf_evexCopy, hmask, Bool.true_and, evexCopyLenOk, decide_eq_true_eq]
    simp only [RmOperand.size] at h15 ⊢
    omega
  | mem f =>
    obtain ⟨hf, -, -⟩ := hok
    have hlen := evexMemLenOk_of_head (f := f) h15
    have hz : (p2.getLsbD 7 && op == 0x7F#8) = false := hz
    rw [evexFields, assemble_evexMem, wf_evexMem (hz := hz), hmask, hf, Bool.true_and, Bool.true_and]
    exact hlen

/-- R109, R115: what steps 6 to 8 answer as an instruction is well-formed. -/
theorem Parse.instr_wf (P : Parse) (h15 : P.body.len P.before ≤ 15) (hbad : P.body.bad = false) :
    (P.body.instr P.before).wf = true := by
  obtain ⟨pre, rex, ⟨code, head, tail, reg, rm, hhead, hop⟩, hpre, hlt, hseg, hisRex⟩ := P
  simp only [Body.bad, Bool.or_eq_false_iff] at hbad
  obtain ⟨hbad, hz⟩ := hbad
  have hok := hop.ok
  have hvex (hb : (rex.isSome || (seen pre).illegalBeforeVex) = false) :
      (seen pre).addrsize = decide (pre.length ≠ 0) ∧ pre.length + rex.isSome.toNat = pre.length := by
    obtain ⟨hrex, hleg⟩ := Bool.or_eq_false_iff.1 hb
    exact ⟨seen_of_legal hpre hseg hleg, by rw [hrex]; rfl⟩
  simp only [Body.instr, Body.len, Parse.before] at h15 ⊢
  cases hhead with
  | legacy _ h66 =>
    have hpos := seen_length pre
    rw [h66, Bool.toNat_true] at hpos
    exact legacy_wf hok (by simp only [List.length_cons, List.length_nil]; omega) h15
  | vex2 =>
    obtain ⟨hbefore, -⟩ := Bool.or_eq_false_iff.1 hbad
    obtain ⟨haddr, hlen⟩ := hvex hbefore
    rw [hlen] at h15 ⊢
    rw [haddr]
    exact vex_wf hok (.inl ⟨rfl, rfl, rfl⟩) h15
  | vex3 =>
    obtain ⟨hbefore, -⟩ := Bool.or_eq_false_iff.1 hbad
    obtain ⟨haddr, hlen⟩ := hvex hbefore
    rw [hlen] at h15 ⊢
    rw [haddr]
    exact vex_wf hok (.inr rfl) h15
  | evex =>
    obtain ⟨hbefore, hres⟩ := Bool.or_eq_false_iff.1 hbad
    obtain ⟨haddr, hlen⟩ := hvex hbefore
    rw [hlen] at h15 ⊢
    rw [haddr]
    exact evex_wf hok hres hz h15

/-- Settles O4: the bytes that are read to the end obey the conditions of `wf`, and the answer rests on the bytes it counts. -/
theorem decodedInstructionIsWellFormedAndReadsItsLength : Obligations.DecodedInstructionIsWellFormedAndReadsItsLength := by
  intro bs i h
  refine ⟨?_, ?_⟩
  · obtain ⟨P, rest, -, h15, hbad, rfl⟩ := decode_eq_ok h
    exact P.instr_wf h15 hbad
  · obtain ⟨c, tl, rfl, hlen, -, -, hc⟩ := decode_ok h
    refine ⟨by rw [List.length_append]; omega, fun bs' hbs' => ?_⟩
    rw [← hlen, List.take_left] at hbs'
    rw [← List.take_append_drop c.length bs', hbs']
    exact hc _

end Sys2Proof
end

section
/-! SUPPORT. What further legacy prefixes do before bytes that the decoder reads to the end (spec/30_encoding.md R93, R100, R108,
R109, R115). -/

namespace Sys2Proof
open Machine

/-! ## Heads -/

theorem HeadForm.legacy_mandatory {p : Prefixes} {rex : Option Byte} {c : List Byte} {h : Head} (hf : HeadForm p rex c h)
    (hk : h.kind = .legacy) : p.opsize = true ∧ p.repne = false ∧ p.rep = false := by
  cases hf with
  | legacy _ h66 hF2 hF3 => exact ⟨h66, hF2, hF3⟩
  | _ => cases hk

/-- A head rests on no other legacy prefixes than `66`, `F0`, `F2` and `F3`. -/
theorem HeadForm.congr {p p' : Prefixes} {rex : Option Byte} {c : List Byte} {h : Head} (hf : HeadForm p rex c h)
    (h66 : p'.opsize = p.opsize) (hF0 : p'.lock = p.lock) (hF2 : p'.repne = p.repne) (hF3 : p'.rep = p.rep) :
    HeadForm p' rex c h := by
  have hill : p'.illegalBeforeVex = p.illegalBeforeVex := by
    rw [Prefixes.illegalBeforeVex, h66, hF0, hF2, hF3]
    rfl
  cases hf with
  | legacy hop h1 h2 h3 =>
    rw [legacyFields, ← hF0]
    exact .legacy hop (h66 ▸ h1) (hF2 ▸ h2) (hF3 ▸ h3)
  | vex2 hop hpp =>
    rw [vexFields, ← hill]
    exact .vex2 hop hpp
  | vex3 hop hpp hmap =>
    rw [vexFields, ← hill]
    exact .vex3 hop hpp hmap
  | evex hop hmap hpp =>
    rw [evexFields, ← hill]
    exact .evex hop hmap hpp

/-- The encoding family of the instruction is that of its head (R91). -/
theorem encodingOf_assemble {h : Head} {addr32 : Bool} {reg : BitVec 3} {rm : RmOperand} {len : Nat} :
    encodingOf (assemble h addr32 reg rm len) = .legacy ↔ h.kind = .legacy := by
  obtain ⟨kind, op, rHi, r, x, b, bad⟩ := h
  cases kind with
  | legacy => cases op <;> cases rm <;> simp [assemble, legacyInstr, encodingOf]
  | vex l256 => cases l256 <;> cases op <;> cases rm <;> simp [assemble, vexInstr, encodingOf]
  | evex es vl mask => cases es <;> cases vl <;> cases op <;> cases rm <;> simp [assemble, evexInstr, encodingOf]

/-! ## Further legacy prefixes -/

/-- Further legacy prefixes, none of them a segment override, before bytes that the decoder reads to the end, when a head stands
there still. -/
theorem Parse.decode_append {P : Parse} {new : List Byte} {bad : Bool}
    (hnew : ∀ b ∈ new, isLegacyPrefix b ∧ isSegmentByte b = false) (hlt : new.length + P.pre.length < 15)
    (hform : HeadForm (seen (new ++ P.pre)) P.rex P.body.code { P.body.head with bad }) (rest : List Byte) :
    Sys2Proof.decode (new ++ (P.bytes ++ rest)) =
      Sys2Proof.judge { P.body.head with bad } (seen (new ++ P.pre)).addrsize P.body.reg P.body.rm
        (new.length + P.body.len P.before) := by
  have hseg : (seen (new ++ P.pre)).segment = false := by
    have hP := P.noSegment
    simp only [seen, List.any_append, Bool.or_eq_false_iff, List.any_eq_false, Bool.not_eq_true] at hP ⊢
    exact ⟨fun b hb => (hnew b hb).2, hP⟩
  let Q : Parse := {
    pre := new ++ P.pre
    rex := P.rex
    body := ⟨P.body.code, _, P.body.tail, P.body.reg, P.body.rm, hform, P.body.operandForm⟩
    prefixes := List.forall_mem_append.2 ⟨fun b hb => (hnew b hb).1, P.prefixes⟩
    length_lt := by rwa [List.length_append]
    noSegment := hseg
    isRex := P.isRex }
  have hbytes : new ++ (P.bytes ++ rest) = Q.bytes ++ rest := by
    simp only [Parse.bytes, Q, List.append_assoc]
  have hlen : Q.body.len Q.before = new.length + P.body.len P.before := by
    simp only [Body.len, Parse.before, Q, List.length_append]
    omega
  rw [hbytes, Q.decode, Body.judge, hlen]

/-- R115: bytes that are read to the end are two more than the legacy prefixes among them. -/
theorem Parse.pre_length_lt (P : Parse) : P.pre.length + 2 ≤ P.body.len P.before := by
  have hcode : 0 < P.body.code.length := by
    obtain ⟨a, t, hat, -⟩ := P.body.headForm.first
    rw [hat]
    exact Nat.succ_pos _
  have hrm : 0 < P.body.rm.size := by
    cases P.body.rm with
    | reg => exact Nat.one_pos
    | mem f => exact Laws.LengthBounds.tailSize_pos f
  simp only [Body.len, Parse.before]
  omega

/-- R109 steps 6 and 7: the length is judged before the illegal fields. -/
theorem judge_of_bad {h : Head} {addr32 : Bool} {reg : BitVec 3} {rm : RmOperand} {len : Nat} (hbad : h.bad = true) :
    judge h addr32 reg rm len = .error (if 15 < len then .gp else .ud) := by
  unfold judge
  rw [hbad, Bool.true_or]
  split <;> rfl

/-- A further byte that makes the instruction illegal (R108): `#UD`, or `#GP` for a sixteenth byte. -/
theorem Parse.decode_illegal {P : Parse} {b : Byte} (hb : isLegacyPrefix b) (hsegb : isSegmentByte b = false)
    (h15 : P.body.len P.before ≤ 15)
    (hform : HeadForm (seen (b :: P.pre)) P.rex P.body.code { P.body.head with bad := true }) (rest : List Byte) :
    Sys2Proof.decode (b :: (P.bytes ++ rest)) = .error (if P.body.len P.before = 15 then .gp else .ud) := by
  have hpre := P.pre_length_lt
  have hgp : 15 < [b].length + P.body.len P.before ↔ P.body.len P.before = 15 := by
    rw [List.length_singleton]
    omega
  have h := P.decode_append (new := [b]) (bad := true) (List.forall_mem_singleton.2 ⟨hb, hsegb⟩)
    (by rw [List.length_singleton]; omega) hform rest
  rw [judge_of_bad rfl, if_congr hgp rfl rfl] at h
  exact h

/-- R93: a further byte that lets no head stand there is rejected as the head is. -/
theorem Parse.decode_not_head {P : Parse} {b : Byte} {r : Reject} (hb : isLegacyPrefix b) (h15 : P.body.len P.before ≤ 15)
    (hbody : ∀ k t, decodeBody (seen (b :: P.pre)) P.rex k (P.body.code ++ t) = .error r) (rest : List Byte) :
    Sys2Proof.decode (b :: (P.bytes ++ rest)) = .error r := by
  have hpre := P.pre_length_lt
  obtain ⟨a, t, hat, -, ha⟩ := P.body.headForm.first
  have hlead := decode_lead (pre := b :: P.pre) (List.forall_mem_cons.2 ⟨hb, P.prefixes⟩) P.isRex ha
    (t ++ (P.body.tail ++ rest))
  rw [if_pos (by rw [List.length_cons]; omega), ← List.cons_append, ← hat, hbody] at hlead
  rw [← hlead]
  simp only [Parse.bytes, List.cons_append, List.append_assoc]

/-- R93: `F2` or `F3` before a legacy SSE head selects another instruction. -/
theorem HeadForm.decodeBody_rep {p p' : Prefixes} {rex : Option Byte} {c : List Byte} {h : Head} (hf : HeadForm p rex c h)
    (hk : h.kind = .legacy) (hseg : p'.segment = false) (hrep : (p'.repne || p'.rep) = true) (k : Nat) (t : List Byte) :
    decodeBody p' rex k (c ++ t) = .error (.notInScope .otherMandatoryPrefix) := by
  cases hf with
  | legacy hop => simp [decodeBody, hseg, Sys2Proof.decodeHead, legacyHead, hop, hrep, bind, Except.bind]
  | _ => cases hk

/-- R93: a segment override is refused before the head is read. -/
theorem decodeBody_segment {p : Prefixes} (hseg : p.segment = true) (rex : Option Byte) (k : Nat) (bs : List Byte) :
    decodeBody p rex k bs = .error (.notInScope .segmentOverride) := by
  simp [decodeBody, hseg]

theorem HeadForm.legacy_first {p : Prefixes} {rex : Option Byte} {c : List Byte} {h : Head} (hf : HeadForm p rex c h)
    (hk : h.kind = .legacy) : c.head? = some 0x0F := by
  cases hf with
  | legacy => rfl
  | _ => cases hk

/-- R108: a VEX or EVEX head stands there after a REX byte too, and is illegal. -/
theorem decode_rex_before_vex {tail : List Byte} {i : Instr} {rex c : Byte} (h : decode (c :: tail) = .ok i) (hrex : isRex rex)
    (hc : c ∈ [(0xC4 : Byte), 0xC5, 0x62]) :
    decode (rex :: c :: tail) = .error (if i.len = 15 then .gp else .ud) := by
  have hfirst : prefixOf c = none ∧ ¬ isRex c ∧ c ≠ 0x0F := by
    simp only [List.mem_cons, List.not_mem_nil, or_false] at hc
    rcases hc with rfl | rfl | rfl <;> decide
  obtain ⟨hnone, hnrex, h0F⟩ := hfirst
  have hbare : decode (c :: tail) = decodeBody (seen []) none 0 (c :: tail) :=
    decode_prefixes (pre := []) nofun hnone hnrex tail
  have hafter : decode (rex :: c :: tail) = decodeBody (seen []) (some rex) 1 (c :: tail) :=
    decode_prefixes_rex (pre := []) nofun hrex (c :: tail)
  rw [hbare] at h
  obtain ⟨hseg, B, rest, hB, h15, -, rfl⟩ := decodeBody_eq_ok h
  have hkind : B.head.kind ≠ .legacy := by
    intro hk
    have h0 := B.headForm.legacy_first hk
    cases hcode : B.code with
    | nil => rw [hcode] at h0; cases h0
    | cons a t =>
      rw [hcode] at h0 hB
      exact h0F ((List.cons.inj hB).1.trans (Option.some.inj h0))
  obtain ⟨bad, hform, -, hbad⟩ := B.headForm.recast (p' := seen []) (rex' := some rex) fun hk => absurd hk hkind
  rw [hbad hkind (.inl rfl)] at hform
  let B' : Body (seen []) (some rex) := ⟨B.code, _, B.tail, B.reg, B.rm, hform, B.operandForm⟩
  have hlen : 15 < B'.len 1 ↔ B.len 0 = 15 := by
    simp only [Body.len, B'] at h15 ⊢
    omega
  calc decode (rex :: c :: tail)
    _ = decodeBody (seen []) (some rex) 1 (B.code ++ (B.tail ++ rest)) := by rw [hafter, hB]
    _ = B'.judge 1 := B'.decodeBody hseg 1 rest
    _ = .error (if (B.instr 0).len = 15 then .gp else .ud) := by
      rw [Body.judge, judge_of_bad rfl, if_congr hlen rfl rfl, Body.instr_len]

section
variable {P : Parse} {i : Instr} {p : Byte}

/-- R108: `F0` is illegal before every encoding. -/
theorem Parse.decode_lock (h15 : P.body.len P.before ≤ 15) (rest : List Byte) :
    Sys2Proof.decode (0xF0 :: (P.bytes ++ rest)) = .error (if P.body.len P.before = 15 then .gp else .ud) := by
  obtain ⟨bad, hform, hbad, -⟩ := P.body.headForm.recast (p' := seen (0xF0 :: P.pre)) (rex' := P.rex) fun hk => by
    simpa [seen] using P.body.headForm.legacy_mandatory hk
  rw [hbad (by simp [seen])] at hform
  exact P.decode_illegal (by decide) (by decide) h15 hform rest

/-- R108: `66`, `F2` and `F3` are illegal before a VEX or EVEX encoding. -/
theorem Parse.decode_mandatory_before_vex (h15 : P.body.len P.before ≤ 15) (hkind : P.body.head.kind ≠ .legacy)
    (hp : p ∈ [(0x66 : Byte), 0xF2, 0xF3]) (rest : List Byte) :
    Sys2Proof.decode (p :: (P.bytes ++ rest)) = .error (if P.body.len P.before = 15 then .gp else .ud) := by
  have hp' : isLegacyPrefix p ∧ isSegmentByte p = false ∧ (seen [p]).illegalBeforeVex = true := by
    simp only [List.mem_cons, List.not_mem_nil, or_false] at hp
    rcases hp with rfl | rfl | rfl <;> decide
  obtain ⟨hpre, hsegp, hill⟩ := hp'
  obtain ⟨bad, hform, -, hbad⟩ := P.body.headForm.recast (p' := seen (p :: P.pre)) (rex' := P.rex) fun hk => absurd hk hkind
  have hill' : (seen (p :: P.pre)).illegalBeforeVex = true := by
    rw [seen_cons]
    simp only [Prefixes.illegalBeforeVex, Prefixes.or, Bool.or_eq_true] at hill ⊢
    tauto
  rw [hbad hkind (.inr hill')] at hform
  exact P.decode_illegal hpre hsegp h15 hform rest

/-- R93: `F2` and `F3` before a legacy SSE encoding select another instruction. -/
theorem Parse.decode_rep_before_legacy (h15 : P.body.len P.before ≤ 15) (hkind : P.body.head.kind = .legacy)
    (hp : p ∈ [(0xF2 : Byte), 0xF3]) (rest : List Byte) :
    Sys2Proof.decode (p :: (P.bytes ++ rest)) = .error (.notInScope .otherMandatoryPrefix) := by
  have hp' : isLegacyPrefix p ∧ isSegmentByte p = false ∧ ((seen [p]).repne || (seen [p]).rep) = true := by
    simp only [List.mem_cons, List.not_mem_nil, or_false] at hp
    rcases hp with rfl | rfl <;> decide
  obtain ⟨hpre, hsegp, hrep⟩ := hp'
  refine P.decode_not_head hpre h15 (fun k t => P.body.headForm.decodeBody_rep hkind ?_ ?_ k t) rest
  · exact Bool.or_eq_false_iff.2 ⟨hsegp, P.noSegment⟩
  · rw [seen_cons]
    simp only [Prefixes.or, Bool.or_eq_true] at hrep ⊢
    tauto

/-- R93: a segment override before any encoding is refused. -/
theorem Parse.decode_segment (h15 : P.body.len P.before ≤ 15) (hp : p ∈ [(0x2E : Byte), 0x36, 0x3E, 0x26, 0x64, 0x65])
    (rest : List Byte) : Sys2Proof.decode (p :: (P.bytes ++ rest)) = .error (.notInScope .segmentOverride) := by
  have hp' : isLegacyPrefix p ∧ isSegmentByte p = true := by
    simp only [List.mem_cons, List.not_mem_nil, or_false] at hp
    rcases hp with rfl | rfl | rfl | rfl | rfl | rfl <;> decide
  obtain ⟨hpre, hsegp⟩ := hp'
  exact P.decode_not_head hpre h15 (fun k t => decodeBody_segment (Bool.or_eq_true_iff.2 (.inl hsegp)) _ k _) rest

end

/-- Settles O9: each clause is the law of its byte before bytes that are read to the end. -/
theorem illegalPrefixBytesAreRejected : Obligations.IllegalPrefixBytesAreRejected := by
  intro bs i h
  obtain ⟨P, rest, rfl, h15, -, hi⟩ := decode_eq_ok h
  have hlen : i.len = P.body.len P.before := by rw [hi, Body.instr_len]
  have henc : encodingOf i = .legacy ↔ P.body.head.kind = .legacy := by
    rw [hi]
    exact encodingOf_assemble
  rw [hlen]
  refine ⟨P.decode_lock h15 rest, fun p hp hne => P.decode_mandatory_before_vex h15 (mt henc.2 hne) hp rest,
    fun p hp hleg => P.decode_rep_before_legacy h15 (henc.1 hleg) hp rest, fun p hp => P.decode_segment h15 hp rest,
    fun rex c tail hrex hc hbs => ?_⟩
  rw [hbs] at h ⊢
  rw [← hlen]
  exact decode_rex_before_vex h hrex hc

/-! ## Too many bytes -/

/-- R115: bytes `66`, `67` and `F0` before bytes that are read to the end leave the head, and count. -/
theorem Parse.decode_overlong (P : Parse) {n : Nat} {p : Byte} (hp : p ∈ [(0x66 : Byte), 0x67, 0xF0])
    (hlong : 15 < n + P.body.len P.before) (rest : List Byte) :
    Sys2Proof.decode (List.replicate n p ++ (P.bytes ++ rest)) = .error .gp := by
  have hp' : isLegacyPrefix p ∧ isSegmentByte p = false ∧ 0xF2#8 ≠ p ∧ 0xF3#8 ≠ p := by
    simp only [List.mem_cons, List.not_mem_nil, or_false] at hp
    rcases hp with rfl | rfl | rfl <;> decide
  obtain ⟨hpre, hseg, hF2, hF3⟩ := hp'
  have hnew : ∀ b ∈ List.replicate n p, isLegacyPrefix b ∧ isSegmentByte b = false := fun b hb =>
    (List.eq_of_mem_replicate hb) ▸ ⟨hpre, hseg⟩
  by_cases hlt : (List.replicate n p).length + P.pre.length < 15
  · obtain ⟨bad, hform, -⟩ := P.body.headForm.recast (p' := seen (List.replicate n p ++ P.pre)) (rex' := P.rex) fun hk => by
      have hmand := P.body.headForm.legacy_mandatory hk
      simp only [seen, decide_eq_true_eq, decide_eq_false_iff_not] at hmand
      simp [seen, hmand, List.mem_replicate, hF2, hF3]
    rw [P.decode_append hnew hlt hform, Sys2Proof.judge, if_pos (by rwa [List.length_replicate])]
  · have hall : ∀ b ∈ List.replicate n p ++ P.pre, isLegacyPrefix b :=
      List.forall_mem_append.2 ⟨fun b hb => (hnew b hb).1, P.prefixes⟩
    rw [Parse.bytes, List.append_assoc, ← List.append_assoc]
    exact decode_too_many_prefixes hall (by rw [List.length_append]; omega) _

/-- R115: `#GP` is answered for 15 bytes or more. -/
theorem length_of_decode_gp {bs : List Byte} (h : decode bs = .error .gp) : 15 ≤ bs.length := by
  rcases decode_answers bs with e | ⟨_, e⟩ | ⟨pre, rest, rfl, -, hlen, -⟩ | ⟨P, rest, rfl⟩
  · rw [h] at e; cases e
  · rw [h] at e; cases e
  · rw [List.length_append]
    omega
  · rw [P.decode, Body.judge_eq] at h
    split_ifs at h with hlong
    · rw [List.length_append, P.length_bytes]
      omega
    · cases h

/-- What the decoder answers is `truncated`, or it answers the same whatever follows. -/
theorem decode_stable (bs : List Byte) : decode bs = .error .truncated ∨ ∀ rest, decode (bs ++ rest) = decode bs := by
  cases h : decode bs with
  | ok i =>
    right
    intro rest
    obtain ⟨c, tl, rfl, -, -, -, hc⟩ := decode_ok h
    rw [List.append_assoc, hc]
  | error r =>
    by_cases hr : r = .truncated
    · exact .inl (by rw [hr])
    · exact .inr (decode_error_append h hr)

/-- Settles O10: too many legacy prefixes, too many bytes in all, and nothing shorter, because an answer stands whatever
follows. -/
theorem overlongInstructionsAreGeneralProtection : Obligations.OverlongInstructionsAreGeneralProtection := by
  refine ⟨fun pre tl hlen hpre => decode_too_many_prefixes hpre hlen.ge tl, fun bs i n p h hlong hp => ?_,
    fun bs h => ⟨length_of_decode_gp h, fun n hn => ?_⟩⟩
  · obtain ⟨P, rest, rfl, -, -, rfl⟩ := decode_eq_ok h
    rw [Body.instr_len] at hlong
    exact P.decode_overlong hp (by omega) rest
  · refine (decode_stable (bs.take n)).resolve_right fun hstable => ?_
    have htake := hstable (bs.drop n)
    rw [List.take_append_drop, h] at htake
    have hlen := length_of_decode_gp htake.symm
    rw [List.length_take] at hlen
    omega

end Sys2Proof
end

section
/-! SUPPORT. Heads by their first byte, and what the decoder answers when another head takes the place of one that it read
(spec/30_encoding.md R93 to R97, R100, R103, R104, R201). -/

namespace Sys2Proof
open Machine

/-! ## Heads by their first byte -/

section
variable {p : Prefixes} {rex : Option Byte} {c t tail : List Byte} {h : Head} (hf : HeadForm p rex c h)
include hf

theorem HeadForm.of_0F (e : 0x0F :: tail = c ++ t) :
    ∃ op, c = [0x0F, op] ∧ tail = op :: t ∧ isMoveOpcode op = true ∧ h = legacyFields p rex op := by
  cases hf with
  | @legacy op hop =>
    obtain ⟨-, rfl⟩ := List.cons.inj e
    exact ⟨op, rfl, rfl, hop, rfl⟩
  | _ => simp at e

theorem HeadForm.of_C5 {pay : Byte} (e : 0xC5 :: pay :: tail = c ++ t) :
    ∃ op, c = [0xC5, pay, op] ∧ tail = op :: t ∧ isMoveOpcode op = true ∧ pay.extractLsb' 0 2 = 0b01#2
      ∧ h = vexFields p rex (!pay.getLsbD 7) false false pay op := by
  cases hf with
  | @vex2 pay' op hop hpp =>
    simp only [List.cons_append, List.nil_append, List.cons.injEq, true_and] at e
    obtain ⟨rfl, rfl⟩ := e
    exact ⟨op, rfl, rfl, hop, hpp, rfl⟩
  | _ => simp at e

theorem HeadForm.of_C4 {b1 pay : Byte} (e : 0xC4 :: b1 :: pay :: tail = c ++ t) :
    ∃ op, c = [0xC4, b1, pay, op] ∧ tail = op :: t ∧ isMoveOpcode op = true ∧ b1.extractLsb' 0 5 = 0b00001#5
      ∧ pay.extractLsb' 0 2 = 0b01#2 ∧ h = vexFields p rex (!b1.getLsbD 7) (!b1.getLsbD 6) (!b1.getLsbD 5) pay op := by
  cases hf with
  | @vex3 b1' pay' op hop hpp hmap =>
    simp only [List.cons_append, List.nil_append, List.cons.injEq, true_and] at e
    obtain ⟨rfl, rfl, rfl⟩ := e
    exact ⟨op, rfl, rfl, hop, hmap, hpp, rfl⟩
  | _ => simp at e

theorem HeadForm.of_62 {p0 p1 p2 : Byte} (e : 0x62 :: p0 :: p1 :: p2 :: tail = c ++ t) :
    ∃ op, c = [0x62, p0, p1, p2, op] ∧ tail = op :: t ∧ isMoveOpcode op = true ∧ p0.extractLsb' 0 2 = 0b01#2
      ∧ p1.extractLsb' 0 2 = 0b01#2 ∧ h = evexFields p rex p0 p1 p2 op := by
  cases hf with
  | @evex p0' p1' p2' op hop hmap hpp =>
    simp only [List.cons_append, List.nil_append, List.cons.injEq, true_and] at e
    obtain ⟨rfl, rfl, rfl, rfl⟩ := e
    exact ⟨op, rfl, rfl, hop, hmap, hpp, rfl⟩
  | _ => simp at e

end

/-! ## Longer spellings -/

/-- The instruction with another address width and another length. -/
theorem respell_assemble {f : MemOperand → MemOperand} {g : Nat → Nat} {a a' : Bool}
    (hf : ∀ form, f ⟨a, form⟩ = ⟨a', form⟩) (h : Head) (reg : BitVec 3) (rm : RmOperand) (len : Nat) :
    respell f g (assemble h a reg rm len) = assemble h a' reg rm (g len) := by
  obtain ⟨kind, op, rHi, r, x, b, bad⟩ := h
  cases kind with
  | legacy => cases op <;> cases rm <;> simp [assemble, legacyInstr, respell, hf]
  | vex l256 => cases l256 <;> cases op <;> cases rm <;> simp [assemble, vexInstr, respell, hf]
  | evex es vl mask => cases es <;> cases vl <;> cases op <;> cases rm <;> simp [assemble, evexInstr, respell, hf]

theorem oneLonger_assemble (h : Head) (a : Bool) (reg : BitVec 3) (rm : RmOperand) (len : Nat) :
    oneLonger (assemble h a reg rm len) = assemble h a reg rm (len + 1) :=
  respell_assemble (fun _ => rfl) h reg rm len

/-- R93, R100: a `66` that changes no head or a `67`, before bytes that are read to the end. -/
theorem Parse.decode_one_more {P : Parse} {b : Byte} (hb : isLegacyPrefix b) (hsegb : isSegmentByte b = false)
    (hform : HeadForm (seen (b :: P.pre)) P.rex P.body.code P.body.head) (hbad : P.body.bad = false)
    (hlt : P.body.len P.before < 15) (rest : List Byte) :
    Sys2Proof.decode (b :: (P.bytes ++ rest)) =
      .ok (assemble P.body.head (seen (b :: P.pre)).addrsize P.body.reg P.body.rm (P.body.len P.before + 1)) := by
  have hpre := P.pre_length_lt
  obtain ⟨hbad, hz⟩ := Bool.or_eq_false_iff.1 hbad
  have h := P.decode_append (new := [b]) (bad := P.body.head.bad) (List.forall_mem_singleton.2 ⟨hb, hsegb⟩)
    (by rw [List.length_singleton]; omega) hform rest
  rw [List.length_singleton, Nat.add_comm, judge_eq_ok hlt hbad hz] at h
  exact h

/-- Another head with the same fields, one byte longer or after a REX byte, makes the instruction one byte longer. -/
theorem Body.decodeBody_oneLonger {p : Prefixes} {rex rex' : Option Byte} (B : Body p rex) (hseg : p.segment = false)
    {c : List Byte} (hform : HeadForm p rex' c B.head) {k k' : Nat} (hk : k' + c.length = k + B.code.length + 1)
    (hbad : B.bad = false) (hlt : B.len k < 15) (rest : List Byte) :
    Sys2Proof.decodeBody p rex' k' (c ++ (B.tail ++ rest)) = .ok (oneLonger (B.instr k)) := by
  let B' : Body p rex' := ⟨c, B.head, B.tail, B.reg, B.rm, hform, B.operandForm⟩
  have hlen : B'.len k' = B.len k + 1 := by
    simp only [Body.len, B']
    omega
  have hinstr : B'.instr k' = oneLonger (B.instr k) := by
    rw [Body.instr, Body.instr, hlen, oneLonger_assemble]
  have hd := B'.decodeBody hseg k' rest
  rw [(B'.judge_eq_ok (k := k')).2 ⟨by omega, hbad, rfl⟩, hinstr] at hd
  exact hd

/-- The payload bytes after `C4` that say what `pay` says after `C5` (R95, R96). -/
theorem vex3_of_vex2 (pay : Byte) :
    let b1 := pay &&& 0x80 ||| 0x61
    let pay' := pay &&& 0x7F
    b1.extractLsb' 0 5 = 0b00001#5 ∧ b1.getLsbD 7 = pay.getLsbD 7 ∧ b1.getLsbD 6 = true ∧ b1.getLsbD 5 = true
      ∧ pay'.extractLsb' 0 2 = pay.extractLsb' 0 2 ∧ pay'.getLsbD 2 = pay.getLsbD 2
      ∧ pay'.extractLsb' 3 4 = pay.extractLsb' 3 4 := by
  revert pay
  decide +kernel

/-- R93: one more `66` before a legacy SSE encoding. -/
theorem Parse.decode_66 {P : Parse} (hkind : P.body.head.kind = .legacy) (hbad : P.body.bad = false)
    (hlt : P.body.len P.before < 15) (rest : List Byte) :
    Sys2Proof.decode (0x66 :: (P.bytes ++ rest)) = .ok (oneLonger (P.body.instr P.before)) := by
  have hseen : seen (0x66 :: P.pre) = seen P.pre := by
    obtain ⟨h66, -, -⟩ := P.body.headForm.legacy_mandatory hkind
    simp only [seen, decide_eq_true_eq] at h66
    simp [seen, h66, isSegmentByte]
  have hform : HeadForm (seen (0x66 :: P.pre)) P.rex P.body.code P.body.head := by
    rw [hseen]
    exact P.body.headForm
  rw [P.decode_one_more (by decide) (by decide) hform hbad hlt, hseen, Body.instr, oneLonger_assemble]

/-- R100: one more `67` before any encoding. -/
theorem Parse.decode_67 {P : Parse} (hbad : P.body.bad = false) (hlt : P.body.len P.before < 15) (rest : List Byte) :
    Sys2Proof.decode (0x67 :: (P.bytes ++ rest)) =
      .ok (respell (fun m => { m with addr32 := true }) (· + 1) (P.body.instr P.before)) := by
  have hseen : seen (0x67 :: P.pre) = { seen P.pre with addrsize := true } := by
    simp [seen, isSegmentByte]
  have hform : HeadForm (seen (0x67 :: P.pre)) P.rex P.body.code P.body.head := by
    rw [hseen]
    exact P.body.headForm.congr rfl rfl rfl rfl
  rw [P.decode_one_more (by decide) (by decide) hform hbad hlt, hseen, Body.instr, respell_assemble (a' := true) fun _ => rfl]

section
variable {pre tl : List Byte} {i : Instr} (hpre : ∀ b ∈ pre, isLegacyPrefix b) (hlt : i.len < 15)
include hpre hlt

/-- R94: the REX byte `40` has no bit set. -/
theorem decode_40 (h : decode (pre ++ 0x0F :: tl) = .ok i) : decode (pre ++ 0x40 :: 0x0F :: tl) = .ok (oneLonger i) := by
  rw [decode_prefixes hpre (by decide) (by decide)] at h
  rw [decode_prefixes_rex hpre (by decide)]
  split_ifs at h ⊢
  obtain ⟨hseg, B, rest, hB, -, hbad, rfl⟩ := decodeBody_eq_ok h
  obtain ⟨op, hcode, -, hop, hhead⟩ := B.headForm.of_0F hB
  have hform : HeadForm (seen pre) (some 0x40) B.code B.head := by
    obtain ⟨h66, hF2, hF3⟩ := B.headForm.legacy_mandatory (by rw [hhead]; rfl)
    rw [hcode, hhead]
    exact .legacy hop h66 hF2 hF3
  rw [Body.instr_len] at hlt
  rw [hB]
  exact B.decodeBody_oneLonger hseg hform (by omega) hbad hlt rest

/-- R96: the head after `C4` in place of the one after `C5`. -/
theorem decode_C4_of_C5 {pay : Byte} (h : decode (pre ++ 0xC5 :: pay :: tl) = .ok i) :
    decode (pre ++ 0xC4 :: (pay &&& 0x80 ||| 0x61) :: (pay &&& 0x7F) :: tl) = .ok (oneLonger i) := by
  rw [decode_prefixes hpre (by decide) (by decide)] at h ⊢
  split_ifs at h ⊢
  obtain ⟨hseg, B, rest, hB, -, hbad, rfl⟩ := decodeBody_eq_ok h
  obtain ⟨op, hcode, rfl, hop, hpp, hhead⟩ := B.headForm.of_C5 hB
  obtain ⟨hmap, hr, hx, hb, hpp', hl, hv⟩ := vex3_of_vex2 pay
  have hform : HeadForm (seen pre) none [0xC4, pay &&& 0x80 ||| 0x61, pay &&& 0x7F, op] B.head := by
    have h3 := HeadForm.vex3 (p := seen pre) (rex := none) hop (hpp'.trans hpp) hmap
    rw [hhead]
    rwa [vexFields, hr, hx, hb, hl, hv] at h3
  rw [Body.instr_len] at hlt
  exact B.decodeBody_oneLonger hseg hform (by rw [hcode]; rfl) hbad hlt rest

end

/-- Settles O3: the four spellings, each by its law. -/
theorem longerSpellingsDifferOnlyInLength : Obligations.LongerSpellingsDifferOnlyInLength := by
  refine ⟨fun bs i h hlt => ?_, fun pre tl i hpre hlt => ⟨decode_40 hpre hlt, fun pay => decode_C4_of_C5 hpre hlt⟩⟩
  obtain ⟨P, rest, rfl, -, hbad, rfl⟩ := decode_eq_ok h
  rw [Body.instr_len] at hlt
  exact ⟨fun henc => P.decode_66 (encodingOf_assemble.1 henc) hbad hlt rest, P.decode_67 hbad hlt rest⟩

/-! ## Another head in the place of one that was read -/

/-- A head and an operand with an illegal field are `#UD` (R109 step 7). -/
theorem decodeBody_ud {p : Prefixes} {rex : Option Byte} {c d : List Byte} {h : Head} {reg : BitVec 3} {rm : RmOperand}
    {k : Nat} (hseg : p.segment = false) (hform : HeadForm p rex c h) (hop : OperandForm h.x h.b d reg rm)
    (h15 : k + c.length + rm.size ≤ 15) (hbad : h.bad = true ∨ zeroingStore h rm = true) (rest : List Byte) :
    decodeBody p rex k (c ++ (d ++ rest)) = .error .ud := by
  let B : Body p rex := ⟨c, h, d, reg, rm, hform, hop⟩
  exact (B.decodeBody hseg k rest).trans (judge_eq_ud h15 hbad)

/-- Two byte sequences after the same `67` bytes, of which the first decodes. -/
theorem decode_replaced {n : Nat} {a : Byte} {t t' : List Byte} {i : Instr} (ha : prefixOf a = none ∧ ¬ isRex a)
    (h : decode (List.replicate n 0x67 ++ a :: t) = .ok i)
    (hud : ∀ (p : Prefixes) (B : Body p none) (rest : List Byte), p.segment = false → a :: t = B.code ++ (B.tail ++ rest) →
      B.len n ≤ 15 → B.bad = false → decodeBody p none n (a :: t') = .error .ud) :
    decode (List.replicate n 0x67 ++ a :: t') = .error .ud := by
  have h67 : ∀ b ∈ List.replicate n (0x67 : Byte), isLegacyPrefix b := fun b hb => by
    rw [List.eq_of_mem_replicate hb]
    decide
  rw [decode_prefixes h67 ha.1 ha.2, List.length_replicate] at h ⊢
  split_ifs at h ⊢
  obtain ⟨hseg, B, rest, hB, h15, hbad, -⟩ := decodeBody_eq_ok h
  exact hud _ B rest hseg hB h15 hbad

/-- The bits of the byte that holds `vvvv` other than `vvvv` (R95 to R97). -/
theorem extract_low2 {b c : Byte} (h : b.extractLsb' 0 3 = c.extractLsb' 0 3) : b.extractLsb' 0 2 = c.extractLsb' 0 2 := by
  have hlow (b : Byte) : b.extractLsb' 0 2 = (b.extractLsb' 0 3).extractLsb' 0 2 := by
    revert b
    decide +kernel
  rw [hlow, h, ← hlow]

/-- Settles O7: the head with the other `vvvv` stands there and is `bad`. -/
theorem reservedVvvvIsInvalidOpcode : Obligations.ReservedVvvvIsInvalidOpcode := by
  intro n pay pay' p0 p2 tail i hv hlow h7
  have hpp := extract_low2 hlow
  have hvne : (pay'.extractLsb' 3 4 != 0b1111#4) = true := bne_iff_ne.2 hv
  refine ⟨fun h => ?_, fun h => ?_, fun h => ?_⟩ <;>
    refine decode_replaced (by decide) h fun p B rest hseg hB h15 _ => ?_
  · obtain ⟨op, hcode, rfl, hop, hp, hhead⟩ := B.headForm.of_C5 hB
    have hoperand := B.operandForm
    rw [hhead] at hoperand
    rw [Body.len, hcode] at h15
    exact decodeBody_ud hseg (.vex2 hop (hpp.trans hp)) hoperand h15 (.inl (by simp [vexFields, hvne])) rest
  · obtain ⟨op, hcode, rfl, hop, hmap, hp, hhead⟩ := B.headForm.of_C4 hB
    have hoperand := B.operandForm
    rw [hhead] at hoperand
    rw [Body.len, hcode] at h15
    exact decodeBody_ud hseg (.vex3 hop (hpp.trans hp) hmap) hoperand h15 (.inl (by simp [vexFields, hvne])) rest
  · obtain ⟨op, hcode, rfl, hop, hmap, hp, hhead⟩ := B.headForm.of_62 hB
    have hoperand := B.operandForm
    rw [hhead] at hoperand
    rw [Body.len, hcode] at h15
    exact decodeBody_ud hseg (.evex hop hmap (hpp.trans hp)) hoperand h15
      (.inl (by simp [evexFields, evexReserved, hvne])) rest

/-! ## Another operand in the place of one that was read -/

/-- The address form with other extension bits (R94 to R97, R99). -/
def AddrForm.withBits (x b : Bool) : AddrForm → AddrForm
  | .base r d => .base (num4 b (low3 r)) d
  | .sib r i s d => .sib (num4 b (low3 r)) (num4 x (low3 i)) s d
  | .sibNoBase i s d => .sibNoBase (num4 x (low3 i)) s d
  | .ripRel d => .ripRel d

/-- The operand with other extension bits. -/
def RmOperand.withBits (x b : Bool) : RmOperand → RmOperand
  | .reg n => .reg n
  | .mem a => .mem (a.withBits x b)

theorem RmOperand.size_withBits (x b : Bool) (rm : RmOperand) : (rm.withBits x b).size = rm.size := by
  cases rm with
  | reg => rfl
  | mem a => cases a <;> rfl

/-- The extension bits go into the register numbers and nowhere else (R99). -/
theorem decodeAddr_withBits (x b x' b' : Bool) (mod : BitVec 2) (rm : BitVec 3) (bs : List Byte) :
    decodeAddr x' b' mod rm bs = (decodeAddr x b mod rm bs).map (·.withBits x' b') := by
  unfold decodeAddr
  split
  · cases bs with
    | nil => rfl
    | cons sib t =>
      dsimp only
      split
      · cases takeDisp32 t <;> simp [bind, Except.bind, Except.map, AddrForm.withBits, low3_num4]
      · cases takeDisp mod t <;> simp [bind, Except.bind, Except.map, AddrForm.withBits, low3_num4]
  · split
    · cases takeDisp32 bs <;> simp [bind, Except.bind, Except.map, AddrForm.withBits]
    · cases takeDisp mod bs <;> simp [bind, Except.bind, Except.map, AddrForm.withBits, low3_num4]

theorem decodeModRm_withBits {x b : Bool} {bs : List Byte} {reg : BitVec 3} {rm : RmOperand}
    (h : decodeModRm x b bs = .ok (reg, rm)) (x' b' : Bool) : decodeModRm x' b' bs = .ok (reg, rm.withBits x' b') := by
  cases bs with
  | nil => cases h
  | cons m t =>
    simp only [decodeModRm] at h ⊢
    split at h
    next hm =>
      cases h
      rw [if_pos hm]
      rfl
    next hm =>
      rw [if_neg hm, decodeAddr_withBits x b]
      cases ha : decodeAddr x b (m.extractLsb' 6 2) (m.extractLsb' 0 3) t with
      | error r => rw [ha] at h; cases h
      | ok a => rw [ha] at h; cases h; rfl

theorem OperandForm.withBits {x b : Bool} {d : List Byte} {reg : BitVec 3} {rm : RmOperand} (h : OperandForm x b d reg rm)
    (x' b' : Bool) : OperandForm x' b' d reg (rm.withBits x' b') where
  ok := (decodeModRm_ok (decodeModRm_withBits (h.decodeModRm []) x' b')).1
  length := by rw [RmOperand.size_withBits, h.length]
  decodeModRm tl := decodeModRm_withBits (h.decodeModRm tl) x' b'

/-- `mod` says whether the operand is in memory (R98, R99). -/
theorem OperandForm.modrm {x b : Bool} {d : List Byte} {reg : BitVec 3} {rm : RmOperand} (h : OperandForm x b d reg rm) :
    ∃ m t, d = m :: t ∧ (m.extractLsb' 6 2 ≠ 0b11#2 ↔ ∃ a, rm = .mem a) := by
  have hd := h.decodeModRm []
  cases d with
  | nil => cases hd
  | cons m t =>
    refine ⟨m, t, rfl, ?_⟩
    simp only [List.cons_append, Sys2Proof.decodeModRm] at hd
    split at hd
    next hm => cases hd; simp [hm]
    next hm =>
      cases ha : decodeAddr x b (m.extractLsb' 6 2) (m.extractLsb' 0 3) (t ++ []) with
      | error r => rw [ha] at hd; cases hd
      | ok a => rw [ha] at hd; cases hd; simp [hm]

/-- R103, R104: the reserved values that do not rest on the operand. -/
theorem evexReserved_iff (p0 p1 p2 : Byte) :
    evexReserved p0 p1 p2 = true ↔
      p1.extractLsb' 3 4 ≠ 0b1111#4 ∨ p0.extractLsb' 2 2 ≠ 0b00#2 ∨ p1.getLsbD 2 = false ∨ p2.getLsbD 3 = false
        ∨ p2.extractLsb' 5 2 = 0b11#2 ∨ p2.getLsbD 4 = true ∨ (p2.getLsbD 7 = true ∧ p2.extractLsb' 0 3 = 0b000#3) := by
  simp only [evexReserved, Bool.or_eq_true, Bool.and_eq_true, bne_iff_ne, beq_iff_eq, Bool.not_eq_true', or_assoc, or_left_comm]

/-- R104: zeroing with a memory destination. -/
theorem zeroingStore_evex (p : Prefixes) (rex : Option Byte) (p0 p1 p2 op : Byte) (rm : RmOperand) :
    zeroingStore (evexFields p rex p0 p1 p2 op) rm = true ↔ p2.getLsbD 7 = true ∧ op = 0x7F ∧ ∃ a, rm = .mem a := by
  cases rm <;> simp [zeroingStore, evexFields]

/-- Settles O8: the head with the reserved value stands there, the operand with its extension bits too, and they are illegal. -/
theorem reservedEvexValuesAreInvalidOpcode : Obligations.ReservedEvexValuesAreInvalidOpcode := by
  intro n p0 p1 p2 q0 q1 q2 op modrm tail i h hmap hpp hres
  refine decode_replaced (by decide) h fun p B rest hseg hB h15 _ => ?_
  obtain ⟨op', hcode, htail, hop, -, -, -⟩ := B.headForm.of_62 hB
  obtain ⟨rfl, hrest⟩ := List.cons.inj htail
  have hoperand := B.operandForm.withBits (!q0.getLsbD 6) (!q0.getLsbD 5)
  obtain ⟨m, t, hm, hmem⟩ := hoperand.modrm
  obtain rfl : modrm = m := by
    rw [hm] at hrest
    exact (List.cons.inj hrest).1
  rw [Body.len, hcode, ← RmOperand.size_withBits] at h15
  rw [hrest]
  refine decodeBody_ud hseg (.evex (p2 := q2) hop hmap hpp) hoperand h15 ?_ rest
  rw [zeroingStore_evex, ← hmem, evexFields, Bool.or_eq_true, evexReserved_iff, or_assoc]
  refine .inr (Or.imp_left .inr ?_)
  simpa only [or_assoc] using hres

/-! ## The causes of `#UD` -/

/-- R93: the legacy prefixes that are no segment override. -/
theorem legacyPrefix_of_noSegment {pre : List Byte} (hpre : ∀ b ∈ pre, isLegacyPrefix b)
    (hseg : (seen pre).segment = false) : ∀ b ∈ pre, b ∈ [(0x66 : Byte), 0x67, 0xF0, 0xF2, 0xF3] := by
  have hbyte : ∀ b, isLegacyPrefix b → isSegmentByte b = false → b ∈ [(0x66 : Byte), 0x67, 0xF0, 0xF2, 0xF3] := by
    decide +kernel
  intro b hb
  simp only [seen, List.any_eq_false, Bool.not_eq_true] at hseg
  exact hbyte b (hpre b hb) (hseg b hb)

/-- R201 (a), (b): why a VEX or EVEX head is `bad`: a byte before it, or a field of its own. -/
theorem bad_causes {pre : List Byte} {rex : Option Byte} {own : Bool} {C : Prop}
    (h : (rex.isSome || (seen pre).illegalBeforeVex || own) = true) (hC : own = true → C) :
    0xF0#8 ∈ pre ∨ 0x66#8 ∈ pre ∨ 0xF2#8 ∈ pre ∨ 0xF3#8 ∈ pre ∨ rex.toList ≠ [] ∨ C := by
  simp only [Bool.or_eq_true, Prefixes.illegalBeforeVex, seen, decide_eq_true_eq] at h
  rcases h with (hrex | ((h66 | hF2) | hF3) | hF0) | hown
  · obtain ⟨r, rfl⟩ := Option.isSome_iff_exists.1 hrex
    simp
  · exact .inr (.inl h66)
  · exact .inr (.inr (.inl hF2))
  · exact .inr (.inr (.inr (.inl hF3)))
  · exact .inl hF0
  · exact .inr (.inr (.inr (.inr (.inr (hC hown)))))

theorem zeroingStore_vex (p : Prefixes) (rex : Option Byte) (r x b : Bool) (pay op : Byte) (rm : RmOperand) :
    zeroingStore (vexFields p rex r x b pay op) rm = false := by
  cases rm <;> rfl

theorem zeroingStore_legacy (p : Prefixes) (rex : Option Byte) (op : Byte) (rm : RmOperand) :
    zeroingStore (legacyFields p rex op) rm = false := by
  cases rm <;> rfl

/-- R104: an EVEX head with a reserved value, or that zeroes a memory destination. -/
theorem evexIllegal_of_bad {p : Prefixes} {rex : Option Byte} {p0 p1 p2 op : Byte} {d rest : List Byte} {reg : BitVec 3}
    {rm : RmOperand} {x b : Bool} (hop : OperandForm x b d reg rm)
    (h : evexReserved p0 p1 p2 = true ∨ zeroingStore (evexFields p rex p0 p1 p2 op) rm = true) :
    evexIllegal p0 p1 p2 op (d ++ rest) := by
  rcases h with h | h
  · rw [evexReserved_iff] at h
    simp only [evexIllegal, ← or_assoc] at h ⊢
    exact .inl h
  · obtain ⟨hz, hop7F, hmem⟩ := (zeroingStore_evex ..).1 h
    obtain ⟨m, t, rfl, hmod⟩ := hop.modrm
    simp only [evexIllegal, ← or_assoc]
    exact .inr ⟨hz, hop7F, m, t ++ rest, rfl, hmod.2 hmem⟩

/-- `#UD` is answered for bytes that are read to the end and have an illegal field. -/
theorem decode_eq_ud {bs : List Byte} (h : decode bs = .error .ud) :
    ∃ (P : Parse) (rest : List Byte), bs = P.bytes ++ rest ∧ P.body.bad = true := by
  rcases decode_answers bs with e | ⟨_, e⟩ | ⟨_, _, _, _, _, e⟩ | ⟨P, rest, rfl⟩
  · rw [h] at e; cases e
  · rw [h] at e; cases e
  · rw [h] at e; cases e
  · rw [P.decode, Body.judge_eq] at h
    split_ifs at h with hlong hbad
    · cases h
    · exact ⟨P, rest, rfl, hbad⟩

/-- Settles O11: the four heads, each with the causes of its `bad`. -/
theorem invalidOpcodeOnlyForTheEighteenEncodings : Obligations.InvalidOpcodeOnlyForTheEighteenEncodings := by
  intro bs h
  obtain ⟨⟨pre, rex, ⟨code, head, d, reg, rm, hform, hoperand⟩, hpre, hlt, hseg, hrex⟩, rest, rfl, hbad⟩ := decode_eq_ud h
  have hrex' : rex.toList = [] ∨ ∃ r, rex.toList = [r] ∧ r.extractLsb' 4 4 = 4#4 := by
    cases rex with
    | none => exact .inl rfl
    | some r => exact .inr ⟨r, rfl, hrex r rfl⟩
  have hpre' := legacyPrefix_of_noSegment hpre hseg
  simp only [Body.bad, Bool.or_eq_true] at hbad
  simp only [Parse.bytes, List.append_assoc]
  cases hform with
  | @legacy op hop h66 hF2 hF3 =>
    rw [zeroingStore_legacy] at hbad
    simp only [legacyFields, seen, decide_eq_true_eq, Bool.false_eq_true, or_false] at hbad
    simp only [seen, decide_eq_true_eq, decide_eq_false_iff_not] at h66 hF2 hF3
    exact ⟨pre, rex.toList, d ++ rest, op, (isMoveOpcode_iff op).1 hop, hpre', hrex', .inl ⟨rfl, h66, hF2, hF3, hbad⟩⟩
  | @vex2 pay op hop hpp =>
    simp only [zeroingStore_vex, Bool.false_eq_true, or_false] at hbad
    have hcauses := bad_causes hbad bne_iff_ne.1
    exact ⟨pre, rex.toList, d ++ rest, op, (isMoveOpcode_iff op).1 hop, hpre', hrex',
      .inr (.inl ⟨pay, rfl, hpp, hcauses⟩)⟩
  | @vex3 b1 pay op hop hpp hmap =>
    simp only [zeroingStore_vex, Bool.false_eq_true, or_false] at hbad
    have hcauses := bad_causes hbad bne_iff_ne.1
    exact ⟨pre, rex.toList, d ++ rest, op, (isMoveOpcode_iff op).1 hop, hpre', hrex',
      .inr (.inr (.inl ⟨b1, pay, rfl, hmap, hpp, hcauses⟩))⟩
  | @evex p0 p1 p2 op hop hmap hpp =>
    rw [evexFields, ← Bool.or_eq_true, Bool.or_assoc] at hbad
    have hcauses := bad_causes hbad fun hown => evexIllegal_of_bad (rest := rest) hoperand (Bool.or_eq_true_iff.1 hown)
    exact ⟨pre, rex.toList, d ++ rest, op, (isMoveOpcode_iff op).1 hop, hpre', hrex',
      .inr (.inr (.inr ⟨p0, p1, p2, rfl, hmap, hpp, hcauses⟩))⟩

end Sys2Proof
end

section
/-! SUPPORT. The bits that the decoder ignores (spec/30_encoding.md R94, R98, R99, R105). -/

namespace Sys2Proof
open Machine

/-! ## The decoder after a head -/

/-- R109 steps 5 to 8 after the head `h`, which ended at byte `k`. -/
def finish (h : Head) (addr32 : Bool) (k : Nat) (bs : List Byte) : Except Reject Instr := do
  let (reg, rm) ← decodeModRm h.x h.b bs
  judge h addr32 reg rm (k + rm.size)

section
variable (p : Prefixes) (rex : Option Byte) (k : Nat) (t : List Byte)

theorem decodeBody_legacy (op : Byte) :
    decodeBody p rex k (0x0F :: op :: t) =
      if p.segment then .error (.notInScope .segmentOverride)
      else if !isMoveOpcode op then .error (.notInScope .opcode)
      else if p.repne || p.rep || !p.opsize then .error (.notInScope .otherMandatoryPrefix)
      else finish (legacyFields p rex op) p.addrsize (k + 2) t := by
  have hhead : decodeHead p rex (0x0F :: op :: t) = legacyHead p rex (op :: t) := rfl
  simp only [decodeBody, hhead, legacyHead]
  repeat' split
  all_goals rfl

theorem decodeBody_vex3 (b1 pay op : Byte) :
    decodeBody p rex k (0xC4 :: b1 :: pay :: op :: t) =
      if p.segment then .error (.notInScope .segmentOverride)
      else if b1.extractLsb' 0 5 != 0b00001#5 || pay.extractLsb' 0 2 != 0b01#2 || !isMoveOpcode op then
        .error (.notInScope .opcode)
      else finish (vexFields p rex (!b1.getLsbD 7) (!b1.getLsbD 6) (!b1.getLsbD 5) pay op) p.addrsize (k + 4) t := by
  have hhead : decodeHead p rex (0xC4 :: b1 :: pay :: op :: t) = vex3Head p rex (b1 :: pay :: op :: t) := rfl
  simp only [decodeBody, hhead, vex3Head, vexHead]
  repeat' split
  all_goals rfl

theorem decodeBody_evex (p0 p1 p2 op : Byte) :
    decodeBody p rex k (0x62 :: p0 :: p1 :: p2 :: op :: t) =
      if p.segment then .error (.notInScope .segmentOverride)
      else if p0.extractLsb' 0 2 != 0b01#2 || p1.extractLsb' 0 2 != 0b01#2 || !isMoveOpcode op then
        .error (.notInScope .opcode)
      else finish (evexFields p rex p0 p1 p2 op) p.addrsize (k + 5) t := by
  have hhead : decodeHead p rex (0x62 :: p0 :: p1 :: p2 :: op :: t) = evexHead p rex (p0 :: p1 :: p2 :: op :: t) := rfl
  simp only [decodeBody, hhead, evexHead]
  by_cases hs : p.segment = true
  · rw [if_pos hs, if_pos hs]
  · rw [if_neg hs, if_neg hs]
    by_cases hc : (p0.extractLsb' 0 2 != 0b01#2 || p1.extractLsb' 0 2 != 0b01#2 || !isMoveOpcode op) = true
    · rw [if_pos hc, if_pos hc]
      rfl
    · rw [if_neg hc, if_neg hc]
      rfl

end

/-! ## `X` and `B` where no register number has them -/

/-- The instruction has no field `X` or `B` of a register operand (R98). -/
theorem judge_memBits (h : Head) (x b addr32 : Bool) (reg : BitVec 3) (a : AddrForm) (len : Nat) :
    judge { h with x, b } addr32 reg (.mem a) len = judge h addr32 reg (.mem a) len := by
  obtain ⟨kind, op, rHi, r, x', b', bad⟩ := h
  cases kind with
  | legacy => simp only [judge, zeroingStore, assemble_legacyMem]
  | vex l256 => simp only [judge, zeroingStore, assemble_vexMem]
  | evex es vl mask => simp only [judge, zeroingStore, assemble_evexMem]

/-- R94, R98: `X` is a bit of an index register, or of a register operand of an EVEX encoding. -/
theorem finish_x {modrm : Byte} (hsib : noSib modrm) {h : Head}
    (hk : (∀ es vl mask, h.kind ≠ .evex es vl mask) ∨ modrm.extractLsb' 6 2 ≠ 0b11#2) (x addr32 : Bool) (k : Nat)
    (t : List Byte) : finish { h with x } addr32 k (modrm :: t) = finish h addr32 k (modrm :: t) := by
  by_cases hmod : modrm.extractLsb' 6 2 = 0b11#2
  · have hkind := hk.resolve_right (not_not.2 hmod)
    obtain ⟨kind, op, rHi, r, x', b', bad⟩ := h
    cases kind with
    | legacy => simp only [finish, decodeModRm, if_pos hmod]; rfl
    | vex l256 => simp only [finish, decodeModRm, if_pos hmod]; rfl
    | evex es vl mask => exact absurd rfl (hkind es vl mask)
  · have hrm := hsib.resolve_left hmod
    have haddr : decodeAddr x h.b (modrm.extractLsb' 6 2) (modrm.extractLsb' 0 3) t
        = decodeAddr h.x h.b (modrm.extractLsb' 6 2) (modrm.extractLsb' 0 3) t := by
      simp only [decodeAddr, if_neg hrm]
    simp only [finish, decodeModRm, if_neg hmod, haddr]
    cases decodeAddr h.x h.b (modrm.extractLsb' 6 2) (modrm.extractLsb' 0 3) t with
    | error r => rfl
    | ok a => exact judge_memBits h x h.b addr32 _ a _

/-- R94, R99: `B` is a bit of a base register, or of a register operand. -/
theorem finish_b {modrm next : Byte} (hbase : noBase modrm next) (h : Head) (b addr32 : Bool) (k : Nat) (t : List Byte) :
    finish { h with b } addr32 k (modrm :: next :: t) = finish h addr32 k (modrm :: next :: t) := by
  obtain ⟨hmod, hrm⟩ := hbase
  have h00 : ¬ (0b00#2 : BitVec 2) = 0b11#2 := by decide
  have haddr : decodeAddr h.x b 0b00#2 (modrm.extractLsb' 0 3) (next :: t)
      = decodeAddr h.x h.b 0b00#2 (modrm.extractLsb' 0 3) (next :: t) := by
    rcases hrm with hrip | ⟨hsib, hnext⟩
    · rw [hrip]
      rfl
    · rw [hsib]
      simp only [decodeAddr, if_true, hnext, and_self]
  simp only [finish, decodeModRm, hmod, if_neg h00, haddr]
  cases decodeAddr h.x h.b 0b00#2 (modrm.extractLsb' 0 3) (next :: t) with
  | error r => rfl
  | ok a => exact judge_memBits h h.x b addr32 _ a _

/-! ## Bytes that differ in one bit -/

theorem rex_xor (rex : Byte) :
    (isRex rex → isRex (rex ^^^ 0x08) ∧ isRex (rex ^^^ 0x02) ∧ isRex (rex ^^^ 0x01))
    ∧ (∀ i < 3, (rex ^^^ 0x08).getLsbD i = rex.getLsbD i)
    ∧ (rex ^^^ 0x02).getLsbD 2 = rex.getLsbD 2 ∧ (rex ^^^ 0x02).getLsbD 0 = rex.getLsbD 0
    ∧ (rex ^^^ 0x01).getLsbD 2 = rex.getLsbD 2 ∧ (rex ^^^ 0x01).getLsbD 1 = rex.getLsbD 1 := by
  revert rex
  decide +kernel

/-- `W` of a VEX payload byte stands apart from its other fields (R96). -/
theorem pay_xor (pay : Byte) :
    (pay ^^^ 0x80).extractLsb' 0 2 = pay.extractLsb' 0 2 ∧ (pay ^^^ 0x80).getLsbD 2 = pay.getLsbD 2
    ∧ (pay ^^^ 0x80).extractLsb' 3 4 = pay.extractLsb' 3 4 := by
  revert pay
  decide +kernel

/-- `X` and `B` of the byte after `C4` or `62` stand apart from its other fields (R96, R97). -/
theorem payload_xor (q : Byte) {m : Byte} (hm : m = 0x40 ∨ m = 0x20) :
    (q ^^^ m).extractLsb' 0 5 = q.extractLsb' 0 5 ∧ (q ^^^ m).extractLsb' 0 2 = q.extractLsb' 0 2
      ∧ (q ^^^ m).extractLsb' 2 2 = q.extractLsb' 2 2 ∧ (q ^^^ m).getLsbD 7 = q.getLsbD 7
      ∧ (q ^^^ m).getLsbD 4 = q.getLsbD 4 := by
  revert q
  rcases hm with rfl | rfl <;> decide +kernel

theorem payload_xor_other (q : Byte) : (q ^^^ 0x40).getLsbD 5 = q.getLsbD 5 ∧ (q ^^^ 0x20).getLsbD 6 = q.getLsbD 6 := by
  revert q
  decide +kernel

/-! ## The decoder on such bytes -/

theorem decode_congr_rex {pre : List Byte} (hpre : ∀ b ∈ pre, isLegacyPrefix b) {r r' : Byte} (hr : isRex r)
    (hr' : isRex r') {t : List Byte} (h : ∀ p k, decodeBody p (some r') k t = decodeBody p (some r) k t) :
    decode (pre ++ r' :: t) = decode (pre ++ r :: t) := by
  rw [decode_prefixes_rex hpre hr, decode_prefixes_rex hpre hr', h]

theorem decode_congr_head {pre : List Byte} (hpre : ∀ b ∈ pre, isLegacyPrefix b) {a : Byte}
    (ha : prefixOf a = none ∧ ¬ isRex a) {t t' : List Byte}
    (h : ∀ p k, decodeBody p none k (a :: t') = decodeBody p none k (a :: t)) :
    decode (pre ++ a :: t') = decode (pre ++ a :: t) := by
  rw [decode_prefixes hpre ha.1 ha.2, decode_prefixes hpre ha.1 ha.2, h]

/-- R94: `W` of a REX byte is not read. -/
theorem decodeBody_rexW (p : Prefixes) (r : Byte) (k : Nat) (t : List Byte) :
    decodeBody p (some (r ^^^ 0x08)) k t = decodeBody p (some r) k t := by
  obtain ⟨-, hbits, -⟩ := rex_xor r
  have hleg : legacyHead p (some (r ^^^ 0x08)) = legacyHead p (some r) := by
    funext bs
    cases bs with
    | nil => rfl
    | cons op bs => simp only [legacyHead, rexBit, hbits 2 (by decide), hbits 1 (by decide), hbits 0 (by decide)]
  have hhead : decodeHead p (some (r ^^^ 0x08)) t = decodeHead p (some r) t := by
    cases t with
    | nil => rfl
    | cons a t =>
      simp only [decodeHead, hleg]
      rfl
  simp only [decodeBody, hhead]

/-! ## The heads of such bytes -/

section
variable (p : Prefixes) (r q pay p1 p2 op : Byte)

theorem legacyFields_xorX : legacyFields p (some (r ^^^ 0x02)) op =
    { legacyFields p (some r) op with x := (r ^^^ 0x02).getLsbD 1 } := by
  obtain ⟨-, -, hr, hb, -⟩ := rex_xor r
  simp only [legacyFields, rexBit, hr, hb]

theorem legacyFields_xorB : legacyFields p (some (r ^^^ 0x01)) op =
    { legacyFields p (some r) op with b := (r ^^^ 0x01).getLsbD 0 } := by
  obtain ⟨-, -, -, -, hr, hx⟩ := rex_xor r
  simp only [legacyFields, rexBit, hr, hx]

theorem evexFields_xorX : evexFields p none (q ^^^ 0x40) p1 p2 op =
    { evexFields p none q p1 p2 op with x := !(q ^^^ 0x40).getLsbD 6 } := by
  obtain ⟨-, -, hres, hr, hR⟩ := payload_xor q (.inl rfl)
  obtain ⟨hb, -⟩ := payload_xor_other q
  simp only [evexFields, evexReserved, hb, hres, hr, hR]

theorem evexFields_xorB : evexFields p none (q ^^^ 0x20) p1 p2 op =
    { evexFields p none q p1 p2 op with b := !(q ^^^ 0x20).getLsbD 5 } := by
  obtain ⟨-, -, hres, hr, hR⟩ := payload_xor q (.inr rfl)
  obtain ⟨-, hx⟩ := payload_xor_other q
  simp only [evexFields, evexReserved, hx, hres, hr, hR]

theorem legacyFields_kind_ne (rex : Option Byte) (es : ElemSize) (vl : VecLen) (mask : Masking) :
    (legacyFields p rex op).kind ≠ .evex es vl mask := HeadKind.noConfusion

theorem vexFields_kind_ne (r x b : Bool) (es : ElemSize) (vl : VecLen) (mask : Masking) :
    (vexFields p none r x b pay op).kind ≠ .evex es vl mask := HeadKind.noConfusion

theorem vexFields_xorW (r x b : Bool) : vexFields p none r x b (pay ^^^ 0x80) op = vexFields p none r x b pay op := by
  obtain ⟨-, hl, hv⟩ := pay_xor pay
  simp only [vexFields, hl, hv]

end

/-- Settles O2: one clause for each bit, of each head that has it. -/
theorem ignoredBitsDoNotChangeTheDecoding : Obligations.IgnoredBitsDoNotChangeTheDecoding := by
  intro pre tl hpre
  refine ⟨fun rex hrex => ?_, fun b1 pay => ?_,
    fun op modrm hsib => ⟨fun rex hrex => ?_, fun b1 pay => ?_, fun p0 p1 p2 hmod => ?_⟩,
    fun op modrm next hbase => ⟨fun rex hrex => ?_, fun b1 pay => ?_, fun p0 p1 p2 => ?_⟩⟩
  · exact decode_congr_rex hpre hrex ((rex_xor rex).1 hrex).1 fun p k => decodeBody_rexW p rex k tl
  · refine decode_congr_head hpre (by decide) fun p k => ?_
    cases tl with
    | nil => rfl
    | cons op t => rw [decodeBody_vex3, decodeBody_vex3, vexFields_xorW, (pay_xor pay).1]
  · refine decode_congr_rex hpre hrex ((rex_xor rex).1 hrex).2.1 fun p k => ?_
    rw [decodeBody_legacy, decodeBody_legacy, legacyFields_xorX, finish_x hsib (.inl (legacyFields_kind_ne _ _ _))]
  · obtain ⟨hmap, -, -, hr, -⟩ := payload_xor b1 (.inl rfl)
    obtain ⟨hb, -⟩ := payload_xor_other b1
    refine decode_congr_head hpre (by decide) fun p k => ?_
    have hx := finish_x hsib (.inl (vexFields_kind_ne p pay op (!b1.getLsbD 7) (!b1.getLsbD 6) (!b1.getLsbD 5)))
      (!(b1 ^^^ 0x40).getLsbD 6) p.addrsize (k + 4) tl
    rw [decodeBody_vex3, decodeBody_vex3, hmap, hr, hb, ← hx, vexFields, vexFields]
  · obtain ⟨-, hmap, -⟩ := payload_xor p0 (.inl rfl)
    refine decode_congr_head hpre (by decide) fun p k => ?_
    rw [decodeBody_evex, decodeBody_evex, evexFields_xorX, hmap, finish_x hsib (.inr hmod)]
  · refine decode_congr_rex hpre hrex ((rex_xor rex).1 hrex).2.2 fun p k => ?_
    rw [decodeBody_legacy, decodeBody_legacy, legacyFields_xorB, finish_b hbase]
  · obtain ⟨hmap, -, -, hr, -⟩ := payload_xor b1 (.inr rfl)
    obtain ⟨-, hx⟩ := payload_xor_other b1
    refine decode_congr_head hpre (by decide) fun p k => ?_
    have hb := finish_b hbase (vexFields p none (!b1.getLsbD 7) (!b1.getLsbD 6) (!b1.getLsbD 5) pay op)
      (!(b1 ^^^ 0x20).getLsbD 5) p.addrsize (k + 4) tl
    rw [decodeBody_vex3, decodeBody_vex3, hmap, hr, hx, ← hb, vexFields, vexFields]
  · obtain ⟨-, hmap, -⟩ := payload_xor p0 (.inr rfl)
    refine decode_congr_head hpre (by decide) fun p k => ?_
    rw [decodeBody_evex, decodeBody_evex, evexFields_xorB, hmap, finish_b hbase]

end Sys2Proof
end

section
/-! SUPPORT. The effective address as an exact sum (spec/30_encoding.md R99 to R101), the copies of a register to itself (R111),
and the outcome of bytes that the decoder rejects (R109; spec/60_exceptions.md R211; spec/70_reset_and_hazards.md R242). -/

namespace Sys2Proof.Machine

/-! ## The effective address -/

/-- R99: a register part is the number in the register, modulo `2^w`. -/
theorem addrReg_eq_ofInt (s : State) (w : Nat) (r : Gpr) : s.addrReg w r = BitVec.ofInt w (s.gpr r).toNat := by
  rw [State.addrReg, ← BitVec.ofNat_toNat, BitVec.ofInt_natCast]

theorem indexValue_eq_ofInt (s : State) (w : Nat) (i : Gpr) (scale : BitVec 2) :
    s.indexValue w i scale = BitVec.ofInt w (if i = 4 then 0 else (s.gpr i).toNat * 2 ^ scale.toNat) := by
  have htwo : BitVec.ofInt w (2 ^ scale.toNat) = BitVec.twoPow w scale.toNat := by
    apply BitVec.eq_of_toNat_eq
    rw [BitVec.toNat_twoPow, BitVec.toNat_ofInt]
    norm_cast
  unfold State.indexValue
  by_cases hi : i = 4
  · rw [if_pos (show i = noIndex from hi), if_pos hi]
    exact (BitVec.ofInt_ofNat w 0).symm
  · rw [if_neg (show ¬ i = noIndex from hi), if_neg hi, BitVec.shiftLeft_eq_mul_twoPow, addrReg_eq_ofInt, BitVec.ofInt_mul, htwo]

/-- R99, R101: the displacement as an exact number, a `disp8` times `n`. -/
def Disp.exact (n : Nat) : Disp → Int
  | .none => 0
  | .disp8 d => d.toInt * n
  | .disp32 d => d.toInt

theorem dispValue_eq_ofInt (w n : Nat) (d : Disp) : dispValue w n d = BitVec.ofInt w (Disp.exact n d) := by
  cases d with
  | none => exact (BitVec.ofInt_ofNat w 0).symm
  | disp8 d => rw [dispValue, Disp.exact, BitVec.ofInt_mul, BitVec.ofInt_natCast]; rfl
  | disp32 d => rfl

/-- R99: the address of the next instruction, modulo `2^w`. -/
theorem nextAddr_eq_ofInt (s : State) {w : Nat} (hw : w ≤ 64) (len : Nat) :
    (s.pc + BitVec.ofNat 64 len).setWidth w = BitVec.ofInt w (s.pc.toNat + len) := by
  rw [BitVec.setWidth_add _ _ hw, BitVec.setWidth_ofNat_of_le hw, BitVec.ofInt_add, BitVec.ofInt_natCast, BitVec.ofInt_natCast,
    BitVec.ofNat_toNat]

/-- R99: the sum is the exact sum, modulo `2^w`. -/
theorem addrSum_eq_ofInt (s : State) {w : Nat} (hw : w ≤ 64) (n len : Nat) (f : AddrForm) :
    s.addrSum w n len f = BitVec.ofInt w (exactBase s len f + exactIndex s f + exactDisp n f) := by
  cases f with
  | base b d =>
    have hd : exactDisp n (.base b d) = Disp.exact n d := by cases d <;> rfl
    rw [State.addrSum, addrReg_eq_ofInt, dispValue_eq_ofInt, hd, ← BitVec.ofInt_add, exactIndex, Int.add_zero, exactBase]
  | sib b i sc d =>
    have hd : exactDisp n (.sib b i sc d) = Disp.exact n d := by cases d <;> rfl
    rw [State.addrSum, addrReg_eq_ofInt, indexValue_eq_ofInt, dispValue_eq_ofInt, hd, ← BitVec.ofInt_add, ← BitVec.ofInt_add,
      exactIndex, exactBase]
  | sibNoBase i sc d =>
    rw [State.addrSum, indexValue_eq_ofInt, BitVec.signExtend, ← BitVec.ofInt_add, exactIndex, exactBase, exactDisp,
      Int.zero_add]
  | ripRel d =>
    rw [State.addrSum, nextAddr_eq_ofInt s hw, BitVec.signExtend, ← BitVec.ofInt_add, exactIndex, exactBase, exactDisp,
      Int.add_zero]

theorem toNat_ofInt_eq (w : Nat) (z : Int) : ((BitVec.ofInt w z).toNat : Int) = z % 2 ^ w := by
  rw [BitVec.toNat_ofInt, Int.toNat_of_nonneg (Int.emod_nonneg _ (by positivity))]
  norm_cast

theorem effAddr_short (s : State) (f : AddrForm) (n len : Nat) :
    (s.effAddr ⟨true, f⟩ n len).toNat = (s.addrSum 32 n len f).toNat := by
  have hlt := (s.addrSum 32 n len f).isLt
  simp only [State.effAddr, if_true, BitVec.toNat_setWidth]
  omega

/-- Settles O54: `addrSum_eq_ofInt` at both address widths. -/
theorem effectiveAddressIsTheSumModulo : Obligations.EffectiveAddressIsTheSumModulo := by
  rintro s ⟨addr32, f⟩ n len
  cases addr32 with
  | true => rw [effAddr_short, addrSum_eq_ofInt s (by decide), toNat_ofInt_eq]; rfl
  | false =>
    have h : s.effAddr ⟨false, f⟩ n len = s.addrSum 64 n len f := rfl
    rw [h, addrSum_eq_ofInt s (by decide), toNat_ofInt_eq]
    rfl

/-- R100: the sum with 32-bit addressing reads the low halves only. -/
theorem addrSum32_congr {s t : State} (hx : ∀ r, (t.gpr r).setWidth 32 = (s.gpr r).setWidth 32)
    (hpc : t.pc.setWidth 32 = s.pc.setWidth 32) (n len : Nat) (f : AddrForm) : t.addrSum 32 n len f = s.addrSum 32 n len f := by
  have hreg (r) : t.addrReg 32 r = s.addrReg 32 r := hx r
  have hindex (i sc) : t.indexValue 32 i sc = s.indexValue 32 i sc := by rw [State.indexValue, State.indexValue, hreg]
  cases f with
  | base b d => rw [State.addrSum, State.addrSum, hreg]
  | sib b i sc d => rw [State.addrSum, State.addrSum, hreg, hindex]
  | sibNoBase i sc d => rw [State.addrSum, State.addrSum, hindex]
  | ripRel d =>
    rw [State.addrSum, State.addrSum, BitVec.setWidth_add _ _ (by decide), BitVec.setWidth_add _ _ (by decide), hpc]

/-- Settles O55: a sum modulo `2^32`. -/
theorem shortAddressIsCanonicalAndReadsLowHalves : Obligations.ShortAddressIsCanonicalAndReadsLowHalves := by
  intro s f n len lb
  have hlt : (s.effAddr ⟨true, f⟩ n len).toNat < 2 ^ 32 := by
    rw [effAddr_short]
    exact (s.addrSum 32 n len f).isLt
  refine ⟨hlt, fun hlb => ?_, fun t hx hpc => ?_⟩
  · have htop : (s.effAddr ⟨true, f⟩ n len).toNat >>> (lb - 1) = 0 := by
      rw [Nat.shiftRight_eq_div_pow]
      exact Nat.div_eq_of_lt (hlt.trans_le (Nat.pow_le_pow_right (by decide) (by omega)))
    simp only [canonical, htop, beq_self_eq_true, Bool.true_or]
  · simp only [State.effAddr, if_true, addrSum32_congr hx hpc]

/-! ## Copies of a register to itself -/

theorem writeLow_self (w : Nat) (e : VecWord) : writeLow w e e = e := by
  apply BitVec.eq_of_getLsbD_eq
  intro j _
  rw [getLsbD_writeLow, ite_self]

/-- R12: merging the elements of a value into the value itself changes nothing below the last element. -/
theorem maskedMove_self (es : ElemSize) (vl : VecLen) (e : VecWord) (sel : Nat → Bool) :
    maskedMove es e (elemOf es e) sel false (elemCount vl es) = lowBits vl.bits e := by
  have hpos : 0 < es.bits := by cases es <;> decide
  apply BitVec.eq_of_getLsbD_eq
  intro j hj
  have helem : (elemOf es e (j / es.bits)).getLsbD (j % es.bits) = e.getLsbD j := by
    rw [getLsbD_elemOf, Nat.div_add_mod', decide_eq_true (Nat.mod_lt _ hpos), Bool.true_and]
  rw [getLsbD_maskedMove _ _ _ _ _ _ _ hj, elemCount_mul_bits, getLsbD_lowBits, helem]
  by_cases hvl : vl.bits ≤ j
  · simp [hvl]
  · simp [hvl, Nat.lt_of_not_le hvl]

theorem lowBits_512 (e : VecWord) : lowBits 512 e = e := by
  simp only [lowBits, BitVec.setWidth_eq]

theorem legacyCopy_self {s : State} (hg : gateOpen s.cfg .legacy) (r : VReg16) (len : Nat) :
    legacyCopy r r len s = .next { s with pc := s.pc + BitVec.ofNat 64 len } := by
  have hgate : gateSse s.cfg = none := gateOf_eq_none.2 hg
  simp only [legacyCopy, hgate, writeLow_self, setVec_vec s _ _ rfl, attempt, State.advance]

theorem evexCopy_self {s : State} (hg : gateOpen s.cfg (.evex .l512)) (es : ElemSize) (q : VReg32) (aaa : OpmaskSel) (len : Nat) :
    evexCopy es .l512 q q ⟨aaa, false⟩ len s =
    .next { s with pc := s.pc + BitVec.ofNat 64 len } := by
  have hgate : gateEvex .l512 s.cfg = none := gateOf_eq_none.2 hg
  simp only [evexCopy, hgate, maskedMove_self, VecLen.bits, lowBits_512, setVec_vec s _ _ rfl, attempt, State.advance]

/-- Settles O41: the value written is the value of the register. -/
theorem selfCopiesThatChangeOnlyThePc : Obligations.SelfCopiesThatChangeOnlyThePc := by
  intro r q aaa len s
  refine ⟨fun hg => ?_, fun hg => ?_⟩
  · simp only [List.forall_mem_cons]
    exact ⟨legacyCopy_self hg r len, legacyCopy_self hg r len, List.forall_mem_nil _⟩
  · simp only [List.forall_mem_cons]
    exact ⟨evexCopy_self hg .dword q aaa len, evexCopy_self hg .dword q aaa len, evexCopy_self hg .qword q aaa len,
      evexCopy_self hg .qword q aaa len, List.forall_mem_nil _⟩

/-! ## Bytes that are rejected -/

/-- R211, R242: `n` bytes of the text that can be fetched and are rejected stop the step for that reason, however many more bytes
it fetches. -/
theorem nextInstr_of_reject {s : State} {n : Nat} {r : Reject} (hf : ∀ b < n, fetchable s (byteAddr s.pc b))
    (hd : decode (bytesAt s.mem s.pc n) = .error r) (hr : r ≠ .truncated) : nextInstr s = .error (rejectStop s r) := by
  have hpos : 0 < n := by
    rcases n with _ | n
    · exact absurd (Except.error.inj hd).symm hr
    · exact Nat.succ_pos n
  have hpc : inText s.cfg s.pc = true := by
    have h0 := (hf 0 hpos).1
    rwa [byteAddr_zero] at h0
  obtain ⟨k, hk, -, hend⟩ := fetch_text s
  have hdk : decode (bytesAt s.mem s.pc k) = .error r := by
    rcases Nat.lt_or_ge k n with hkn | hnk
    · have hwindow : k = windowSize := hend.resolve_right fun hnot => hnot (hf k hkn)
      have hstable := (decode_stable (bytesAt s.mem s.pc k)).resolve_left fun htrunc => by
        have hlen := decode_truncated htrunc
        rw [length_bytesAt, hwindow] at hlen
        exact Nat.lt_irrefl _ hlen
      obtain ⟨j, rfl⟩ := Nat.exists_eq_add_of_le hkn.le
      rwa [bytesAt_add, hstable] at hd
    · obtain ⟨j, rfl⟩ := Nat.exists_eq_add_of_le hnk
      rw [bytesAt_add]
      exact decode_error_append hd hr _
  rw [nextInstr_of_inText hpc, hk, hdk]
  rfl

/-- Settles O13: the stop of the step is the one that the rejection stands for. -/
theorem rejectedBytesBecomeTheOutcome : Obligations.RejectedBytesBecomeTheOutcome := by
  intro s n hrun hf
  have hstep {r : Reject} (hr : r ≠ .truncated) (hd : decode (bytesAt s.mem s.pc n) = .error r) :
      step s = .next (s.stop (rejectStop s r)) := by
    simp only [step, hrun, nextInstr_of_reject hf hd hr]
  exact ⟨hstep nofun, hstep nofun, fun r => hstep nofun⟩

/-- Settles O6: the decoder on each of the fourteen byte sequences. -/
theorem workedEncodingsDecode : Obligations.WorkedEncodingsDecode :=
  ⟨rfl, rfl, rfl, rfl, rfl, rfl, rfl, rfl, rfl, rfl, rfl, rfl, rfl, rfl⟩

end Sys2Proof.Machine
end

section
/-! SUPPORT. What an instruction that completes leaves when it has written one vector register or whole bytes of memory, and the
results of `MOVDQA` in its legacy SSE encodings (spec/40_movdqa_sse.md R140 to R143). -/

namespace Sys2Proof.Machine

/-! ## What an instruction that completes leaves -/

theorem attempt_of_none {o : Option Stop} (h : o = none) (s t : State) : attempt o s t = .next t := by
  rw [h]
  rfl

/-- A write of one vector register is all an instruction does besides moving `pc`. -/
theorem completesWritingVec_setVec (s : State) (dst : VReg32) (x : VecWord) (len : Nat) :
    completesWritingVec s ((s.setVec dst x).advance len) dst len :=
  ⟨⟨rfl, rfl, rfl, rfl, rfl⟩, fun n hn => setVec_vec_ne s dst n x hn, fun _ => rfl⟩

/-- A write of whole bytes is all an instruction does besides moving `pc`. -/
theorem completesWritingMem_memWrite (s : State) (ea : Addr) (x : VecWord) {n : Nat} (hn : n ≤ 2 ^ 64) (len : Nat) :
    completesWritingMem s (State.advance { s with mem := memWrite s.mem ea x n } len) ea n len :=
  ⟨⟨rfl, rfl, rfl, rfl, rfl⟩, fun _ => rfl, fun a => (readByte_memWrite s.mem ea a x n hn).2⟩

/-- R70: `CheckMem` on a whole operand that is ready. -/
theorem checkMem_of_ready {m : MemOperand} {k : AccessKind} {n len : Nat} {s : State} (hn : 0 < n)
    (h : Operand.ready ⟨m, k, n, 1, len, n, 0#3⟩ s) :
    checkMem s.cfg (stackSegment m.form) k (s.effAddr m 1 len) n (.whole n) = none := by
  rw [← elems_whole m k n len hn s]
  exact (check_eq_none ⟨hn, Nat.div_mul_cancel dvd_rfl⟩).2 h

/-! ## The legacy SSE operations when no test stops them -/

theorem legacyCopy_of_open {s : State} (hg : gateOpen s.cfg .legacy) (dst src : VReg16) (len : Nat) :
    legacyCopy dst src len s =
      .next ((s.setVec (vreg dst) (writeLow 128 (s.vec (vreg dst)) (s.vec (vreg src)))).advance len) :=
  attempt_of_none (gateOf_eq_none.2 hg) _ _

theorem legacyLoad_of_ready {dst : VReg16} {m : MemOperand} {len : Nat} {s : State} (hg : gateOpen s.cfg .legacy)
    (h : Operand.ready ⟨m, .load, 16, 1, len, 16, 0#3⟩ s) :
    legacyLoad dst m len s =
      .next ((s.setVec (vreg dst)
        (writeLow 128 (s.vec (vreg dst)) (memRead s.mem (s.effAddr m 1 len) 16))).advance len) :=
  attempt_of_none (Option.or_eq_none_iff.2 ⟨gateOf_eq_none.2 hg, checkMem_of_ready (by decide) h⟩) _ _

theorem legacyStore_of_ready {m : MemOperand} {src : VReg16} {len : Nat} {s : State} (hg : gateOpen s.cfg .legacy)
    (h : Operand.ready ⟨m, .store, 16, 1, len, 16, 0#3⟩ s) :
    legacyStore m src len s =
      .next (State.advance { s with mem := memWrite s.mem (s.effAddr m 1 len) (s.vec (vreg src)) 16 } len) :=
  attempt_of_none (Option.or_eq_none_iff.2 ⟨gateOf_eq_none.2 hg, checkMem_of_ready (by decide) h⟩) _ _

/-! ## MOVDQA -/

/-- Settles O18: both forms are `legacyCopy`, which writes the low 128 bits of one register. -/
theorem movdqaCopyResult : Obligations.MovdqaCopyResult := by
  intro dst src len s hg i hi
  have hexec : exec i s = legacyCopy dst src len s := by
    rcases List.mem_pair.1 hi with rfl | rfl <;> rfl
  refine ⟨_, hexec.trans (legacyCopy_of_open hg dst src len), completesWritingVec_setVec _ _ _ _, fun j _ => ?_⟩
  rw [advance_vec, setVec_vec_self, getLsbD_writeLow]

/-- Settles O19: bit `j` of what `MemRead` answers for 16 bytes is a bit of byte `j / 8`. -/
theorem movdqaLoadResult : Obligations.MovdqaLoadResult := by
  intro dst m len s hg hready
  refine ⟨_, legacyLoad_of_ready hg hready, completesWritingVec_setVec _ _ _ _, fun j hj => ?_⟩
  have hread : j < 128 → (memRead s.mem (s.effAddr m 1 len) 16).getLsbD j =
      (readByte s.mem (byteAddr (s.effAddr m 1 len) (j / 8))).getLsbD (j % 8) := fun hlow => by
    rw [getLsbD_memRead, decide_eq_true hj, decide_eq_true hlow, Bool.true_and, Bool.true_and]
  rw [advance_vec, setVec_vec_self, getLsbD_writeLow]
  exact ite_congr rfl hread fun _ => rfl

/-- Settles O20: `MemWrite` of 16 bytes puts byte `b` of the source at `EA + b` and leaves the bytes elsewhere. -/
theorem movdqaStoreResult : Obligations.MovdqaStoreResult := by
  intro m src len s hg hready
  have hsize : 16 ≤ 2 ^ 64 := by decide
  exact ⟨_, legacyStore_of_ready hg hready, completesWritingMem_memWrite _ _ _ hsize _,
    fun b hb => (readByte_memWrite _ _ _ _ _ hsize).1 b hb rfl⟩

end Sys2Proof.Machine
end

section
/-! SUPPORT. The results of `VMOVDQA` in its VEX encodings (spec/41_vmovdqa_vex.md R150 to R157), for each operation at every
vector length. -/

namespace Sys2Proof.Machine

theorem vecLen_bits (vl : VecLen) : vl.bits = 8 * vl.bytes := by cases vl <;> rfl

theorem vecLen_bytes_le (vl : VecLen) : vl.bytes ≤ 2 ^ 64 := by cases vl <;> decide

/-! ## The VEX operations when no test stops them -/

theorem vexCopy_of_open {s : State} (hg : gateOpen s.cfg .vex) (vl : VecLen) (dst src : VReg16) (len : Nat) :
    vexCopy vl dst src len s = .next ((s.setVec (vreg dst) (lowBits vl.bits (s.vec (vreg src)))).advance len) :=
  attempt_of_none (gateOf_eq_none.2 hg) _ _

theorem vexLoad_of_ready {vl : VecLen} {dst : VReg16} {m : MemOperand} {len : Nat} {s : State} (hg : gateOpen s.cfg .vex)
    (h : Operand.ready ⟨m, .load, vl.bytes, 1, len, vl.bytes, 0#3⟩ s) :
    vexLoad vl dst m len s =
      .next ((s.setVec (vreg dst) (lowBits vl.bits (memRead s.mem (s.effAddr m 1 len) vl.bytes))).advance len) :=
  attempt_of_none (Option.or_eq_none_iff.2 ⟨gateOf_eq_none.2 hg, checkMem_of_ready (vecLen_bytes_pos vl) h⟩) _ _

theorem vexStore_of_ready {vl : VecLen} {m : MemOperand} {src : VReg16} {len : Nat} {s : State} (hg : gateOpen s.cfg .vex)
    (h : Operand.ready ⟨m, .store, vl.bytes, 1, len, vl.bytes, 0#3⟩ s) :
    vexStore vl m src len s =
      .next (State.advance { s with mem := memWrite s.mem (s.effAddr m 1 len) (s.vec (vreg src)) vl.bytes } len) :=
  attempt_of_none (Option.or_eq_none_iff.2 ⟨gateOf_eq_none.2 hg, checkMem_of_ready (vecLen_bytes_pos vl) h⟩) _ _

/-! ## Their results -/

/-- R150, R152, R154, R156 at every vector length. -/
theorem vexCopy_result {s : State} (hg : gateOpen s.cfg .vex) (vl : VecLen) (dst src : VReg16) (len : Nat) :
    ∃ t, vexCopy vl dst src len s = .next t ∧ completesWritingVec s t (vreg dst) len
      ∧ ∀ j < 512, (t.vec (vreg dst)).getLsbD j = (decide (j < vl.bits) && (s.vec (vreg src)).getLsbD j) := by
  refine ⟨_, vexCopy_of_open hg vl dst src len, completesWritingVec_setVec _ _ _ _, fun j _ => ?_⟩
  rw [advance_vec, setVec_vec_self, getLsbD_lowBits]

/-- R151, R155 at every vector length: `MemRead` answers no bits above those of its bytes. -/
theorem vexLoad_result {vl : VecLen} (dst : VReg16) {m : MemOperand} {len : Nat} {s : State} (hg : gateOpen s.cfg .vex)
    (h : Operand.ready ⟨m, .load, vl.bytes, 1, len, vl.bytes, 0#3⟩ s) :
    ∃ t, vexLoad vl dst m len s = .next t ∧ completesWritingVec s t (vreg dst) len
      ∧ ∀ j < 512, (t.vec (vreg dst)).getLsbD j =
          (decide (j < 8 * vl.bytes) && (readByte s.mem (byteAddr (s.effAddr m 1 len) (j / 8))).getLsbD (j % 8)) := by
  refine ⟨_, vexLoad_of_ready hg h, completesWritingVec_setVec _ _ _ _, fun j hj => ?_⟩
  rw [advance_vec, setVec_vec_self, getLsbD_lowBits, getLsbD_memRead, vecLen_bits, decide_eq_true hj, Bool.true_and,
    ← Bool.and_assoc, Bool.and_self]

/-- R153, R157 at every vector length. -/
theorem vexStore_result {vl : VecLen} {m : MemOperand} (src : VReg16) {len : Nat} {s : State} (hg : gateOpen s.cfg .vex)
    (h : Operand.ready ⟨m, .store, vl.bytes, 1, len, vl.bytes, 0#3⟩ s) :
    ∃ t, vexStore vl m src len s = .next t ∧ completesWritingMem s t (s.effAddr m 1 len) vl.bytes len
      ∧ ∀ b < vl.bytes,
          readByte t.mem (byteAddr (s.effAddr m 1 len) b) = (s.vec (vreg src)).extractLsb' (8 * b) 8 :=
  ⟨_, vexStore_of_ready hg h, completesWritingMem_memWrite _ _ _ (vecLen_bytes_le vl) _,
    fun b hb => (readByte_memWrite _ _ _ _ _ (vecLen_bytes_le vl)).1 b hb rfl⟩

/-! ## VMOVDQA -/

/-- Settles O21: the four forms are `vexCopy` at 128 and at 256 bits. -/
theorem vmovdqaCopyResult : Obligations.VmovdqaCopyResult := by
  intro dst src len s hg
  have copy (vl : VecLen) := vexCopy_result hg vl dst src len
  simp only [List.forall_mem_cons]
  exact ⟨copy .l128, copy .l128, copy .l256, copy .l256, List.forall_mem_nil _⟩

/-- Settles O22: the two forms are `vexLoad` of 16 and of 32 bytes. -/
theorem vmovdqaLoadResult : Obligations.VmovdqaLoadResult := by
  intro dst m len s hg
  simp only [List.forall_mem_cons]
  exact ⟨vexLoad_result (vl := .l128) dst hg, vexLoad_result (vl := .l256) dst hg, List.forall_mem_nil _⟩

/-- Settles O23: the two forms are `vexStore` of 16 and of 32 bytes. -/
theorem vmovdqaStoreResult : Obligations.VmovdqaStoreResult := by
  intro m src len s hg
  simp only [List.forall_mem_cons]
  exact ⟨vexStore_result (vl := .l128) src hg, vexStore_result (vl := .l256) src hg, List.forall_mem_nil _⟩

end Sys2Proof.Machine
end

section
/-! SUPPORT. The EVEX operations, for each of them at every element size and vector length, and the results of `VMOVDQA32`
(spec/42_vmovdqa32_evex.md R160 to R171). -/

namespace Sys2Proof.Machine

theorem elemSize_bits (es : ElemSize) : es.bits = 8 * es.bytes := by cases es <;> rfl

theorem elemSize_bits_pos (es : ElemSize) : 0 < es.bits := by cases es <;> decide

theorem elemSize_bytes_pos (es : ElemSize) : 0 < es.bytes := by cases es <;> decide

/-! ## The masked data movements -/

/-- R12: bit `j` of what an EVEX form writes to a register, which is 0 from `VL` up. -/
theorem getLsbD_lowBits_maskedMove (es : ElemSize) (vl : VecLen) (old : VecWord) (src : Nat → VecWord) (sel : Nat → Bool)
    (z : Bool) {j : Nat} (hj : j < 512) :
    (lowBits vl.bits (maskedMove es old src sel z (elemCount vl es))).getLsbD j =
      if vl.bits ≤ j then false
      else if sel (j / es.bits) then (src (j / es.bits)).getLsbD (j % es.bits)
      else if z then false else old.getLsbD j := by
  rw [getLsbD_lowBits, getLsbD_maskedMove _ _ _ _ _ _ _ hj, elemCount_mul_bits]
  by_cases hvl : vl.bits ≤ j
  · rw [if_pos hvl, Bool.and_false]
  · rw [decide_eq_true (Nat.lt_of_not_le hvl), Bool.true_and]

/-- R12: the element that holds bit `j` has it at `j mod ES`. -/
theorem getLsbD_elemOf_div_mod (es : ElemSize) (e : VecWord) (j : Nat) :
    (elemOf es e (j / es.bits)).getLsbD (j % es.bits) = e.getLsbD j := by
  rw [getLsbD_elemOf, Nat.div_add_mod', decide_eq_true (Nat.mod_lt _ (elemSize_bits_pos es)), Bool.true_and]

/-- R62: the element of a memory operand that holds bit `j` has there bit `j mod 8` of the byte at `a + j / 8`. -/
theorem getLsbD_memElem_div_mod (m : List Host.Cell) (a : Addr) (es : ElemSize) (j : Nat) :
    (memElem m a es (j / es.bits)).getLsbD (j % es.bits) = (readByte m (byteAddr a (j / 8))).getLsbD (j % 8) := by
  have hbyte : j / es.bits * es.bytes + j % es.bits / 8 = j / 8 :=
    calc j / es.bits * es.bytes + j % es.bits / 8 = (8 * (j / es.bits * es.bytes) + j % es.bits) / 8 :=
          (Nat.mul_add_div (by decide) _ _).symm
      _ = j / 8 := by rw [Nat.mul_left_comm, ← elemSize_bits, Nat.div_add_mod']
  have hbit : j % es.bits % 8 = j % 8 := Nat.mod_mod_of_dvd j ⟨es.bytes, elemSize_bits es⟩
  rw [getLsbD_memElem _ _ _ _ _ (Nat.mod_lt _ (elemSize_bits_pos es)), hbyte, hbit]

/-- R62: byte `b` of the elements that `MemWriteMasked` is given is written exactly where its element is selected. -/
theorem readByte_memWriteMasked_byteAddr (m : List Host.Cell) (a : Addr) (es : ElemSize) (sel : Nat → Bool) (e : VecWord)
    {n b : Nat} (hn : n * es.bytes ≤ 2 ^ 64) (hb : b < n * es.bytes) :
    readByte (memWriteMasked m a es sel e n) (byteAddr a b) =
      if sel (b / es.bytes) then byteOf e b else readByte m (byteAddr a b) := by
  have hpos := elemSize_bytes_pos es
  obtain ⟨hwritten, hkept⟩ := readByte_memWriteMasked m a (byteAddr a b) es sel e n hn
  have hsplit : b / es.bytes * es.bytes + b % es.bytes = b := Nat.div_add_mod' b es.bytes
  split_ifs with hsel
  · have helem := hwritten _ ((Nat.div_lt_iff_lt_mul hpos).2 hb) _ (Nat.mod_lt b hpos) hsel
    rw [hsplit] at helem
    exact helem rfl
  · refine hkept fun j hj hselj c hc heq => hsel ?_
    have hbj : b = j * es.bytes + c := (byteAddr_inj (by omega) ((elemByte_lt hj hc).trans_le hn)).1 heq
    have hdiv : b / es.bytes = j := by
      rw [hbj, Nat.mul_comm, Nat.mul_add_div hpos, Nat.div_eq_of_lt hc, Nat.add_zero]
    rwa [hdiv]

/-- A write of selected elements is all an instruction does besides moving `pc`. -/
theorem completesWritingMem_memWriteMasked (s : State) (ea : Addr) (es : ElemSize) (sel : Nat → Bool) (x : VecWord) {n : Nat}
    (hn : n * es.bytes ≤ 2 ^ 64) (len : Nat) :
    completesWritingMem s (State.advance { s with mem := memWriteMasked s.mem ea es sel x n } len) ea (n * es.bytes) len :=
  ⟨⟨rfl, rfl, rfl, rfl, rfl⟩, fun _ => rfl, fun a hout => (readByte_memWriteMasked s.mem ea a es sel x n hn).2
    fun _ hj _ _ hc => hout _ (elemByte_lt hj hc)⟩

/-! ## The EVEX operations when no test stops them -/

/-- R70: `CheckMem` on an EVEX operand that is ready. -/
theorem checkMem_evex_of_ready {m : MemOperand} {k : AccessKind} {es : ElemSize} {vl : VecLen} {len : Nat} {aaa : OpmaskSel}
    {s : State} (h : Operand.ready ⟨m, k, vl.bytes, vl.bytes, len, es.bytes, aaa⟩ s) :
    checkMem s.cfg (stackSegment m.form) k (s.effAddr m vl.bytes len) vl.bytes (s.evexElems vl es aaa) = none := by
  rw [← elems_evex m k es vl len]
  exact (check_eq_none ⟨elemSize_bytes_pos es, Nat.div_mul_cancel (Dvd.intro_left _ (elemCount_mul_bytes vl es))⟩).2 h

theorem evexCopy_of_open {vl : VecLen} {s : State} (hg : gateOpen s.cfg (.evex vl)) (es : ElemSize) (dst src : VReg32)
    (mask : Masking) (len : Nat) :
    evexCopy es vl dst src mask len s =
      .next ((s.setVec dst (lowBits vl.bits
        (maskedMove es (s.vec dst) (elemOf es (s.vec src)) (s.selected mask.aaa) mask.z (elemCount vl es)))).advance len) :=
  attempt_of_none (gateOf_eq_none.2 hg) _ _

theorem evexLoad_of_ready {es : ElemSize} {vl : VecLen} {dst : VReg32} {mask : Masking} {m : MemOperand} {len : Nat} {s : State}
    (hg : gateOpen s.cfg (.evex vl)) (h : Operand.ready ⟨m, .load, vl.bytes, vl.bytes, len, es.bytes, mask.aaa⟩ s) :
    evexLoad es vl dst mask m len s =
      .next ((s.setVec dst (lowBits vl.bits
        (maskedMove es (s.vec dst) (memElem s.mem (s.effAddr m vl.bytes len) es) (s.selected mask.aaa) mask.z
          (elemCount vl es)))).advance len) :=
  attempt_of_none (Option.or_eq_none_iff.2 ⟨gateOf_eq_none.2 hg, checkMem_evex_of_ready h⟩) _ _

theorem evexStore_of_ready {es : ElemSize} {vl : VecLen} {m : MemOperand} {aaa : OpmaskSel} {src : VReg32} {len : Nat}
    {s : State} (hg : gateOpen s.cfg (.evex vl))
    (h : Operand.ready ⟨m, .store, vl.bytes, vl.bytes, len, es.bytes, aaa⟩ s) :
    evexStore es vl m aaa src len s =
      .next (State.advance
        { s with mem := memWriteMasked s.mem (s.effAddr m vl.bytes len) es (s.selected aaa) (s.vec src) (elemCount vl es) }
        len) :=
  attempt_of_none (Option.or_eq_none_iff.2 ⟨gateOf_eq_none.2 hg, checkMem_evex_of_ready h⟩) _ _

/-! ## Their results -/

/-- R160, R162, R164, R166, R168, R170 and their quadword forms. -/
theorem evexCopy_result (es : ElemSize) {vl : VecLen} (dst src : VReg32) (mask : Masking) (len : Nat) {s : State}
    (hg : gateOpen s.cfg (.evex vl)) :
    ∃ t, evexCopy es vl dst src mask len s = .next t ∧ completesWritingVec s t dst len
      ∧ ∀ j < 512, (t.vec dst).getLsbD j =
          if vl.bits ≤ j then false
          else if s.selected mask.aaa (j / es.bits) then (s.vec src).getLsbD j
          else if mask.z then false else (s.vec dst).getLsbD j := by
  refine ⟨_, evexCopy_of_open hg es dst src mask len, completesWritingVec_setVec _ _ _ _, fun j hj => ?_⟩
  rw [advance_vec, setVec_vec_self, getLsbD_lowBits_maskedMove _ _ _ _ _ _ hj, getLsbD_elemOf_div_mod]

/-- R161, R163, R165 and their quadword forms. -/
theorem evexLoad_result (es : ElemSize) {vl : VecLen} (dst : VReg32) (mask : Masking) {m : MemOperand} {len : Nat} {s : State}
    (hg : gateOpen s.cfg (.evex vl)) (h : Operand.ready ⟨m, .load, vl.bytes, vl.bytes, len, es.bytes, mask.aaa⟩ s) :
    ∃ t, evexLoad es vl dst mask m len s = .next t ∧ completesWritingVec s t dst len
      ∧ ∀ j < 512, (t.vec dst).getLsbD j =
          if vl.bits ≤ j then false
          else if s.selected mask.aaa (j / es.bits) then
            (readByte s.mem (byteAddr (s.effAddr m vl.bytes len) (j / 8))).getLsbD (j % 8)
          else if mask.z then false else (s.vec dst).getLsbD j := by
  refine ⟨_, evexLoad_of_ready hg h, completesWritingVec_setVec _ _ _ _, fun j hj => ?_⟩
  rw [advance_vec, setVec_vec_self, getLsbD_lowBits_maskedMove _ _ _ _ _ _ hj, getLsbD_memElem_div_mod]

/-- R167, R169, R171 and their quadword forms. -/
theorem evexStore_result (es : ElemSize) {vl : VecLen} {m : MemOperand} {aaa : OpmaskSel} (src : VReg32) {len : Nat} {s : State}
    (hg : gateOpen s.cfg (.evex vl)) (h : Operand.ready ⟨m, .store, vl.bytes, vl.bytes, len, es.bytes, aaa⟩ s) :
    ∃ t, evexStore es vl m aaa src len s = .next t ∧ completesWritingMem s t (s.effAddr m vl.bytes len) vl.bytes len
      ∧ ∀ b < vl.bytes, readByte t.mem (byteAddr (s.effAddr m vl.bytes len) b) =
          if s.selected aaa (b / es.bytes) then (s.vec src).extractLsb' (8 * b) 8
          else readByte s.mem (byteAddr (s.effAddr m vl.bytes len) b) := by
  have hfill := elemCount_mul_bytes vl es
  have hsize : elemCount vl es * es.bytes ≤ 2 ^ 64 := hfill ▸ vecLen_bytes_le vl
  have hframe := completesWritingMem_memWriteMasked s (s.effAddr m vl.bytes len) es (s.selected aaa) (s.vec src) hsize len
  rw [hfill] at hframe
  exact ⟨_, evexStore_of_ready hg h, hframe,
    fun b hb => readByte_memWriteMasked_byteAddr _ _ _ _ _ hsize (hfill.symm ▸ hb)⟩

/-! ## VMOVDQA32 -/

/-- Settles O24: the six forms are `evexCopy` of doublewords at the three vector lengths. -/
theorem vmovdqa32CopyResult : Obligations.Vmovdqa32CopyResult := by
  intro dst src mask len s
  have copy (vl : VecLen) := evexCopy_result .dword (vl := vl) dst src mask len (s := s)
  simp only [List.forall_mem_cons]
  exact ⟨copy .l128, copy .l128, copy .l256, copy .l256, copy .l512, copy .l512, List.forall_mem_nil _⟩

/-- Settles O25: the three forms are `evexLoad` of doublewords at the three vector lengths. -/
theorem vmovdqa32LoadResult : Obligations.Vmovdqa32LoadResult := by
  intro dst mask m len s
  have load (vl : VecLen) := evexLoad_result .dword (vl := vl) dst mask (m := m) (len := len) (s := s)
  simp only [List.forall_mem_cons]
  exact ⟨load .l128, load .l256, load .l512, List.forall_mem_nil _⟩

/-- Settles O26: the three forms are `evexStore` of doublewords at the three vector lengths. -/
theorem vmovdqa32StoreResult : Obligations.Vmovdqa32StoreResult := by
  intro m aaa src len s
  have store (vl : VecLen) := evexStore_result .dword (vl := vl) (m := m) (aaa := aaa) src (len := len) (s := s)
  simp only [List.forall_mem_cons]
  exact ⟨store .l128, store .l256, store .l512, List.forall_mem_nil _⟩

end Sys2Proof.Machine
end

section
/-! SUPPORT. The results of `VMOVDQA64` (spec/43_vmovdqa64_evex.md R180 to R191): the EVEX operations with quadword elements. -/

namespace Sys2Proof.Machine

/-- Settles O27: the six forms are `evexCopy` of quadwords at the three vector lengths. -/
theorem vmovdqa64CopyResult : Obligations.Vmovdqa64CopyResult := by
  intro dst src mask len s
  have copy (vl : VecLen) := evexCopy_result .qword (vl := vl) dst src mask len (s := s)
  simp only [List.forall_mem_cons]
  exact ⟨copy .l128, copy .l128, copy .l256, copy .l256, copy .l512, copy .l512, List.forall_mem_nil _⟩

/-- Settles O28: the three forms are `evexLoad` of quadwords at the three vector lengths. -/
theorem vmovdqa64LoadResult : Obligations.Vmovdqa64LoadResult := by
  intro dst mask m len s
  have load (vl : VecLen) := evexLoad_result .qword (vl := vl) dst mask (m := m) (len := len) (s := s)
  simp only [List.forall_mem_cons]
  exact ⟨load .l128, load .l256, load .l512, List.forall_mem_nil _⟩

/-- Settles O29: the three forms are `evexStore` of quadwords at the three vector lengths. -/
theorem vmovdqa64StoreResult : Obligations.Vmovdqa64StoreResult := by
  intro m aaa src len s
  have store (vl : VecLen) := evexStore_result .qword (vl := vl) (m := m) (aaa := aaa) src (len := len) (s := s)
  simp only [List.forall_mem_cons]
  exact ⟨store .l128, store .l256, store .l512, List.forall_mem_nil _⟩

end Sys2Proof.Machine
end

section
/-! SUPPORT. A fetch that is stopped (spec/60_exceptions.md R205, R211; spec/70_reset_and_hazards.md R242): which stop the step
then ends in, and back from the stop to the bytes that caused it. -/

namespace Sys2Proof.Machine

/-! ## The bytes that the decoder has enough of -/

/-- Bytes that are too few have a first part that is too few. -/
theorem decode_truncated_of_append {bs rest : List Byte} (h : decode (bs ++ rest) = .error .truncated) :
    decode bs = .error .truncated :=
  (decode_stable bs).elim id fun hstable => hstable rest ▸ h

theorem decode_bytesAt_truncated_of_le {m : List Host.Cell} {a : Addr} {k n : Nat} (hkn : k ≤ n)
    (h : decode (bytesAt m a n) = .error .truncated) : decode (bytesAt m a k) = .error .truncated := by
  obtain ⟨j, rfl⟩ := Nat.exists_eq_add_of_le hkn
  rw [bytesAt_add] at h
  exact decode_truncated_of_append h

/-- Only fewer bytes than the window holds are too few. -/
theorem lt_windowSize_of_truncated {m : List Host.Cell} {a : Addr} {n : Nat}
    (h : decode (bytesAt m a n) = .error .truncated) : n < windowSize := by
  have hlen := decode_truncated h
  rwa [length_bytesAt] at hlen

theorem decode_window_ne_truncated (m : List Host.Cell) (a : Addr) :
    decode (bytesAt m a windowSize) ≠ .error .truncated :=
  fun htrunc => Nat.lt_irrefl _ (lt_windowSize_of_truncated htrunc)

/-! ## The stop of a fetch -/

/-- R205, R211 step 1: a byte is tested for the form of its address first, and then for access. -/
theorem fetchStop_eq_some {s : State} {a : Addr} {st : Stop} :
    fetchStop s a = some st ↔
      (canonical s.cfg.linearBits a = false ∧ st = .exc .gp)
      ∨ (canonical s.cfg.linearBits a = true ∧ accessibleByte s.cfg .load a = false ∧ st = .exc .pf) := by
  unfold fetchStop
  cases canonical s.cfg.linearBits a <;> cases accessibleByte s.cfg .load a <;> simp [eq_comm]

theorem not_readable_of_fetchStop {s : State} {a : Addr} {st : Stop} (h : fetchStop s a = some st) : ¬ readable s a :=
  fun hread => nomatch (fetchStop_eq_none.2 hread).symm.trans h

/-- The decoder needs a byte that cannot be fetched. -/
theorem truncatedStop_of_fetchStop {s : State} {n : Nat} {st : Stop} (hread : ∀ b < n, readable s (byteAddr s.pc b))
    (hd : decode (bytesAt s.mem s.pc n) = .error .truncated) (hst : fetchStop s (byteAddr s.pc n) = some st) :
    truncatedStop s = st := by
  have hfetch := fetchBytes_until (m := s.mem) (lt_windowSize_of_truncated hd)
    (fun b hb => fetchStop_eq_none.2 (hread b hb)) hst
  simp only [truncatedStop, hfetch, hd, Option.getD_some]

/-- What the decoder answers for bytes that are enough is not changed by more bytes, or by fewer that fill the window. -/
theorem truncatedStop_of_readable {s : State} {n : Nat} (hread : ∀ b < n, readable s (byteAddr s.pc b))
    (hd : decode (bytesAt s.mem s.pc n) ≠ .error .truncated) : truncatedStop s = .refuse .pastProgramText := by
  have hwindow : decode (fetchBytes (fetchStop s) s.mem windowSize s.pc).1 ≠ .error .truncated := by
    rcases fetchBytes_cases (fetchStop s) s.mem windowSize s.pc with ⟨-, e⟩ | ⟨k, st, -, -, hst, e⟩ <;> rw [e]
    · exact decode_window_ne_truncated s.mem s.pc
    · have hnk : n ≤ k := Nat.le_of_not_lt fun hkn => not_readable_of_fetchStop hst (hread k hkn)
      exact fun htrunc => hd (decode_bytesAt_truncated_of_le hnk htrunc)
  dsimp only [truncatedStop]
  split
  next htrunc => exact absurd htrunc hwindow
  next => rfl

/-- An exception of `truncatedStop` is the stop of a byte that the decoder needs. -/
theorem truncatedStop_eq_exc {s : State} {x : Exc} (h : truncatedStop s = .exc x) :
    ∃ n, (∀ b < n, readable s (byteAddr s.pc b)) ∧ decode (bytesAt s.mem s.pc n) = .error .truncated
      ∧ fetchStop s (byteAddr s.pc n) = some (.exc x) := by
  rcases fetchBytes_cases (fetchStop s) s.mem windowSize s.pc with ⟨hall, -⟩ | ⟨n, st, -, hall, hst, -⟩ <;>
    have hread := fun b hb => fetchStop_eq_none.1 (hall b hb)
  · rw [truncatedStop_of_readable hread (decode_window_ne_truncated s.mem s.pc)] at h
    cases h
  · by_cases hd : decode (bytesAt s.mem s.pc n) = .error .truncated
    · rw [truncatedStop_of_fetchStop hread hd hst] at h
      exact ⟨n, hread, hd, h ▸ hst⟩
    · rw [truncatedStop_of_readable hread hd] at h
      cases h

/-! ## The step -/

theorem step_of_nextInstr_error {s : State} {st : Stop} (hrun : s.outcome = .running) (h : nextInstr s = .error st) :
    step s = .next (s.stop st) := by
  simp only [step, hrun, h]

/-- The decoder needs a byte that the text does not give. -/
theorem nextInstr_of_truncated {s : State} {n : Nat} (hpc : inText s.cfg s.pc = true)
    (hd : decode (bytesAt s.mem s.pc n) = .error .truncated) (hn : ¬ fetchable s (byteAddr s.pc n)) :
    nextInstr s = .error (truncatedStop s) := by
  obtain ⟨k, hk, hf, -⟩ := fetch_text s
  have hkn : k ≤ n := Nat.le_of_not_lt fun hnk => hn (hf n hnk)
  rw [nextInstr_of_inText hpc, hk, decode_bytesAt_truncated_of_le hkn hd]
  rfl

/-- Settles O14: the byte that is needed is the one at which the text, and in the first two cases every fetch, stops. -/
theorem fetchStopsBecomeTheOutcome : Obligations.FetchStopsBecomeTheOutcome := by
  intro s n hrun
  refine ⟨fun hpc => step_of_nextInstr_error hrun (nextInstr_of_not_inText hpc), fun hpc hread => ⟨fun hd => ?_, ?_⟩⟩
  · have hstep {x : Exc} (hst : fetchStop s (byteAddr s.pc n) = some (.exc x)) : step s = .next (s.raise x) := by
      have hn : ¬ fetchable s (byteAddr s.pc n) := fun ⟨_, hr⟩ => not_readable_of_fetchStop hst hr
      rw [step_of_nextInstr_error hrun (nextInstr_of_truncated hpc hd hn), truncatedStop_of_fetchStop hread hd hst, stop_exc]
    exact ⟨fun hc => hstep (fetchStop_eq_some.2 (.inl ⟨hc, rfl⟩)),
      fun hc ha => hstep (fetchStop_eq_some.2 (.inr ⟨hc, ha, rfl⟩))⟩
  · intro hd m _ hm hout
    have hn : ¬ fetchable s (byteAddr s.pc m) := fun ⟨hin, _⟩ => nomatch hout.symm.trans hin
    rw [step_of_nextInstr_error hrun (nextInstr_of_truncated hpc hm hn), truncatedStop_of_readable hread hd]
    rfl

end Sys2Proof.Machine
end

section
/-! SUPPORT. The causes of each exception (spec/60_exceptions.md R200 to R205, R211, R212), from the stop of a step back to the
test that found it. -/

namespace Sys2Proof.Machine

/-! ## The gates -/

/-- Settles O30: the gate comes before everything else, and a gate that is not enabled answers `#UD`. -/
theorem disabledInstructionIsInvalidOpcode : Obligations.DisabledInstructionIsInvalidOpcode :=
  fun _ _ h => exec_of_stop (checkAll_of_gate (gateOf_disabled h))

/-- R201, R202: the stop of a gate and its cause. -/
theorem gateOf_eq_some {c : Config} {e : Encoding} {st : Stop} :
    gateOf e c = some st ↔ (¬ enabled c e ∧ st = .exc .ud) ∨ (enabled c e ∧ c.cr0Ts = true ∧ st = .exc .nm) := by
  by_cases h : enabled c e
  · rw [gateOf_enabled h, gateNm_eq]
    cases c.cr0Ts <;> simp [h, eq_comm (b := st)]
  · simp [gateOf_disabled h, h, eq_comm (b := st)]

/-! ## From a stop to its cause -/

/-- Why a step raises an exception in the state `s`: the causes of R201 to R205, by the tests of R211 in their order. -/
inductive Cause (s : State) : Exc → Prop where
  /-- a byte that is needed has an address that is not canonical (R203) -/
  | fetchNonCanonical (n : Nat) (hread : ∀ b < n, readable s (byteAddr s.pc b))
      (hd : decode (bytesAt s.mem s.pc n) = .error .truncated)
      (hcanon : canonical s.cfg.linearBits (byteAddr s.pc n) = false) : Cause s .gp
  /-- a byte that is needed is not accessible (R205) -/
  | fetchInaccessible (n : Nat) (hread : ∀ b < n, readable s (byteAddr s.pc b))
      (hd : decode (bytesAt s.mem s.pc n) = .error .truncated)
      (hcanon : canonical s.cfg.linearBits (byteAddr s.pc n) = true)
      (haccess : accessibleByte s.cfg .load (byteAddr s.pc n) = false) : Cause s .pf
  /-- the bytes are longer than an instruction can be (R203 (c)) -/
  | overlong (n : Nat) (hf : ∀ b < n, fetchable s (byteAddr s.pc b)) (hd : decode (bytesAt s.mem s.pc n) = .error .gp) :
      Cause s .gp
  /-- the bytes are an illegal encoding (R201 (a) to (d)) -/
  | illegal (n : Nat) (hf : ∀ b < n, fetchable s (byteAddr s.pc b)) (hd : decode (bytesAt s.mem s.pc n) = .error .ud) :
      Cause s .ud
  /-- the instruction is not enabled (R201 (e) to (g)) -/
  | disabled (i : Instr) (hi : nextInstr s = .ok i) (he : ¬ enabled s.cfg (encodingOf i)) : Cause s .ud
  /-- the instruction is enabled and `CR0_TS = 1` (R202) -/
  | taskSwitched (i : Instr) (hi : nextInstr s = .ok i) (he : enabled s.cfg (encodingOf i)) (hts : s.cfg.cr0Ts = true) :
      Cause s .nm
  /-- the operand is not canonical, in the stack segment (R204) -/
  | stackOperand (i : Instr) (o : Operand) (hi : nextInstr s = .ok i) (hg : gateOpen s.cfg (encodingOf i))
      (ho : operandOf i = some o) (hcanon : ¬ o.canon s) (hseg : stackSegment o.m.form = true) : Cause s .ss
  /-- the operand is not canonical, outside the stack segment (R203 (b)) -/
  | dataOperand (i : Instr) (o : Operand) (hi : nextInstr s = .ok i) (hg : gateOpen s.cfg (encodingOf i))
      (ho : operandOf i = some o) (hcanon : ¬ o.canon s) (hseg : stackSegment o.m.form = false) : Cause s .gp
  /-- the operand is not aligned (R203 (a)) -/
  | misaligned (i : Instr) (o : Operand) (hi : nextInstr s = .ok i) (hg : gateOpen s.cfg (encodingOf i))
      (ho : operandOf i = some o) (hcanon : o.canon s) (haligned : ¬ o.aligned s) : Cause s .gp
  /-- the operand is not accessible (R205) -/
  | unreachable (i : Instr) (o : Operand) (hi : nextInstr s = .ok i) (hg : gateOpen s.cfg (encodingOf i))
      (ho : operandOf i = some o) (hcanon : o.canon s) (haligned : o.aligned s) (htext : ¬ o.hitsText s)
      (hreach : ¬ o.reachable s) : Cause s .pf

/-- R211 steps 1 to 4: an exception before any instruction runs comes from the fetch or from the decoder. -/
theorem cause_of_nextInstr {s : State} {x : Exc} (h : nextInstr s = .error (.exc x)) : Cause s x := by
  cases hpc : inText s.cfg s.pc with
  | false => rw [nextInstr_of_not_inText hpc] at h; cases h
  | true =>
    obtain ⟨k, hk, hf, -⟩ := fetch_text s
    rw [nextInstr_of_inText hpc, hk] at h
    cases hd : decode (bytesAt s.mem s.pc k) with
    | ok i => rw [hd] at h; cases h
    | error r =>
      rw [hd] at h
      have hstop : rejectStop s r = .exc x := Except.error.inj h
      cases r with
      | truncated =>
        obtain ⟨n, hread, hn, hst⟩ := truncatedStop_eq_exc hstop
        rcases fetchStop_eq_some.1 hst with ⟨hc, hx⟩ | ⟨hc, ha, hx⟩ <;> cases hx
        · exact .fetchNonCanonical n hread hn hc
        · exact .fetchInaccessible n hread hn hc ha
      | gp => cases hstop; exact .overlong k hf hd
      | ud => cases hstop; exact .illegal k hf hd
      | notInScope why => cases hstop

/-- R211 steps 5 to 9: an exception of an instruction comes from its gate or from `CheckMem`. -/
theorem cause_of_checkAll {s : State} {i : Instr} {x : Exc} (hi : nextInstr s = .ok i)
    (h : checkAll (encodingOf i) (operandOf i) s = some (.exc x)) : Cause s x := by
  rw [checkAll, Option.or_eq_some_iff] at h
  rcases h with hgate | ⟨hgate, hcheck⟩
  · rcases gateOf_eq_some.1 hgate with ⟨he, hx⟩ | ⟨he, hts, hx⟩ <;> cases hx
    · exact .disabled i hi he
    · exact .taskSwitched i hi he hts
  · have hg := gateOf_eq_none.1 hgate
    obtain ⟨o, ho, hcheck⟩ := Option.bind_eq_some_iff.1 hcheck
    rcases @check_cases o s (operandOf_fits ho) with
      ⟨hc, e⟩ | ⟨hc, ha, e⟩ | ⟨-, -, -, e⟩ | ⟨hc, ha, ht, hr, e⟩ | ⟨-, e⟩ <;> rw [e] at hcheck
    · cases hseg : stackSegment o.m.form <;> rw [hseg] at hcheck <;> cases hcheck
      · exact .dataOperand i o hi hg ho hc hseg
      · exact .stackOperand i o hi hg ho hc hseg
    · cases hcheck; exact .misaligned i o hi hg ho hc ha
    · cases hcheck
    · cases hcheck; exact .unreachable i o hi hg ho hc ha ht hr
    · cases hcheck

/-- R212: a step that ends in `Fault` has raised an exception, with a cause. -/
theorem step_fault {s t : State} {vector : Nat} {code : ErrorCode} (h : step s = .next t)
    (ho : t.outcome = .fault vector code) : ∃ x, vector = x.vector ∧ code = x.code ∧ t = s.raise x ∧ Cause s x := by
  have hstop {st : Stop} (hst : (s.stop st).outcome = .fault vector code) :
      ∃ x, vector = x.vector ∧ code = x.code ∧ st = .exc x := by
    cases st with
    | exc x => cases hst; exact ⟨x, rfl, rfl, rfl⟩
    | refuse r => cases hst
  rcases step_next h with ⟨st, hn, rfl⟩ | ⟨i, st, hn, hc, rfl⟩ | ⟨i, u, -, -, hrun, hu, rfl⟩
  · obtain ⟨x, hv, hcode, rfl⟩ := hstop ho
    exact ⟨x, hv, hcode, rfl, cause_of_nextInstr hn⟩
  · obtain ⟨x, hv, hcode, rfl⟩ := hstop ho
    exact ⟨x, hv, hcode, rfl, cause_of_checkAll hn hc⟩
  · obtain ⟨-, -, -, hou, -⟩ := hu.completes
    rcases settle_outcome_of_running (hou.trans hrun) with ⟨he, -⟩ | ⟨he, -⟩ <;> exact nomatch he.symm.trans ho

/-- The vectors of the table of R200 are five different numbers. -/
theorem vector_injective : Function.Injective Exc.vector := by
  intro x y
  cases x <;> cases y <;> decide

/-- The cause of an exception that a step raised with a known vector. -/
theorem cause_of_vector {s t : State} {vector : Nat} {code : ErrorCode} (h : step s = .next t)
    (ho : t.outcome = .fault vector code) {x : Exc} (hv : vector = x.vector) : Cause s x := by
  obtain ⟨y, hy, -, -, hcause⟩ := step_fault h ho
  rwa [vector_injective (hv.symm.trans hy)]

/-! ## The statements about a step that raised an exception -/

/-- Settles O39: the exception that the step raised, by the five rows of the table of R200. -/
theorem exceptionsArePrecise : Obligations.ExceptionsArePrecise := by
  intro s t vector code h ho
  obtain ⟨x, rfl, rfl, rfl, -⟩ := step_fault h ho
  exact ⟨rfl, by cases x <;> decide⟩

/-- Settles O37: for each vector the causes of its exception. -/
theorem exceptionsHaveTheirCauses : Obligations.ExceptionsHaveTheirCauses := by
  intro s t vector code h ho
  refine ⟨fun hv => ?ud, fun hv => ?nm, fun hv => ?gp, fun hv => ?pf⟩
  case ud =>
    cases cause_of_vector h ho (x := .ud) hv with
    | illegal n hf hd => exact .inl ⟨n, hf, hd⟩
    | disabled i hi he => exact .inr ⟨i, hi, he⟩
  case nm =>
    cases cause_of_vector h ho (x := .nm) hv with
    | taskSwitched i hi he hts => exact ⟨i, hi, he, hts⟩
  case gp =>
    cases cause_of_vector h ho (x := .gp) hv with
    | overlong n hf hd => exact .inl ⟨n, hf, hd⟩
    | fetchNonCanonical n hread hd hcanon => exact .inr (.inl ⟨n, hread, hd, hcanon⟩)
    | dataOperand i o hi hg hop hcanon hseg => exact .inr (.inr ⟨i, o, hi, hg, hop, .inl ⟨hcanon, hseg⟩⟩)
    | misaligned i o hi hg hop hcanon haligned => exact .inr (.inr ⟨i, o, hi, hg, hop, .inr ⟨hcanon, haligned⟩⟩)
  case pf =>
    cases cause_of_vector h ho (x := .pf) hv with
    | fetchInaccessible n hread hd hcanon haccess => exact .inl ⟨n, hread, hd, hcanon, haccess⟩
    | unreachable i o hi hg hop hcanon haligned htext hreach =>
      exact .inr ⟨i, o, hi, hg, hop, hcanon, haligned, htext, hreach⟩

/-- Settles O31: the gate decides before `CheckMem`, the decoder before the gate, and `#NM` has one cause. -/
theorem taskSwitchedRaisesDeviceNotAvailable : Obligations.TaskSwitchedRaisesDeviceNotAvailable := by
  refine ⟨fun i s hts => ⟨fun he => ?_, disabledInstructionIsInvalidOpcode i s⟩,
    fun s n hrun _ hf => (rejectedBytesBecomeTheOutcome s n hrun hf).1, fun s t c hts h ho => ?_⟩
  · exact exec_of_stop (checkAll_of_gate (gateOf_eq_some.2 (.inr ⟨he, hts, rfl⟩)))
  · cases cause_of_vector h ho (x := .nm) rfl with
    | taskSwitched i _ _ hts' => exact nomatch hts.symm.trans hts'

/-! ## The stack segment -/

/-- R102: the base registers of the stack segment. -/
theorem stackSegment_iff (f : AddrForm) :
    stackSegment f = true ↔
      (∃ b d, f = .base b d ∧ (b = 4 ∨ b = 5)) ∨ ∃ b i sc d, f = .sib b i sc d ∧ (b = 4 ∨ b = 5) := by
  cases f <;> simp [stackSegment, isStackBase]

/-- R70 step 1, R204: the first test of `CheckMem`, in the stack segment. -/
theorem exec_of_stackOperand {i : Instr} {o : Operand} {s : State} (hg : gateOpen s.cfg (encodingOf i))
    (ho : operandOf i = some o) (hcanon : ¬ o.canon s) (hseg : stackSegment o.m.form = true) :
    exec i s = .next (faulted s 12 .zero) := by
  have hcheck : o.check s = some (.exc .ss) := by
    rw [check_eq (operandOf_fits ho), if_pos hcanon, hseg]
    rfl
  exact exec_of_check hg ho hcheck

/-- R99: with 64-bit addressing and the displacement 0 the effective address is the base register. -/
theorem effAddr_base_of_disp_zero (s : State) (b : Gpr) {d : Disp} {n : Nat} (hd : dispValue 64 n d = 0#64) (len : Nat) :
    s.effAddr ⟨false, .base b d⟩ n len = s.gpr b := by
  simp [State.effAddr, State.addrSum, State.addrReg, hd]

/-- R69: the first address that is not canonical when linear addresses have 48 bits. -/
theorem not_canonical_48 : ¬ canonical 48 0x0000800000000000#64 = true := by decide

/-- Settles O32: `CheckMem` answers `#SS` to its first test in the stack segment, and `#SS` has one cause. -/
theorem stackFaultIsNonCanonicalStackOperand : Obligations.StackFaultIsNonCanonicalStackOperand := by
  refine ⟨fun i o s => exec_of_stackOperand, fun s t c h ho => ?_, stackSegment_iff, rfl, rfl,
    fun s hg hbits => ⟨fun hbase => ?_, fun hbase => ?_⟩⟩
  · cases cause_of_vector h ho (x := .ss) rfl with
    | stackOperand i o hi _ hop hcanon hseg => exact ⟨i, o, hi, hop, hcanon, hseg⟩
  · refine exec_of_stackOperand hg rfl ?_ rfl
    rw [Operand.canon, Operand.ea, effAddr_base_of_disp_zero s _ rfl, hbase, hbits]
    exact not_canonical_48
  · refine nonCanonicalDataOperandIsGeneralProtection _ _ s hg rfl ?_ rfl
    rw [Operand.canon, Operand.ea, effAddr_base_of_disp_zero s _ rfl, hbase, hbits]
    exact not_canonical_48

end Sys2Proof.Machine
end

section
/-! SUPPORT. How far a step moves `pc` through a text, so that every run ends (spec/70_reset_and_hazards.md R242, from R36 and
R115), and what loading a program leaves (R240). -/

namespace Sys2Proof.Machine

/-! ## How far a step goes -/

/-- The next instruction is what the decoder reads from the bytes the text gives it. -/
theorem decode_of_nextInstr {s : State} {i : Instr} (h : nextInstr s = .ok i) :
    decode (fetchBytes (textStop s) s.mem windowSize s.pc).1 = .ok i := by
  cases hpc : inText s.cfg s.pc with
  | false => rw [nextInstr_of_not_inText hpc] at h; cases h
  | true =>
    rw [nextInstr_of_inText hpc] at h
    cases hd : decode (fetchBytes (textStop s) s.mem windowSize s.pc).1 <;> rw [hd] at h <;> cases h
    rfl

/-- R115: no instruction of the text is shorter than 4 bytes. -/
theorem four_le_len_of_nextInstr {s : State} {i : Instr} (h : nextInstr s = .ok i) : 4 ≤ i.len :=
  (wf_len_bounds i (decodedInstructionIsWellFormedAndReadsItsLength _ i (decode_of_nextInstr h)).1).1

/-- Bytes of a text that does not wrap do not wrap either: the last address of all is in no such text. -/
theorem byteAddr_toNat_of_inText {c : Config} {a : Addr} {n : Nat} (hwrap : c.textBase.toNat + c.textLen < 2 ^ 64)
    (h : ∀ b < n, inText c (byteAddr a b) = true) : (byteAddr a n).toNat = a.toNat + n := by
  have hlt : a.toNat + n < 2 ^ 64 := by
    by_contra hge
    have hlast := (inText_iff _ _).1 (h (2 ^ 64 - 1 - a.toNat) (by omega))
    rw [byteAddr, BitVec.toNat_add, BitVec.toNat_ofNat] at hlast
    omega
  rw [byteAddr, BitVec.toNat_add, BitVec.toNat_ofNat]
  omega

/-- R36, R115: a step that leaves a running state has completed an instruction, of at least 4 bytes. -/
theorem pc_add_four_le_of_step {s t : State} (hwrap : s.cfg.textBase.toNat + s.cfg.textLen < 2 ^ 64)
    (h : step s = .next t) (ht : t.outcome = .running) : s.pc.toNat + 4 ≤ t.pc.toNat := by
  rcases step_next h with ⟨st, -, rfl⟩ | ⟨i, st, -, -, rfl⟩ | ⟨i, u, hn, -, -, hu, rfl⟩
  case inl | inr.inl => exact absurd (stop_outcome s st ▸ ht) (stop_outcome_ne_running st)
  case inr.inr =>
    obtain ⟨-, -, -, -, hpc⟩ := hu.completes
    have hlen := four_le_len_of_nextInstr hn
    have hend := byteAddr_toNat_of_inText hwrap fun b hb => ((nextInstr_ok hn).2 b hb).1
    rw [byteAddr, ← hpc] at hend
    rw [settle_pc]
    omega

/-! ## The end of a run -/

/-- A run with at most `4 * n` bytes of text before it ends within `n` steps. -/
theorem run_ends_of_text_le {n : Nat} {s : State} (hinv : textInv s) (hrun : s.outcome = .running)
    (hleft : s.cfg.textBase.toNat + s.cfg.textLen ≤ s.pc.toNat + 4 * n) :
    ∃ k ≤ n, ∃ t : State, Host.Core.run core k s = .next t ∧ t.outcome ≠ .running := by
  induction n generalizing s with
  | zero =>
    have hpc := (inText_iff _ _).1 (hinv.2 hrun)
    omega
  | succ n ih =>
    obtain ⟨u, hu⟩ := (onlyRunningStatesStep s).2 hrun
    by_cases hurun : u.outcome = .running
    · obtain ⟨huinv, -⟩ := stepKeepsRunningStatesInsideTheText.2 s u hinv hu
      obtain ⟨hcfg, -, -⟩ := stepKeepsParametersMasksAndGeneralRegisters s u hu
      have hfar := pc_add_four_le_of_step hinv.1 hu hurun
      obtain ⟨k, hk, t, hkt, ht⟩ := ih huinv hurun (by rw [hcfg]; omega)
      exact ⟨k + 1, by omega, t, (run_next core k hu).trans hkt, ht⟩
    · exact ⟨1, by omega, u, run_next core 0 hu, hurun⟩

/-- Settles O16: at the first byte or past it, at most `TEXT_LEN` bytes of text are left, and every step that does not end the run
passes 4 of them. -/
theorem everyRunEndsWithinTheText : Obligations.EveryRunEndsWithinTheText := by
  intro s hrun hpc hwrap
  have hbase := (inText_iff _ _).1 hpc
  exact run_ends_of_text_le ⟨hwrap, fun _ => hpc⟩ hrun (by omega)

/-! ## Loading a program -/

@[simp] theorem loadText_mem (s : State) (bs : List Byte) : (loadText s bs).mem = storeBytes s.mem s.pc bs := rfl

/-- Loading leaves `Accessible` as it is. -/
@[simp] theorem accessibleByte_loadText (s : State) (bs : List Byte) (kind : AccessKind) (a : Addr) :
    accessibleByte (loadText s bs).cfg kind a = accessibleByte s.cfg kind a := rfl

/-- The bytes that were stored are the bytes that are read. -/
theorem bytesAt_storeBytes (m : List Host.Cell) (a : Addr) {bs : List Byte} (hn : bs.length ≤ 2 ^ 64) :
    bytesAt (storeBytes m a bs) a bs.length = bs := by
  refine List.ext_getElem (length_bytesAt _ _ _) fun b _ hb => ?_
  rw [← (readByte_storeBytes m a (byteAddr a b) bs hn).1 b hb rfl]
  simp [bytesAt]

/-- R240: the addresses of a program that is loaded are those of its launch state. -/
theorem isLaunch_loadText {s : State} {bs : List Byte} (hpos : 1 ≤ bs.length) (hwrap : s.pc.toNat + bs.length < 2 ^ 64)
    (hcanon : ∀ b ≤ bs.length, canonical s.cfg.linearBits (byteAddr s.pc b) = true)
    (hload : ∀ b < bs.length, accessibleByte s.cfg .load (byteAddr s.pc b) = true) : isLaunch (loadText s bs) :=
  ⟨rfl, rfl, hpos, hwrap, hcanon, fun b hb => (accessibleByte_loadText s bs .load _).trans (hload b hb)⟩

/-- Settles O56: the bytes of the program, and no other byte of memory and no register, are written. -/
theorem loadingAProgramGivesALaunchState : Obligations.LoadingAProgramGivesALaunchState := by
  intro s bs hpos hwrap hcanon hload
  have hn : bs.length ≤ 2 ^ 64 := by omega
  refine ⟨isLaunch_loadText hpos hwrap hcanon hload, ?_, fun a ha => ?_, rfl, rfl, rfl, rfl⟩
  · rw [loadText_mem]
    exact bytesAt_storeBytes s.mem s.pc hn
  · rw [loadText_mem]
    exact (readByte_storeBytes s.mem s.pc a bs hn).2 ha

end Sys2Proof.Machine
end
